-- ==== Sys2Proof/Word.lean ====
section
/-! DEFINITION. The two word sizes of the machine (spec/00_scope.md R7): bytes and 16-bit words, both unsigned bit
patterns (R12). Their helpers (bit fields, byte order, sign extension) are in Machine/Bits.lean. -/

namespace Sys2Proof

/-- An 8-bit value (A, B, DP, CC, a memory byte): `UInt8` of R12. -/
abbrev Byte := BitVec 8

/-- A 16-bit value (D, X, Y, U, S, PC, an address): `UInt16` of R12. -/
abbrev Word := BitVec 16

end Sys2Proof
end

