-- ==== Sys2Proof/Machine/Bits.lean ====
section
/-! DEFINITION. Bit fields, byte order, sign extension (spec/00_scope.md R13) and the flag bits of CC
(spec/10_state.md R36). -/

namespace Sys2Proof.Machine

/-- `v[15:8]` (R13). -/
def hi (v : Word) : Byte := v.extractLsb' 8 8

/-- `v[7:0]` (R13). -/
def lo (v : Word) : Byte := v.extractLsb' 0 8

/-- `h:l`, the word with high byte h and low byte l (R13). -/
def join (h l : Byte) : Word := h ++ l

/-- `sext_5` (R13). -/
def sext5 (v : BitVec 5) : Word := v.signExtend 16

/-- `sext_8` (R13). -/
def sext8 (v : Byte) : Word := v.signExtend 16

/-- `zext_8` (R13). -/
def zext8 (v : Byte) : Word := v.setWidth 16

/-- The fields of CC (10_state.md R36). -/
inductive Flag where
  | e | f | h | i | n | z | v | c
  deriving DecidableEq, Repr

/-- Bit numbers of the fields: E 7 down to C 0 (R36). -/
def Flag.pos : Flag → Nat
  | .e => 7 | .f => 6 | .h => 5 | .i => 4 | .n => 3 | .z => 2 | .v => 1 | .c => 0

/-- Reads one field of CC. -/
def getFlag (cc : Byte) (fl : Flag) : Bool := cc.getLsbD fl.pos

/-- Writes one field of CC; the seven others keep their value. -/
def setFlag (fl : Flag) (b : Bool) (cc : Byte) : Byte :=
  if b then cc ||| (1#8 <<< fl.pos) else cc &&& ~~~(1#8 <<< fl.pos)

/-- The byte whose bit r is `f r`: `Σ over r of f(r)·2^r` (60_exceptions.md R376). -/
def byteOfBits (f : Fin 8 → Bool) : Byte :=
  BitVec.ofNat 8 ((f 0).toNat + 2 * (f 1).toNat + 4 * (f 2).toNat + 8 * (f 3).toNat
    + 16 * (f 4).toNat + 32 * (f 5).toNat + 64 * (f 6).toNat + 128 * (f 7).toNat)

end Sys2Proof.Machine
end

