-- ==== Sys2Proof/Machine/Flags.lean ====
section
/-! DEFINITION. Flag computations (spec/40_addressing.md R156–R159, spec/42_arith_logic.md, spec/43_unary_shift.md) and branch
conditions (spec/44_branch_jump.md R280). An operation takes its operands and CC and answers its result and the new CC; a
flag its rule does not list keeps its value (spec/00_scope.md R17). -/

namespace Sys2Proof.Machine

/-- `nz8(r)` (R17). -/
def nz8 (r cc : Byte) : Byte := setFlag .z (r == 0#8) (setFlag .n r.msb cc)

/-- `nz16(r)` (R17). -/
def nz16 (r : Word) (cc : Byte) : Byte := setFlag .z (r == 0#16) (setFlag .n r.msb cc)

/-- `nz8(r); CC.V <- 0`: loads, stores, logic, TST. -/
def nz8v0 (r cc : Byte) : Byte := setFlag .v false (nz8 r cc)

/-- `nz16(r); CC.V <- 0`. -/
def nz16v0 (r : Word) (cc : Byte) : Byte := setFlag .v false (nz16 r cc)

/-- `add8(a, m, cin)` (R156). -/
def add8 (a m : Byte) (cin : Bool) (cc : Byte) : Byte × Byte :=
  let t := a.toNat + m.toNat + cin.toNat
  let r := BitVec.ofNat 8 t
  (r, setFlag .h (decide (0x0F < a.toNat % 16 + m.toNat % 16 + cin.toNat))
    (setFlag .c (decide (0xFF < t)) (setFlag .v (a.msb == m.msb && r.msb != a.msb) (nz8 r cc))))

/-- `sub8(a, m, cin)`: H is not written (R157). -/
def sub8 (a m : Byte) (cin : Bool) (cc : Byte) : Byte × Byte :=
  let t : Int := (a.toNat : Int) - m.toNat - cin.toNat
  let r := BitVec.ofInt 8 t
  (r, setFlag .c (decide (t < 0)) (setFlag .v (a.msb != m.msb && r.msb != a.msb) (nz8 r cc)))

/-- `add16(a, m)`: H is not written (R158). -/
def add16 (a m : Word) (cc : Byte) : Word × Byte :=
  let t := a.toNat + m.toNat
  let r := BitVec.ofNat 16 t
  (r, setFlag .c (decide (0xFFFF < t)) (setFlag .v (a.msb == m.msb && r.msb != a.msb) (nz16 r cc)))

/-- `sub16(a, m)` (R159). -/
def sub16 (a m : Word) (cc : Byte) : Word × Byte :=
  let t : Int := (a.toNat : Int) - m.toNat
  let r := BitVec.ofInt 16 t
  (r, setFlag .c (decide (t < 0)) (setFlag .v (a.msb != m.msb && r.msb != a.msb) (nz16 r cc)))

/-- ADDA, ADDB (42_arith_logic.md R200, R201). -/
def addOp (a m cc : Byte) : Byte × Byte := add8 a m false cc

/-- ADCA, ADCB: the carry in is CC.C (R202, R203). -/
def adcOp (a m cc : Byte) : Byte × Byte := add8 a m (getFlag cc .c) cc

/-- SUBA, SUBB, CMPA, CMPB (R205, R206, R210, R211). -/
def subOp (a m cc : Byte) : Byte × Byte := sub8 a m false cc

/-- SBCA, SBCB: the borrow in is CC.C (R207, R208). -/
def sbcOp (a m cc : Byte) : Byte × Byte := sub8 a m (getFlag cc .c) cc

/-- ANDA, ANDB, BITA, BITB (R217, R218, R223, R224). -/
def andOp (a m cc : Byte) : Byte × Byte := (a &&& m, nz8v0 (a &&& m) cc)

/-- ORA, ORB (R219, R220). -/
def orOp (a m cc : Byte) : Byte × Byte := (a ||| m, nz8v0 (a ||| m) cc)

/-- EORA, EORB (R221, R222). -/
def eorOp (a m cc : Byte) : Byte × Byte := (a ^^^ m, nz8v0 (a ^^^ m) cc)

/-- LDA, LDB: the operand replaces the register (41_load_store_transfer.md R170, R171). -/
def loadOp (_ m cc : Byte) : Byte × Byte := (m, nz8v0 m cc)

/-- LDD, LDX, LDY, LDU, LDS (R172–R176). -/
def loadOp16 (_ m : Word) (cc : Byte) : Word × Byte := (m, nz16v0 m cc)

/-- NEG (43_unary_shift.md R240–R242). -/
def negOp (m cc : Byte) : Byte × Byte :=
  let r := 0#8 - m
  (r, nz8 r (setFlag .c (m != 0#8) (setFlag .v (m == 0x80#8) cc)))

/-- COM (R243–R245). -/
def comOp (m cc : Byte) : Byte × Byte :=
  let r := m ^^^ 0xFF#8
  (r, setFlag .c true (setFlag .v false (nz8 r cc)))

/-- LSR: V keeps its value (R246–R248). -/
def lsrOp (m cc : Byte) : Byte × Byte :=
  let r := m >>> 1
  (r, setFlag .z (r == 0#8) (setFlag .n false (setFlag .c (m.getLsbD 0) cc)))

/-- The carry as bit 7: `CC.C << 7`. -/
def carryHigh (cc : Byte) : Byte := if getFlag cc .c then 0x80#8 else 0x00#8

/-- The carry as bit 0. -/
def carryLow (cc : Byte) : Byte := if getFlag cc .c then 0x01#8 else 0x00#8

/-- ROR: the old C enters bit 7; V keeps its value (R249–R251). -/
def rorOp (m cc : Byte) : Byte × Byte :=
  let r := carryHigh cc ||| (m >>> 1)
  (r, nz8 r (setFlag .c (m.getLsbD 0) cc))

/-- ASR: bit 7 is kept; V keeps its value (R252–R254). -/
def asrOp (m cc : Byte) : Byte × Byte :=
  let r := (m &&& 0x80#8) ||| (m >>> 1)
  (r, nz8 r (setFlag .c (m.getLsbD 0) cc))

/-- ASL (R255–R257). -/
def aslOp (m cc : Byte) : Byte × Byte :=
  let r := m <<< 1
  (r, nz8 r (setFlag .v (m.getLsbD 7 ^^ m.getLsbD 6) (setFlag .c (m.getLsbD 7) cc)))

/-- ROL: the old C enters bit 0 (R258–R260). -/
def rolOp (m cc : Byte) : Byte × Byte :=
  let r := (m <<< 1) ||| carryLow cc
  (r, nz8 r (setFlag .v (m.getLsbD 7 ^^ m.getLsbD 6) (setFlag .c (m.getLsbD 7) cc)))

/-- DEC: C keeps its value (R261–R263). -/
def decOp (m cc : Byte) : Byte × Byte :=
  let r := m - 1#8
  (r, nz8 r (setFlag .v (m == 0x80#8) cc))

/-- INC: C keeps its value (R264–R266). -/
def incOp (m cc : Byte) : Byte × Byte :=
  let r := m + 1#8
  (r, nz8 r (setFlag .v (m == 0x7F#8) cc))

/-- TST (R267–R269). -/
def tstOp (m cc : Byte) : Byte × Byte := (m, nz8v0 m cc)

/-- The flags of CLR: N 0, Z 1, V 0, C 0 (R270–R272). -/
def clrFlags (cc : Byte) : Byte := setFlag .c false (setFlag .v false (setFlag .z true (setFlag .n false cc)))

/-- CLR (R270–R272). -/
def clrOp (_ cc : Byte) : Byte × Byte := (0x00#8, clrFlags cc)

/-- MUL: D, Z, and C = bit 7 of the product (42_arith_logic.md R225). -/
def mulOp (a b cc : Byte) : Word × Byte :=
  let d := BitVec.ofNat 16 (a.toNat * b.toNat)
  (d, setFlag .c (d.getLsbD 7) (setFlag .z (d == 0#16) cc))

/-- The correction DAA adds (R226). -/
def daaCorrection (a cc : Byte) : Nat :=
  let l := a.toNat % 16
  let h := a.toNat / 16
  (if getFlag cc .h || decide (9 < l) then 0x06 else 0x00)
    ||| (if getFlag cc .c || decide (9 < h) || (decide (8 < h) && decide (9 < l)) then 0x60 else 0x00)

/-- DAA: C is never cleared; V and H keep their value (R226; log 14). -/
def daaOp (a cc : Byte) : Byte × Byte :=
  let t := a.toNat + daaCorrection a cc
  let r := BitVec.ofNat 8 t
  (r, setFlag .c (getFlag cc .c || decide (0xFF < t)) (nz8 r cc))

/-- The branch conditions, short and long forms alike (44_branch_jump.md R280). -/
inductive Cond where
  | ra | rn | hi | ls | cc | cs | ne | eq | vc | vs | pl | mi | ge | lt | gt | le
  deriving DecidableEq, Repr

/-- `cond(CC)` (R280, "Taken when"). -/
def Cond.holds (k : Cond) (flags : Byte) : Bool :=
  let n := getFlag flags .n
  let z := getFlag flags .z
  let v := getFlag flags .v
  let c := getFlag flags .c
  match k with
  | .ra => true
  | .rn => false
  | .hi => !c && !z
  | .ls => c || z
  | .cc => !c
  | .cs => c
  | .ne => !z
  | .eq => z
  | .vc => !v
  | .vs => v
  | .pl => !n
  | .mi => n
  | .ge => n == v
  | .lt => n != v
  | .gt => !z && n == v
  | .le => z || n != v

end Sys2Proof.Machine
end

