-- ==== Sys2Proof/Syntax.lean ====
section
/-! DEFINITION. The instruction set as syntax: every mnemonic of spec/opcode_table.json a constructor of `Instr`, its
addressing mode (the table's row) its operand (spec/30_encoding.md R112–R123; log 12). No meaning here. -/

namespace Sys2Proof

/-- The base register of an indexed operand, `pb[6:5]` (30_encoding.md R117). -/
inductive IdxReg where
  | x | y | u | s
  deriving DecidableEq, Repr

/-- An indexed operand: the forms of R117, each with its indirect bit where the table gives the form one (an illegal
postbyte is no term of this type). Effective addresses: 40_addressing.md R144–R152. -/
inductive Indexed where
  /-- `n5,R` -/
  | off5 (r : IdxReg) (n : BitVec 5)
  /-- `,R+` -/
  | inc1 (r : IdxReg)
  /-- `,R++`, `[,R++]` -/
  | inc2 (r : IdxReg) (ind : Bool)
  /-- `,-R` -/
  | dec1 (r : IdxReg)
  /-- `,--R`, `[,--R]` -/
  | dec2 (r : IdxReg) (ind : Bool)
  /-- `,R`, `[,R]` -/
  | zero (r : IdxReg) (ind : Bool)
  /-- `B,R`, `[B,R]` -/
  | accB (r : IdxReg) (ind : Bool)
  /-- `A,R`, `[A,R]` -/
  | accA (r : IdxReg) (ind : Bool)
  /-- `D,R`, `[D,R]` -/
  | accD (r : IdxReg) (ind : Bool)
  /-- `n8,R`, `[n8,R]` -/
  | off8 (r : IdxReg) (n : Byte) (ind : Bool)
  /-- `n16,R`, `[n16,R]` -/
  | off16 (r : IdxReg) (n : Word) (ind : Bool)
  /-- `n8,PCR`, `[n8,PCR]` -/
  | pcr8 (n : Byte) (ind : Bool)
  /-- `n16,PCR`, `[n16,PCR]` -/
  | pcr16 (n : Word) (ind : Bool)
  /-- `[n16]` -/
  | extInd (n : Word)
  deriving DecidableEq, Repr

/-- A memory operand: the formats DIR, IDX, EXT of R112. -/
inductive Mem where
  | dir (dd : Byte)
  | idx (ix : Indexed)
  | ext (hhll : Word)
  deriving DecidableEq, Repr

/-- A byte source: IMM8 or memory (40_addressing.md R140). -/
inductive Src8 where
  | imm (ii : Byte)
  | mem (m : Mem)
  deriving DecidableEq, Repr

/-- A word source: IMM16 or memory (40_addressing.md R140). -/
inductive Src16 where
  | imm (v : Word)
  | mem (m : Mem)
  deriving DecidableEq, Repr

/-- The 16-bit registers a TFR/EXG code selects (30_encoding.md R118). -/
inductive Reg16 where
  | d | x | y | u | s | pc
  deriving DecidableEq, Repr

/-- The 8-bit registers a TFR/EXG code selects (30_encoding.md R118). -/
inductive Reg8 where
  | a | b | cc | dp
  deriving DecidableEq, Repr

/-- A register named by one half of a TFR/EXG postbyte (R118). -/
inductive TfrReg where
  | r16 (r : Reg16)
  | r8 (r : Reg8)
  deriving DecidableEq, Repr

/-- The instructions. -/
inductive Instr where
  -- Loads, stores, load effective address (spec/41, R170–R187)
  | lda (m : Src8)
  | ldb (m : Src8)
  | ldd (m : Src16)
  | ldx (m : Src16)
  | ldy (m : Src16)
  | ldu (m : Src16)
  | lds (m : Src16)
  | sta (m : Mem)
  | stb (m : Mem)
  | std (m : Mem)
  | stx (m : Mem)
  | sty (m : Mem)
  | stu (m : Mem)
  | sts (m : Mem)
  | leax (ix : Indexed)
  | leay (ix : Indexed)
  | leas (ix : Indexed)
  | leau (ix : Indexed)
  -- Transfer, exchange, register stacking (spec/41, R188–R193)
  | tfr (r1 r2 : TfrReg)
  | exg (r1 r2 : TfrReg)
  | pshs (list : Byte)
  | pshu (list : Byte)
  | puls (list : Byte)
  | pulu (list : Byte)
  -- Arithmetic, compare, logic (spec/42, R200–R228)
  | adda (m : Src8)
  | addb (m : Src8)
  | adca (m : Src8)
  | adcb (m : Src8)
  | addd (m : Src16)
  | suba (m : Src8)
  | subb (m : Src8)
  | sbca (m : Src8)
  | sbcb (m : Src8)
  | subd (m : Src16)
  | cmpa (m : Src8)
  | cmpb (m : Src8)
  | cmpd (m : Src16)
  | cmpx (m : Src16)
  | cmpy (m : Src16)
  | cmpu (m : Src16)
  | cmps (m : Src16)
  | anda (m : Src8)
  | andb (m : Src8)
  | ora (m : Src8)
  | orb (m : Src8)
  | eora (m : Src8)
  | eorb (m : Src8)
  | bita (m : Src8)
  | bitb (m : Src8)
  | mul
  | daa
  | sex
  | abx
  -- Unary, shift, rotate: memory form, A form, B form (spec/43, R240–R272)
  | neg (m : Mem)
  | nega
  | negb
  | com (m : Mem)
  | coma
  | comb
  | lsr (m : Mem)
  | lsra
  | lsrb
  | ror (m : Mem)
  | rora
  | rorb
  | asr (m : Mem)
  | asra
  | asrb
  | asl (m : Mem)
  | asla
  | aslb
  | rol (m : Mem)
  | rola
  | rolb
  | dec (m : Mem)
  | deca
  | decb
  | inc (m : Mem)
  | inca
  | incb
  | tst (m : Mem)
  | tsta
  | tstb
  | clr (m : Mem)
  | clra
  | clrb
  -- Short branches (spec/44, R281–R296)
  | bra (rr : Byte)
  | brn (rr : Byte)
  | bhi (rr : Byte)
  | bls (rr : Byte)
  | bcc (rr : Byte)
  | bcs (rr : Byte)
  | bne (rr : Byte)
  | beq (rr : Byte)
  | bvc (rr : Byte)
  | bvs (rr : Byte)
  | bpl (rr : Byte)
  | bmi (rr : Byte)
  | bge (rr : Byte)
  | blt (rr : Byte)
  | bgt (rr : Byte)
  | ble (rr : Byte)
  -- Long branches (spec/44, R297–R312)
  | lbra (rr : Word)
  | lbrn (rr : Word)
  | lbhi (rr : Word)
  | lbls (rr : Word)
  | lbcc (rr : Word)
  | lbcs (rr : Word)
  | lbne (rr : Word)
  | lbeq (rr : Word)
  | lbvc (rr : Word)
  | lbvs (rr : Word)
  | lbpl (rr : Word)
  | lbmi (rr : Word)
  | lbge (rr : Word)
  | lblt (rr : Word)
  | lbgt (rr : Word)
  | lble (rr : Word)
  -- Subroutines, jumps, NOP (spec/44, R313–R318)
  | bsr (rr : Byte)
  | lbsr (rr : Word)
  | jmp (m : Mem)
  | jsr (m : Mem)
  | rts
  | nop
  -- System (spec/45, R330–R337)
  | swi
  | swi2
  | swi3
  | rti
  | sync
  | cwai (ii : Byte)
  | andcc (ii : Byte)
  | orcc (ii : Byte)
  deriving DecidableEq, Repr

end Sys2Proof
end

