-- ==== Sys2Proof/Config.lean ====
section
/-! DEFINITION. What the spec leaves OPEN (spec/00_scope.md R10): constants without a body, of which no proof can learn
anything but their type. A bound the spec sets (`> 0`, `≠ 0`, 0..23) is in the type. Machine/Params.lean gives them the
names the machine uses. log 4, log 5, log 6. -/

namespace Sys2Proof

/-- The three interrupt classes (spec/00_scope.md R1). -/
inductive IntClass where
  | nmi | firq | irq
  deriving DecidableEq, Repr

/-- `ProtMask`, "an address range plus size class" (10_state.md R53). Its layout is open; `Config.protMaskOf` computes one
and `Config.protHit` reads it, both open, so no field's meaning is used. DESIGN CHOICE, safe: log 6. -/
structure ProtMask where
  lo : Word
  hi : Word
  sizeClass : Byte
  deriving DecidableEq, Repr, Inhabited

namespace Config

/-- `CYCLES i − 1`: CYCLES is OPEN and `> 0` (R10, 70_reset_and_hazards.md R434). -/
opaque cyclesPred : Instr → Nat

/-- `INT_ENTRY_TICKS` (R10, R434). -/
opaque intEntryTicks : IntClass → Nat

/-- `TICKS_PER_ZERO_CROSS − 1`: OPEN, `> 0` (R10, 60_exceptions.md R390). -/
opaque ticksPerZeroCrossPred : Nat

/-- `IRQ_PERIOD_TICKS − 1`: OPEN, `> 0` (R10, 60_exceptions.md R391). -/
opaque irqPeriodTicksPred : Nat

/-- `RAM_UNLOCK_VALUE` (R10, 60_exceptions.md R382). -/
opaque ramUnlockValue : Byte

/-- `PROT_MASK_OF` (R10, R382). -/
opaque protMaskOf : Byte → ProtMask

/-- `PROT_HIT` (R10, 20_memory.md R79). -/
opaque protHit : ProtMask → Word → Bool

/-- `LAMP_LIT − 1`: OPEN, `≠ 0` (R10, 60_exceptions.md R373). -/
opaque lampLitPred : Fin 255

/-- `JUMPER_BYTE` (R10, 60_exceptions.md R378). -/
opaque jumperByte : Byte

/-- The n-th draw of the host's hour, in 0..23 (R10, 60_exceptions.md R388). -/
opaque rtcHour : Nat → Fin 24

/-- The n-th draw of the host's minute, in 0..59 (R388). -/
opaque rtcMinute : Nat → Fin 60

end Config
end Sys2Proof
end

