-- ==== Sys2Proof/Machine/Memory.lean ====
section
/-! DEFINITION. A memory as plain data: the bytes that differ from `unlisted`, with their addresses, addresses strictly
rising. Equal memories are equal lists. RAM, system ROM and game ROM are each one such list (spec/10_state.md R50, R51). -/

namespace Sys2Proof.Machine

/-- The listed bytes of a memory, each with its address. -/
abbrev Memory := List Host.Cell

/-- What a byte that is not listed reads as. The spec gives RAM and ROM no contents of its own (R11, U8: the caller
supplies them). DESIGN CHOICE, unsafe: log 1. -/
def unlisted : Byte := 0x00#8

namespace Memory

/-- Reads one byte. -/
def read (m : Memory) (k : Nat) : Byte :=
  match m with
  | [] => unlisted
  | (a, v) :: rest => if a = k then v else read rest k

/-- A cell list with `(k, v)` in front, or without it where `v` is what an unlisted byte reads as. -/
def consCell (k : Nat) (v : Byte) (m : Memory) : Memory :=
  if v = unlisted then m else (k, v) :: m

/-- Writes one byte, keeping the canonical form. -/
def write (m : Memory) (k : Nat) (v : Byte) : Memory :=
  match m with
  | [] => consCell k v []
  | (a, w) :: rest =>
    if k < a then consCell k v ((a, w) :: rest)
    else if k = a then consCell k v rest
    else (a, w) :: write rest k v

/-- Every listed address is at least `n`, the addresses rise strictly and no cell holds `unlisted`. -/
def wfFrom (m : Memory) (n : Nat) : Bool :=
  match m with
  | [] => true
  | (a, v) :: rest => decide (n ≤ a) && decide (v ≠ unlisted) && wfFrom rest (a + 1)

/-- The canonical form. -/
def wf (m : Memory) : Bool := wfFrom m 0

/-- Every listed address is below `n`. -/
def below (m : Memory) (n : Nat) : Bool := m.all fun c => decide (c.1 < n)

/-- The memory that holds the given bytes from address `k` on. -/
def ofBytesAt (k : Nat) (bs : List Byte) : Memory :=
  match bs with
  | [] => []
  | v :: rest => consCell k v (ofBytesAt (k + 1) rest)

/-- The memory that holds the given bytes from address 0 on. -/
def ofBytes (bs : List Byte) : Memory := ofBytesAt 0 bs

end Memory
end Sys2Proof.Machine
end

