-- ==== Sys2Proof/Machine/Params.lean ====
section
/-! DEFINITION. The parameters of the machine under the spec's names (spec/00_scope.md R8, R9, R10): the ones the document
or the spec fixes with their value, the OPEN ones over the opaque constants of Config.lean (log 4). -/

namespace Sys2Proof.Machine.Params

/-- `CYCLES` (R10): ticks of one instruction, `> 0`. -/
def cycles (i : Instr) : Nat := Config.cyclesPred i + 1

/-- `INT_ENTRY_TICKS` (R10). -/
def intEntryTicks (c : IntClass) : Nat := Config.intEntryTicks c

/-- `WAIT_TICKS` (R9). -/
def waitTicks : Nat := 1

/-- `TICKS_PER_ZERO_CROSS` (R10), `> 0`. -/
def ticksPerZeroCross : Nat := Config.ticksPerZeroCrossPred + 1

/-- `IRQ_PERIOD_TICKS` (R10), `> 0`. -/
def irqPeriodTicks : Nat := Config.irqPeriodTicksPred + 1

/-- `RAM_UNLOCK_VALUE` (R10). -/
def ramUnlockValue : Byte := Config.ramUnlockValue

/-- `PROT_MASK_OF` (R10). -/
def protMaskOf (v : Byte) : ProtMask := Config.protMaskOf v

/-- `PROT_HIT` (R10). -/
def protHit (m : ProtMask) (a : Word) : Bool := Config.protHit m a

/-- `LAMP_LIT` (R10), `≠ 0`. -/
def lampLit : Byte := BitVec.ofNat 8 (Config.lampLitPred.val + 1)

/-- `JUMPER_BYTE` (R10). -/
def jumperByte : Byte := Config.jumperByte

/-- The n-th draw of the host clock's hour as a plain binary byte, 0..23 (60_exceptions.md R388; log 5). -/
def rtcHour (n : Nat) : Byte := BitVec.ofNat 8 (Config.rtcHour n).val

/-- The n-th draw of the host clock's minute, 0..59 (R388; log 5). -/
def rtcMinute (n : Nat) : Byte := BitVec.ofNat 8 (Config.rtcMinute n).val

/-- `RESET_REG_VALUES` (R10) of A and B. OPEN in the spec, a named value here. DESIGN CHOICE, unsafe: log 2. -/
def resetAcc : Byte := 0x00#8

/-- `RESET_REG_VALUES` (R10) of X, Y, U, S. DESIGN CHOICE, unsafe: log 2. -/
def resetIndex : Word := 0x0000#16

/-- `IO_BASE` (R9). -/
def ioBase : Nat := 0x3FE0

/-- `BANK_BASE` (R9). -/
def bankBase : Nat := 0x4000

/-- `FIXED_BASE` (R9). -/
def fixedBase : Nat := 0x8000

/-- `PAGE_SIZE` (R8). -/
def pageSize : Nat := 0x4000

/-- `CLR_READS_MEMORY` (R9, 43_unary_shift.md R270; log 15). -/
def clrReadsMemory : Bool := true

/-- The two readings of zero-cross bit 4 (60_exceptions.md R384). -/
inductive ZcBit4Mode where
  | toggle | set
  deriving DecidableEq, Repr

/-- `ZC_BIT4_MODE` (R9; log 15). -/
def zcBit4Mode : ZcBit4Mode := .toggle

/-- `IRQ_LATCH_CLEAR_ON_SERVICE` (R9; log 15). -/
def irqLatchClearOnService : Bool := false

/-- `PERIODIC_IRQ_ENABLED_AT_RESET` (R9; log 15). -/
def periodicIrqEnabledAtReset : Bool := true

end Sys2Proof.Machine.Params
end

