-- ==== Sys2Proof/Machine/State.lean ====
section
/-! DEFINITION. The state of the machine as plain data, every piece spec/10_state.md gives it (R30–R62), the ways a step
can stop, and the state after bring-up and reset (spec/70_reset_and_hazards.md R421). -/

namespace Sys2Proof.Machine

/-- What bring-up rejects (70_reset_and_hazards.md R422). -/
inductive ConfigError where
  | missingSystemRom | missingGameRom | missingRam | missingClearIrqFlag | missingClearFirqFlag
  | systemRomSize | romSizeClass | gameRomSize | ramTooShort
  deriving DecidableEq, Repr

/-- The fatal reasons, a closed set, with the `info` each records (60_exceptions.md R352). All are the spec's own
(safe): the machine reports them and stops for the session (R350). -/
inductive Fault where
  /-- Raised by the decoder: no row has this opcode (30_encoding.md R124, R125). Safe: the spec makes it fatal. -/
  | undefinedOpcode (address : Word) (bytes : List Byte)
  /-- Raised by the decoder: an illegal indexed postbyte (30_encoding.md R126). Safe: the spec makes it fatal. -/
  | illegalPostbyte (address : Word) (opcode : List Byte) (pb : Byte)
  /-- Raised by the decoder, and by TFR and EXG on an ill-formed pair (30_encoding.md R127). Safe: the spec makes it fatal. -/
  | illegalRegisterCode (address : Word) (opcode : List Byte) (pb : Byte)
  /-- Raised by the sound decoder (20_memory.md R97). Safe: the spec makes it fatal. -/
  | soundDecodeOutOfRange (address : Nat)
  /-- Raised by bring-up (70_reset_and_hazards.md R422). Safe: no session exists after it. -/
  | configRejected (what : ConfigError)
  deriving DecidableEq, Repr

/-- The ways the model itself declines. -/
inductive Refusal where
  /-- Raised by an arm of exec that has no meaning yet (none has today). Safe: the run stops. -/
  | notModelled (mnemonic : String)
  deriving DecidableEq, Repr

/-- The CPU register file (10_state.md R30). D is no storage of its own (R32). -/
structure Regs where
  a : Byte
  b : Byte
  x : Word
  y : Word
  u : Word
  s : Word
  pc : Word
  dp : Byte
  /-- E F H I N Z V C, bits 7 down to 0 (R36). -/
  cc : Byte
  deriving DecidableEq, Repr

/-- The wait state (10_state.md R47). -/
inductive WaitState where
  | none | sync | cwai
  deriving DecidableEq, Repr

/-- The interrupt latches and the wait state (10_state.md R46, R47). -/
structure Latches where
  irqPending : Bool
  firqPending : Bool
  nmiPending : Bool
  wait : WaitState
  deriving DecidableEq, Repr

/-- The CPU's counters (10_state.md R49). -/
structure Counters where
  tickCount : Nat
  irqCount : Nat
  firqCount : Nat
  nmiCount : Nat
  missedIrqCount : Nat
  deriving DecidableEq, Repr

/-- The ROM size classes bring-up accepts (70_reset_and_hazards.md R422). -/
inductive RomSize where
  | pages8 | pages16 | pages32 | pages64
  deriving DecidableEq, Repr

/-- `PAGE_COUNT` of a size class (00_scope.md R9). -/
def RomSize.pageCount : RomSize → Nat
  | .pages8 => 8
  | .pages16 => 16
  | .pages32 => 32
  | .pages64 => 64

/-- Board and ASIC state (10_state.md R50–R62). -/
structure Board where
  /-- 0x0000–0x3FFF; 0x3FE0–0x3FFF are the I/O registers' backing bytes (R50). -/
  ram : Memory
  /-- 32,768 bytes, by offset from 0x8000; never written by a step (R51). -/
  systemRom : Memory
  /-- `PAGE_COUNT × 0x4000` bytes; never written by a step (R51). -/
  gameRom : Memory
  /-- The size class given at bring-up (00_scope.md R11). -/
  romSize : RomSize
  romBank : Byte
  protMask : Option ProtMask
  violationCount : Nat
  lampRow : Byte
  lampCol : Byte
  lamps : Vector Byte 64
  sol : Vector Byte 4
  gi : Byte
  swCol : Byte
  /-- `switches[c][r]`: column c, row r; true is closed (R57). -/
  switches : Vector (Vector Bool 8) 8
  cabinet : Byte
  ledToggleCount : Nat
  zcFlag : Bool
  zcAccum : Nat
  periodicIrqEnabled : Bool
  firqSourceDmd : Bool
  irqAccum : Nat
  /-- The model's own: how many draws of the host clock were taken (60_exceptions.md R388; log 5). -/
  rtcDraws : Nat
  deriving DecidableEq, Repr

/-- The whole machine. -/
structure State where
  regs : Regs
  latches : Latches
  /-- The sticky fault state (10_state.md R48). -/
  fault : Option Fault
  counters : Counters
  board : Board
  deriving DecidableEq, Repr

/-- The result of an instruction's meaning and of a step. -/
abbrev Result := Host.Outcome State Fault Refusal

/-- Board and ASIC state at session start over the caller's buffers (70_reset_and_hazards.md R421). -/
def Board.start (ram systemRom gameRom : Memory) (size : RomSize) : Board where
  ram := ram
  systemRom := systemRom
  gameRom := gameRom
  romSize := size
  romBank := 0#8
  protMask := none
  violationCount := 0
  lampRow := 0#8
  lampCol := 0#8
  lamps := Vector.replicate 64 0#8
  sol := Vector.replicate 4 0#8
  gi := 0#8
  swCol := 0#8
  switches := Vector.replicate 8 (Vector.replicate 8 false)
  cabinet := 0#8
  ledToggleCount := 0
  zcFlag := false
  zcAccum := 0
  periodicIrqEnabled := Params.periodicIrqEnabledAtReset
  firqSourceDmd := false
  irqAccum := 0
  rtcDraws := 0

/-- The reset vector: the two bytes at 0xFFFE, high byte first, in the system ROM (10_state.md R35, 20_memory.md R85). -/
def Board.resetVector (bd : Board) : Word :=
  join (bd.systemRom.read (0xFFFE - Params.fixedBase)) (bd.systemRom.read (0xFFFF - Params.fixedBase))

/-- The register file after `reset()` (70_reset_and_hazards.md R420); A, B, X, Y, U, S: log 2. -/
def Regs.afterReset (vector : Word) : Regs where
  a := Params.resetAcc
  b := Params.resetAcc
  x := Params.resetIndex
  y := Params.resetIndex
  u := Params.resetIndex
  s := Params.resetIndex
  pc := vector
  dp := 0x00#8
  cc := 0x50#8

/-- The latches and the wait state after `reset()` (R420). -/
def Latches.afterReset : Latches where
  irqPending := false
  firqPending := false
  nmiPending := false
  wait := .none

/-- The counters at session start (R421). -/
def Counters.start : Counters where
  tickCount := 0
  irqCount := 0
  firqCount := 0
  nmiCount := 0
  missedIrqCount := 0

/-- The state bring-up answers: session start, then one `reset()` (70_reset_and_hazards.md R422). -/
def State.start (ram systemRom gameRom : Memory) (size : RomSize) : State where
  regs := .afterReset (Board.start ram systemRom gameRom size).resetVector
  latches := .afterReset
  fault := none
  counters := .start
  board := .start ram systemRom gameRom size

/-- The machine right after bring-up and reset, over buffers that list nothing and the smallest size class
(DESIGN CHOICE: log 1, log 3). -/
def State.reset : State := State.start [] [] [] .pages8

end Sys2Proof.Machine
end

