-- ==== Sys2Proof/Machine/Asic.lean ====
section
/-! DEFINITION. The WPC ASIC's registers in the I/O window 0x3FE0–0x3FFF (spec/60_exceptions.md R370–R389): what a read
returns, what a read changes, what a write changes. -/

namespace Sys2Proof.Machine

/-- The registers of the map R370; the three unlisted ranges are `unlisted`. -/
inductive AsicReg where
  | solGen | solHighPower | solFlash1 | solLowPower | lampRow | lampCol | giTriac | jumper | cabinet | swRow | swCol
  | leds | shiftAddrH | shiftAddrL | shiftBit | shiftBit2 | firqClear | rtcHours | rtcMinutes | romBank | ramLock
  | ramLockSize | zeroCross | unlisted
  deriving DecidableEq, Repr

/-- The register at an address of the window (R370). The window is 32-aligned, so the low five bits say which. -/
def asicReg (a : Word) : AsicReg :=
  match a.extractLsb' 0 5 with
  | 0x00#5 => .solGen
  | 0x01#5 => .solHighPower
  | 0x02#5 => .solFlash1
  | 0x03#5 => .solLowPower
  | 0x04#5 => .lampRow
  | 0x05#5 => .lampCol
  | 0x06#5 => .giTriac
  | 0x07#5 => .jumper
  | 0x08#5 => .cabinet
  | 0x09#5 => .swRow
  | 0x0A#5 => .swCol
  | 0x12#5 => .leds
  | 0x14#5 => .shiftAddrH
  | 0x15#5 => .shiftAddrL
  | 0x16#5 => .shiftBit
  | 0x17#5 => .shiftBit2
  | 0x18#5 => .firqClear
  | 0x1A#5 => .rtcHours
  | 0x1B#5 => .rtcMinutes
  | 0x1C#5 => .romBank
  | 0x1D#5 => .ramLock
  | 0x1E#5 => .ramLockSize
  | 0x1F#5 => .zeroCross
  | _ => .unlisted

/-- `PAGE_MASK = PAGE_COUNT − 1` (00_scope.md R9). -/
def RomSize.pageMask (size : RomSize) : Byte := BitVec.ofNat 8 (size.pageCount - 1)

/-- The closed switches of the selected columns, bit r for row r (R376). -/
def closedRows (bd : Board) : Byte :=
  byteOfBits fun r => (List.finRange 8).any fun c => bd.swCol.getLsbD c.val && bd.switches[c.val][r.val]

/-- `s = ram[0x3FF5] + (ram[0x3FF6] >> 3)`, exact (R386). -/
def shiftSum (bd : Board) : Nat := (bd.ram.read 0x3FF5).toNat + (bd.ram.read 0x3FF6).toNat / 8

/-- `1 << (v & 7)` (R387). -/
def oneHot (v : Byte) : Byte := 1#8 <<< (v.toNat % 8)

/-- The page selected by a byte written to ROM_BANK (R380). -/
def selectBank (size : RomSize) (v : Byte) : Byte :=
  if v = 62#8 ∨ v = 63#8 then v else v &&& size.pageMask

/-- `AsicRead(a)`: the byte a read returns (R370, "Read returns"). -/
def asicValue (a : Word) (bd : Board) : Byte :=
  match asicReg a with
  | .jumper => Params.jumperByte
  | .cabinet => bd.cabinet
  | .swRow => closedRows bd
  | .shiftAddrH => BitVec.ofNat 8 ((bd.ram.read 0x3FF4).toNat + shiftSum bd / 256)
  | .shiftAddrL => BitVec.ofNat 8 (shiftSum bd)
  | .shiftBit => oneHot (bd.ram.read 0x3FF6)
  | .shiftBit2 => oneHot (bd.ram.read 0x3FF7)
  | .firqClear => if bd.firqSourceDmd then 0x00#8 else 0x80#8
  | .rtcHours => Params.rtcHour bd.rtcDraws
  | .rtcMinutes => Params.rtcMinute bd.rtcDraws
  | .romBank => bd.romBank &&& bd.romSize.pageMask
  | .zeroCross => (if bd.zcFlag then 0x80#8 else 0x00#8) ||| (bd.ram.read 0x3FFF &&& 0x7F#8)
  | .solGen | .solHighPower | .solFlash1 | .solLowPower | .lampRow | .lampCol | .giTriac | .swCol | .leds | .ramLock
  | .ramLockSize | .unlisted => bd.ram.read a.toNat

/-- `AsicRead(a)`: what a read changes (R385; R388: a draw is taken). -/
def asicReadEffect (a : Word) (st : State) : State :=
  match asicReg a with
  | .zeroCross => { st with board.zcFlag := false }
  | .rtcHours => { st with board.rtcDraws := st.board.rtcDraws + 1 }
  | .rtcMinutes => { st with board.rtcDraws := st.board.rtcDraws + 1 }
  | .solGen | .solHighPower | .solFlash1 | .solLowPower | .lampRow | .lampCol | .giTriac | .jumper | .cabinet | .swRow
  | .swCol | .leds | .shiftAddrH | .shiftAddrL | .shiftBit | .shiftBit2 | .firqClear | .romBank | .ramLock
  | .ramLockSize | .unlisted => st

/-- The lamp matrix after a column strobe v (R373): the cells of the selected columns take the row byte, the others stay.
Cell `8·c + r` is column c, row r (`LAMP_INDEX`). -/
def commitLamps (lamps : Vector Byte 64) (row v : Byte) : Vector Byte 64 :=
  Vector.ofFn fun k : Fin 64 =>
    if v.getLsbD (k.val / 8) then (if row.getLsbD (k.val % 8) then Params.lampLit else 0#8) else lamps[k.val]

/-- `periodicIrqEnabled` after a zero-cross write whose bit 4 is `bit4` (R384). -/
def zcBit4 (bit4 enabled : Bool) : Bool :=
  match Params.zcBit4Mode with
  | .toggle => if bit4 then !enabled else enabled
  | .set => if bit4 then true else enabled

/-- `AsicWrite(a, v)` (R370): the raw byte is stored first, then the register's write effect happens. -/
def asicWrite (a : Word) (v : Byte) (st : State) : State :=
  let st1 : State := { st with board.ram := st.board.ram.write a.toNat v }
  match asicReg a with
  | .solGen => { st1 with board.sol := st.board.sol.set 0 v }
  | .solHighPower => { st1 with board.sol := st.board.sol.set 1 v }
  | .solFlash1 => { st1 with board.sol := st.board.sol.set 2 v }
  | .solLowPower => { st1 with board.sol := st.board.sol.set 3 v }
  | .lampRow => { st1 with board.lampRow := v }
  | .lampCol =>
    { st1 with board.lampCol := v, board.lamps := commitLamps st.board.lamps st.board.lampRow v }
  | .giTriac => { st1 with board.gi := v }
  | .swCol => { st1 with board.swCol := v }
  | .leds =>
    { st1 with
      board.ledToggleCount :=
        if v = st.board.ram.read a.toNat then st.board.ledToggleCount else st.board.ledToggleCount + 1 }
  | .firqClear => { st1 with latches.firqPending := false }
  | .romBank => { st1 with board.romBank := selectBank st.board.romSize v }
  | .ramLockSize =>
    { st1 with
      board.protMask :=
        if st.board.ram.read 0x3FFD = Params.ramUnlockValue then some (Params.protMaskOf v) else st.board.protMask }
  | .zeroCross =>
    { st1 with
      latches.irqPending := if v.getLsbD 7 then false else st.latches.irqPending
      board.periodicIrqEnabled := zcBit4 (v.getLsbD 4) st.board.periodicIrqEnabled }
  | .jumper | .cabinet | .swRow | .shiftAddrH | .shiftAddrL | .shiftBit | .shiftBit2 | .rtcHours | .rtcMinutes
  | .ramLock | .unlisted => st1

end Sys2Proof.Machine
end

