-- ==== Sys2Proof/Machine/Ops.lean ====
section
/-! DEFINITION. The named operations over registers and memory (spec/00_scope.md R14, R15, spec/20_memory.md R74–R80), the
stack primitives (spec/40_addressing.md R160–R165), taking an exception and returning from one
(spec/60_exceptions.md R362–R366, spec/45_system.md R330–R333). -/

namespace Sys2Proof.Machine

/-! ### Registers -/

/-- Reads an 8-bit register. -/
def getReg8 (r : Reg8) (st : State) : Byte :=
  match r with
  | .a => st.regs.a
  | .b => st.regs.b
  | .cc => st.regs.cc
  | .dp => st.regs.dp

/-- Writes an 8-bit register. -/
def setReg8 (r : Reg8) (v : Byte) (st : State) : State :=
  match r with
  | .a => { st with regs.a := v }
  | .b => { st with regs.b := v }
  | .cc => { st with regs.cc := v }
  | .dp => { st with regs.dp := v }

/-- Reads a 16-bit register; `D = A:B` (10_state.md R32). -/
def getReg16 (r : Reg16) (st : State) : Word :=
  match r with
  | .d => join st.regs.a st.regs.b
  | .x => st.regs.x
  | .y => st.regs.y
  | .u => st.regs.u
  | .s => st.regs.s
  | .pc => st.regs.pc

/-- Writes a 16-bit register; writing D writes A and B (00_scope.md R14). -/
def setReg16 (r : Reg16) (v : Word) (st : State) : State :=
  match r with
  | .d => { st with regs.a := hi v, regs.b := lo v }
  | .x => { st with regs.x := v }
  | .y => { st with regs.y := v }
  | .u => { st with regs.u := v }
  | .s => { st with regs.s := v }
  | .pc => { st with regs.pc := v }

/-- Replaces CC. -/
def setCc (cc : Byte) (st : State) : State := setReg8 .cc cc st

/-- A control transfer, `PC <- target` (R14). -/
def setPc (target : Word) (st : State) : State := setReg16 .pc target st

/-- The 16-bit register of an indexed operand's base (30_encoding.md R117). -/
def idxReg16 : IdxReg → Reg16
  | .x => .x
  | .y => .y
  | .u => .u
  | .s => .s

/-! ### Memory -/

/-- An address of the I/O window. -/
def isIo (a : Word) : Bool := decide (Params.ioBase ≤ a.toNat) && decide (a.toNat < Params.bankBase)

/-- The banked window's byte at offset `o` (20_memory.md R76). -/
def bankedRead (bd : Board) (o : Nat) : Byte :=
  if bd.romBank = 62#8 then bd.systemRom.read o
  else if bd.romBank = 63#8 then bd.systemRom.read (Params.pageSize + o)
  else bd.gameRom.read (bd.romBank.toNat * Params.pageSize + o)

/-- The byte the composer resolves at an address (20_memory.md R74). -/
def busRead (bd : Board) (a : Word) : Byte :=
  if isIo a then asicValue a bd
  else if a.toNat < Params.bankBase then bd.ram.read a.toNat
  else if a.toNat < Params.fixedBase then bankedRead bd (a.toNat - Params.bankBase)
  else bd.systemRom.read (a.toNat - Params.fixedBase)

/-- The byte `MemRead(a, 1)` returns. -/
def peek (st : State) (a : Word) : Byte := busRead st.board a

/-- The state after `MemRead(a, 1)`: an I/O read may have a side effect (20_memory.md R83). -/
def readEffect (a : Word) (st : State) : State := if isIo a then asicReadEffect a st else st

/-- `MemRead(a, 1)` (00_scope.md R15). -/
def memRead (a : Word) (st : State) : Byte × State := (peek st a, readEffect a st)

/-- `MemRead(a, 2)`: high byte at a, then low byte at a + 1, modulo 65536 (R15, 20_memory.md R71, R99). -/
def memRead16 (a : Word) (st : State) : Word × State :=
  let h := memRead a st
  let l := memRead (a + 1#16) h.2
  (join h.1 l.1, l.2)

/-- `ProtectedWrite(a)` (20_memory.md R79). -/
def protectedWrite (bd : Board) (a : Word) : Bool :=
  match bd.protMask with
  | none => false
  | some m => Params.protHit m a

/-- A write to RAM below the I/O window: stored, or dropped and counted (20_memory.md R75, R80). -/
def ramWrite (a : Word) (v : Byte) (st : State) : State :=
  { st with
    board.ram := if protectedWrite st.board a then st.board.ram else st.board.ram.write a.toNat v
    board.violationCount :=
      if protectedWrite st.board a then st.board.violationCount + 1 else st.board.violationCount }

/-- `MemWrite(a, 1, v)` (20_memory.md R75); a write to ROM has no effect (R77). -/
def memWrite (a : Word) (v : Byte) (st : State) : State :=
  if isIo a then asicWrite a v st
  else if a.toNat < Params.bankBase then ramWrite a v st
  else st

/-- `MemWrite(a, 2, v)`: high byte to a, then low byte to a + 1 (00_scope.md R15). -/
def memWrite16 (a v : Word) (st : State) : State := memWrite (a + 1#16) (lo v) (memWrite a (hi v) st)

/-- `Fetch8()` (00_scope.md R15). -/
def fetch8 (st : State) : Byte × State :=
  let r := memRead st.regs.pc st
  (r.1, setPc (r.2.regs.pc + 1#16) r.2)

/-! ### Stacks -/

/-- The stack pointers (10_state.md R34). -/
inductive StackReg where
  | s | u
  deriving DecidableEq, Repr

/-- The register of a stack pointer. -/
def StackReg.reg : StackReg → Reg16
  | .s => .s
  | .u => .u

/-- `Push8` (40_addressing.md R160). -/
def push8 (sp : StackReg) (v : Byte) (st : State) : State :=
  let st1 := setReg16 sp.reg (getReg16 sp.reg st - 1#16) st
  memWrite (getReg16 sp.reg st1) v st1

/-- `Push16`: the low byte first (R161). -/
def push16 (sp : StackReg) (v : Word) (st : State) : State := push8 sp (hi v) (push8 sp (lo v) st)

/-- `Pull8` (R162). -/
def pull8 (sp : StackReg) (st : State) : Byte × State :=
  let r := memRead (getReg16 sp.reg st) st
  (r.1, setReg16 sp.reg (getReg16 sp.reg r.2 + 1#16) r.2)

/-- `Pull16`: the high byte first (R163). -/
def pull16 (sp : StackReg) (st : State) : Word × State :=
  let h := pull8 sp st
  let l := pull8 sp h.2
  (join h.1 l.1, l.2)

/-- Pushes an 8-bit register. -/
def pushReg8 (sp : StackReg) (r : Reg8) (st : State) : State := push8 sp (getReg8 r st) st

/-- Pushes a 16-bit register. -/
def pushReg16 (sp : StackReg) (r : Reg16) (st : State) : State := push16 sp (getReg16 r st) st

/-- Pulls an 8-bit register. -/
def pullReg8 (sp : StackReg) (r : Reg8) (st : State) : State :=
  let p := pull8 sp st
  setReg8 r p.1 p.2

/-- Pulls a 16-bit register. -/
def pullReg16 (sp : StackReg) (r : Reg16) (st : State) : State :=
  let p := pull16 sp st
  setReg16 r p.1 p.2

/-- `PushEntire()`: PC, U, Y, X, DP, B, A, CC onto S, in that order (R164). -/
def pushEntire (st : State) : State :=
  pushReg8 .s .cc (pushReg8 .s .a (pushReg8 .s .b (pushReg8 .s .dp
    (pushReg16 .s .x (pushReg16 .s .y (pushReg16 .s .u (pushReg16 .s .pc st)))))))

/-- `PushFast()`: PC, then CC, onto S (R165). -/
def pushFast (st : State) : State := pushReg8 .s .cc (pushReg16 .s .pc st)

/-! ### Taking an exception, and returning -/

/-- What an entry stacks: the entire frame with E set, the fast frame with E clear, or nothing because CWAI has stacked
already (60_exceptions.md R362–R366). -/
inductive Frame where
  | entire | fast | stacked
  deriving DecidableEq, Repr

/-- Writes one flag of CC. -/
def writeFlag (fl : Flag) (b : Bool) (st : State) : State := setCc (setFlag fl b (getReg8 .cc st)) st

/-- E is written, then the frame pushed, so that the stacked CC tells RTI the frame (R362, R363; 90_conflicts.md C2). -/
def stackFrame (frame : Frame) (st : State) : State :=
  match frame with
  | .entire => pushEntire (writeFlag .e true st)
  | .fast => pushFast (writeFlag .e false st)
  | .stacked => st

/-- The masks an entry sets after the frame is stacked; a mask it does not set keeps its value. -/
def setMasks (maskF maskI : Bool) (st : State) : State :=
  let cc := getReg8 .cc st
  let cc1 := if maskF then setFlag .f true cc else cc
  setCc (if maskI then setFlag .i true cc1 else cc1) st

/-- TAKING AN EXCEPTION, hardware or software: stack the frame, set the masks, load PC from the vector
(60_exceptions.md R362–R364, 45_system.md R330–R332, 40_addressing.md R166). -/
def takeException (frame : Frame) (maskF maskI : Bool) (vector : Word) (st : State) : State :=
  let r := memRead16 vector (setMasks maskF maskI (stackFrame frame st))
  setPc r.1 r.2

/-- RETURNING FROM AN EXCEPTION: CC is pulled, and its E says whether the entire frame or only PC follows
(45_system.md R333). -/
def returnFromException (st : State) : State :=
  let st1 := pullReg8 .s .cc st
  if getFlag (getReg8 .cc st1) .e then
    pullReg16 .s .pc (pullReg16 .s .u (pullReg16 .s .y (pullReg16 .s .x
      (pullReg8 .s .dp (pullReg8 .s .b (pullReg8 .s .a st1))))))
  else pullReg16 .s .pc st1

end Sys2Proof.Machine
end

