-- ==== Sys2Proof/Machine/Operands.lean ====
section
/-! DEFINITION. Effective addresses and operand access (spec/40_addressing.md R140–R155, R167). PC is already past the whole
instruction here: an operand's bytes were fetched with it (spec/10_state.md R35, log 13). -/

namespace Sys2Proof.Machine

/-- `R + n`, no register change. -/
def offsetBy (r : IdxReg) (n : Word) (st : State) : Word × State := (getReg16 (idxReg16 r) st + n, st)

/-- Auto-increment by n: the old value is the address (R145). -/
def postInc (r : IdxReg) (n : Word) (st : State) : Word × State :=
  (getReg16 (idxReg16 r) st, setReg16 (idxReg16 r) (getReg16 (idxReg16 r) st + n) st)

/-- Auto-decrement by n: the new value is the address (R146). -/
def preDec (r : IdxReg) (n : Word) (st : State) : Word × State :=
  (getReg16 (idxReg16 r) st - n, setReg16 (idxReg16 r) (getReg16 (idxReg16 r) st - n) st)

/-- Indirection: where the indirect bit is set the address is a pointer (R151). -/
def deref (ind : Bool) (p : Word × State) : Word × State := if ind then memRead16 p.1 p.2 else p

/-- The effective address of an indexed operand, and the state after it (R144–R153). -/
def eaIndexed (ix : Indexed) (st : State) : Word × State :=
  match ix with
  | .off5 r n => offsetBy r (sext5 n) st
  | .inc1 r => postInc r 1#16 st
  | .inc2 r ind => deref ind (postInc r 2#16 st)
  | .dec1 r => preDec r 1#16 st
  | .dec2 r ind => deref ind (preDec r 2#16 st)
  | .zero r ind => deref ind (offsetBy r 0#16 st)
  | .accB r ind => deref ind (offsetBy r (sext8 (getReg8 .b st)) st)
  | .accA r ind => deref ind (offsetBy r (sext8 (getReg8 .a st)) st)
  | .accD r ind => deref ind (offsetBy r (getReg16 .d st) st)
  | .off8 r n ind => deref ind (offsetBy r (sext8 n) st)
  | .off16 r n ind => deref ind (offsetBy r n st)
  | .pcr8 n ind => deref ind (getReg16 .pc st + sext8 n, st)
  | .pcr16 n ind => deref ind (getReg16 .pc st + n, st)
  | .extInd n => memRead16 n st

/-- `EA(f)` (R140, R142, R143), and the state after it. -/
def ea (m : Mem) (st : State) : Word × State :=
  match m with
  | .dir dd => (join (getReg8 .dp st) dd, st)
  | .idx ix => eaIndexed ix st
  | .ext a => (a, st)

/-- `Operand8(f)` (R140). -/
def operand8 (m : Src8) (st : State) : Byte × State :=
  match m with
  | .imm v => (v, st)
  | .mem m => memRead (ea m st).1 (ea m st).2

/-- `Operand16(f)` (R140). -/
def operand16 (m : Src16) (st : State) : Word × State :=
  match m with
  | .imm v => (v, st)
  | .mem m => memRead16 (ea m st).1 (ea m st).2

/-- An 8-bit operation on a register and an operand; `keep` says whether the result is written (a compare or a bit test
writes CC alone). The operand is read first (R140, R153). -/
def alu8 (keep : Bool) (r : Reg8) (op : Byte → Byte → Byte → Byte × Byte) (m : Src8) (st : State) : State :=
  let v := operand8 m st
  let q := op (getReg8 r v.2) v.1 (getReg8 .cc v.2)
  setCc q.2 (if keep then setReg8 r q.1 v.2 else v.2)

/-- A 16-bit operation on a register and an operand. -/
def alu16 (keep : Bool) (r : Reg16) (op : Word → Word → Byte → Word × Byte) (m : Src16) (st : State) : State :=
  let v := operand16 m st
  let q := op (getReg16 r v.2) v.1 (getReg8 .cc v.2)
  setCc q.2 (if keep then setReg16 r q.1 v.2 else v.2)

/-- A byte store: the EA, the write, `nz8`, V = 0 (41_load_store_transfer.md R177). -/
def store8 (r : Reg8) (m : Mem) (st : State) : State :=
  let p := ea m st
  let v := getReg8 r p.2
  setCc (nz8v0 v (getReg8 .cc p.2)) (memWrite p.1 v p.2)

/-- A word store (R179). -/
def store16 (r : Reg16) (m : Mem) (st : State) : State :=
  let p := ea m st
  let v := getReg16 r p.2
  setCc (nz16v0 v (getReg8 .cc p.2)) (memWrite16 p.1 v p.2)

/-- `Modify(f, op)`: one read and one write of the same EA, read first (R167). -/
def modify (op : Byte → Byte → Byte × Byte) (m : Mem) (st : State) : State :=
  let p := ea m st
  let v := memRead p.1 p.2
  let q := op v.1 (getReg8 .cc v.2)
  setCc q.2 (memWrite p.1 q.1 v.2)

/-- The register form of a unary operation (43_unary_shift.md). -/
def unary (op : Byte → Byte → Byte × Byte) (r : Reg8) (st : State) : State :=
  let q := op (getReg8 r st) (getReg8 .cc st)
  setCc q.2 (setReg8 r q.1 st)

end Sys2Proof.Machine
end

