-- ==== Sys2Proof/Machine/Arith.lean ====
section
/-! DEFINITION. Meanings of the arithmetic, compare and logical instructions (spec/42_arith_logic.md R200–R228). -/

namespace Sys2Proof.Machine

/-- ADDA (R200): add, A. -/
def execAdda (m : Src8) (st : State) : Result := .next (alu8 true .a addOp m st)

/-- ADDB (R201): add, B. -/
def execAddb (m : Src8) (st : State) : Result := .next (alu8 true .b addOp m st)

/-- ADCA (R202): add with carry, A. -/
def execAdca (m : Src8) (st : State) : Result := .next (alu8 true .a adcOp m st)

/-- ADCB (R203): add with carry, B. -/
def execAdcb (m : Src8) (st : State) : Result := .next (alu8 true .b adcOp m st)

/-- SUBA (R205): subtract, A. -/
def execSuba (m : Src8) (st : State) : Result := .next (alu8 true .a subOp m st)

/-- SUBB (R206): subtract, B. -/
def execSubb (m : Src8) (st : State) : Result := .next (alu8 true .b subOp m st)

/-- SBCA (R207): subtract with borrow, A. -/
def execSbca (m : Src8) (st : State) : Result := .next (alu8 true .a sbcOp m st)

/-- SBCB (R208): subtract with borrow, B. -/
def execSbcb (m : Src8) (st : State) : Result := .next (alu8 true .b sbcOp m st)

/-- CMPA (R210): compare; the result is discarded, A. -/
def execCmpa (m : Src8) (st : State) : Result := .next (alu8 false .a subOp m st)

/-- CMPB (R211): compare; the result is discarded, B. -/
def execCmpb (m : Src8) (st : State) : Result := .next (alu8 false .b subOp m st)

/-- ANDA (R217): bitwise AND, A. -/
def execAnda (m : Src8) (st : State) : Result := .next (alu8 true .a andOp m st)

/-- ANDB (R218): bitwise AND, B. -/
def execAndb (m : Src8) (st : State) : Result := .next (alu8 true .b andOp m st)

/-- ORA (R219): bitwise OR, A. -/
def execOra (m : Src8) (st : State) : Result := .next (alu8 true .a orOp m st)

/-- ORB (R220): bitwise OR, B. -/
def execOrb (m : Src8) (st : State) : Result := .next (alu8 true .b orOp m st)

/-- EORA (R221): bitwise exclusive OR, A. -/
def execEora (m : Src8) (st : State) : Result := .next (alu8 true .a eorOp m st)

/-- EORB (R222): bitwise exclusive OR, B. -/
def execEorb (m : Src8) (st : State) : Result := .next (alu8 true .b eorOp m st)

/-- BITA (R223): bit test; the result is discarded, A. -/
def execBita (m : Src8) (st : State) : Result := .next (alu8 false .a andOp m st)

/-- BITB (R224): bit test; the result is discarded, B. -/
def execBitb (m : Src8) (st : State) : Result := .next (alu8 false .b andOp m st)

/-- ADDD (R204): add to D. -/
def execAddd (m : Src16) (st : State) : Result := .next (alu16 true .d add16 m st)

/-- SUBD (R209): subtract from D. -/
def execSubd (m : Src16) (st : State) : Result := .next (alu16 true .d sub16 m st)

/-- CMPD (R212): compare D; the result is discarded. -/
def execCmpd (m : Src16) (st : State) : Result := .next (alu16 false .d sub16 m st)

/-- CMPX (R213): compare X; the result is discarded. -/
def execCmpx (m : Src16) (st : State) : Result := .next (alu16 false .x sub16 m st)

/-- CMPY (R214): compare Y; the result is discarded. -/
def execCmpy (m : Src16) (st : State) : Result := .next (alu16 false .y sub16 m st)

/-- CMPU (R215): compare U; the result is discarded. -/
def execCmpu (m : Src16) (st : State) : Result := .next (alu16 false .u sub16 m st)

/-- CMPS (R216): compare S; the result is discarded. -/
def execCmps (m : Src16) (st : State) : Result := .next (alu16 false .s sub16 m st)

/-- MUL (R225): D becomes A times B, unsigned. -/
def execMul (st : State) : Result :=
  let q := mulOp (getReg8 .a st) (getReg8 .b st) (getReg8 .cc st)
  .next (setCc q.2 (setReg16 .d q.1 st))

/-- DAA (R226): decimal adjust A. -/
def execDaa (st : State) : Result := .next (unary daaOp .a st)

/-- SEX (R227): A becomes the sign of B; `nz16(D)`. -/
def execSex (st : State) : Result :=
  let st1 := setReg8 .a (if (getReg8 .b st).msb then 0xFF#8 else 0x00#8) st
  .next (setCc (nz16 (getReg16 .d st1) (getReg8 .cc st1)) st1)

/-- ABX (R228): X plus B, B unsigned; no flag is written. -/
def execAbx (st : State) : Result := .next (setReg16 .x (getReg16 .x st + zext8 (getReg8 .b st)) st)

end Sys2Proof.Machine
end

