-- ==== Sys2Proof/Machine/Branch.lean ====
section
/-! DEFINITION. Meanings of the branches, jumps and subroutine calls (spec/44_branch_jump.md R281–R318). -/

namespace Sys2Proof.Machine

/-- REL8: the target is PC, past the displacement, plus `sext_8(rr)` (40_addressing.md R155). -/
def target8 (rr : Byte) (st : State) : Word := getReg16 .pc st + sext8 rr

/-- REL16: the target is PC, past the displacement, plus rr (R155). -/
def target16 (rr : Word) (st : State) : Word := getReg16 .pc st + rr

/-- `if cond(CC): PC <- target` (R280). -/
def branchIf (k : Cond) (target : Word) (st : State) : State :=
  if k.holds (getReg8 .cc st) then setPc target st else st

/-- A call: the address of the next instruction is pushed on S, then PC takes the target (R313, R316). -/
def call (target : Word) (st : State) : State := setPc target (pushReg16 .s .pc st)

/-- BRA (R281): short branch. -/
def execBra (rr : Byte) (st : State) : Result := .next (branchIf .ra (target8 rr st) st)

/-- BRN (R282): short branch. -/
def execBrn (rr : Byte) (st : State) : Result := .next (branchIf .rn (target8 rr st) st)

/-- BHI (R283): short branch. -/
def execBhi (rr : Byte) (st : State) : Result := .next (branchIf .hi (target8 rr st) st)

/-- BLS (R284): short branch. -/
def execBls (rr : Byte) (st : State) : Result := .next (branchIf .ls (target8 rr st) st)

/-- BCC (R285): short branch. -/
def execBcc (rr : Byte) (st : State) : Result := .next (branchIf .cc (target8 rr st) st)

/-- BCS (R286): short branch. -/
def execBcs (rr : Byte) (st : State) : Result := .next (branchIf .cs (target8 rr st) st)

/-- BNE (R287): short branch. -/
def execBne (rr : Byte) (st : State) : Result := .next (branchIf .ne (target8 rr st) st)

/-- BEQ (R288): short branch. -/
def execBeq (rr : Byte) (st : State) : Result := .next (branchIf .eq (target8 rr st) st)

/-- BVC (R289): short branch. -/
def execBvc (rr : Byte) (st : State) : Result := .next (branchIf .vc (target8 rr st) st)

/-- BVS (R290): short branch. -/
def execBvs (rr : Byte) (st : State) : Result := .next (branchIf .vs (target8 rr st) st)

/-- BPL (R291): short branch. -/
def execBpl (rr : Byte) (st : State) : Result := .next (branchIf .pl (target8 rr st) st)

/-- BMI (R292): short branch. -/
def execBmi (rr : Byte) (st : State) : Result := .next (branchIf .mi (target8 rr st) st)

/-- BGE (R293): short branch. -/
def execBge (rr : Byte) (st : State) : Result := .next (branchIf .ge (target8 rr st) st)

/-- BLT (R294): short branch. -/
def execBlt (rr : Byte) (st : State) : Result := .next (branchIf .lt (target8 rr st) st)

/-- BGT (R295): short branch. -/
def execBgt (rr : Byte) (st : State) : Result := .next (branchIf .gt (target8 rr st) st)

/-- BLE (R296): short branch. -/
def execBle (rr : Byte) (st : State) : Result := .next (branchIf .le (target8 rr st) st)

/-- LBRA (R297): long branch. -/
def execLbra (rr : Word) (st : State) : Result := .next (branchIf .ra (target16 rr st) st)

/-- LBRN (R298): long branch. -/
def execLbrn (rr : Word) (st : State) : Result := .next (branchIf .rn (target16 rr st) st)

/-- LBHI (R299): long branch. -/
def execLbhi (rr : Word) (st : State) : Result := .next (branchIf .hi (target16 rr st) st)

/-- LBLS (R300): long branch. -/
def execLbls (rr : Word) (st : State) : Result := .next (branchIf .ls (target16 rr st) st)

/-- LBCC (R301): long branch. -/
def execLbcc (rr : Word) (st : State) : Result := .next (branchIf .cc (target16 rr st) st)

/-- LBCS (R302): long branch. -/
def execLbcs (rr : Word) (st : State) : Result := .next (branchIf .cs (target16 rr st) st)

/-- LBNE (R303): long branch. -/
def execLbne (rr : Word) (st : State) : Result := .next (branchIf .ne (target16 rr st) st)

/-- LBEQ (R304): long branch. -/
def execLbeq (rr : Word) (st : State) : Result := .next (branchIf .eq (target16 rr st) st)

/-- LBVC (R305): long branch. -/
def execLbvc (rr : Word) (st : State) : Result := .next (branchIf .vc (target16 rr st) st)

/-- LBVS (R306): long branch. -/
def execLbvs (rr : Word) (st : State) : Result := .next (branchIf .vs (target16 rr st) st)

/-- LBPL (R307): long branch. -/
def execLbpl (rr : Word) (st : State) : Result := .next (branchIf .pl (target16 rr st) st)

/-- LBMI (R308): long branch. -/
def execLbmi (rr : Word) (st : State) : Result := .next (branchIf .mi (target16 rr st) st)

/-- LBGE (R309): long branch. -/
def execLbge (rr : Word) (st : State) : Result := .next (branchIf .ge (target16 rr st) st)

/-- LBLT (R310): long branch. -/
def execLblt (rr : Word) (st : State) : Result := .next (branchIf .lt (target16 rr st) st)

/-- LBGT (R311): long branch. -/
def execLbgt (rr : Word) (st : State) : Result := .next (branchIf .gt (target16 rr st) st)

/-- LBLE (R312): long branch. -/
def execLble (rr : Word) (st : State) : Result := .next (branchIf .le (target16 rr st) st)

/-- BSR (R313): branch to subroutine. -/
def execBsr (rr : Byte) (st : State) : Result := .next (call (target8 rr st) st)

/-- LBSR (R314): long branch to subroutine. -/
def execLbsr (rr : Word) (st : State) : Result := .next (call (target16 rr st) st)

/-- JMP (R315): no memory is read at the target. -/
def execJmp (m : Mem) (st : State) : Result :=
  let p := ea m st
  .next (setPc p.1 p.2)

/-- JSR (R316): the EA first, with its register update or pointer read, then the push. -/
def execJsr (m : Mem) (st : State) : Result :=
  let p := ea m st
  .next (call p.1 p.2)

/-- RTS (R317): return from subroutine. -/
def execRts (st : State) : Result := .next (pullReg16 .s .pc st)

/-- NOP (R318): nothing beyond the fetch. -/
def execNop (st : State) : Result := .next st

end Sys2Proof.Machine
end

