-- ==== Sys2Proof/Machine/LoadStore.lean ====
section
/-! DEFINITION. Meanings of the loads, stores and LEA (spec/41_load_store_transfer.md R170–R187). -/

namespace Sys2Proof.Machine

/-- LDA (R170): load A. -/
def execLda (m : Src8) (st : State) : Result := .next (alu8 true .a loadOp m st)

/-- LDB (R171): load B. -/
def execLdb (m : Src8) (st : State) : Result := .next (alu8 true .b loadOp m st)

/-- LDD (R172): load D. -/
def execLdd (m : Src16) (st : State) : Result := .next (alu16 true .d loadOp16 m st)

/-- LDX (R173): load X. -/
def execLdx (m : Src16) (st : State) : Result := .next (alu16 true .x loadOp16 m st)

/-- LDY (R174): load Y. -/
def execLdy (m : Src16) (st : State) : Result := .next (alu16 true .y loadOp16 m st)

/-- LDU (R175): load U. -/
def execLdu (m : Src16) (st : State) : Result := .next (alu16 true .u loadOp16 m st)

/-- LDS (R176): load S. -/
def execLds (m : Src16) (st : State) : Result := .next (alu16 true .s loadOp16 m st)

/-- STA (R177): store A. -/
def execSta (m : Mem) (st : State) : Result := .next (store8 .a m st)

/-- STB (R178): store B. -/
def execStb (m : Mem) (st : State) : Result := .next (store8 .b m st)

/-- STD (R179): store D. -/
def execStd (m : Mem) (st : State) : Result := .next (store16 .d m st)

/-- STX (R180): store X. -/
def execStx (m : Mem) (st : State) : Result := .next (store16 .x m st)

/-- STY (R181): store Y. -/
def execSty (m : Mem) (st : State) : Result := .next (store16 .y m st)

/-- STU (R182): store U. -/
def execStu (m : Mem) (st : State) : Result := .next (store16 .u m st)

/-- STS (R183): store S. -/
def execSts (m : Mem) (st : State) : Result := .next (store16 .s m st)

/-- LEAX and LEAY: Z is written (R184, R185). -/
def leaZ (r : Reg16) (ix : Indexed) (st : State) : State :=
  let p := eaIndexed ix st
  writeFlag .z (p.1 == 0#16) (setReg16 r p.1 p.2)

/-- LEAS and LEAU: no flag is written (R186, R187). -/
def leaNoFlags (r : Reg16) (ix : Indexed) (st : State) : State :=
  let p := eaIndexed ix st
  setReg16 r p.1 p.2

/-- LEAX (R184): load X with an effective address. -/
def execLeax (ix : Indexed) (st : State) : Result := .next (leaZ .x ix st)

/-- LEAY (R185): load Y with an effective address. -/
def execLeay (ix : Indexed) (st : State) : Result := .next (leaZ .y ix st)

/-- LEAS (R186): load S with an effective address. -/
def execLeas (ix : Indexed) (st : State) : Result := .next (leaNoFlags .s ix st)

/-- LEAU (R187): load U with an effective address. -/
def execLeau (ix : Indexed) (st : State) : Result := .next (leaNoFlags .u ix st)

end Sys2Proof.Machine
end

