-- ==== Sys2Proof/Machine/System.lean ====
section
/-! DEFINITION. Meanings of the software interrupts, RTI, the waits and the CC instructions (spec/45_system.md R330–R337). -/

namespace Sys2Proof.Machine

/-- SWI (R330): E = 1, entire frame, I = F = 1, vector 0xFFFA. -/
def execSwi (st : State) : Result := .next (takeException .entire true true 0xFFFA#16 st)

/-- SWI2 (R331): E = 1, entire frame, masks unchanged, vector 0xFFF4. -/
def execSwi2 (st : State) : Result := .next (takeException .entire false false 0xFFF4#16 st)

/-- SWI3 (R332): E = 1, entire frame, masks unchanged, vector 0xFFF2. -/
def execSwi3 (st : State) : Result := .next (takeException .entire false false 0xFFF2#16 st)

/-- RTI (R333): return from interrupt. -/
def execRti (st : State) : Result := .next (returnFromException st)

/-- SYNC (R334): the CPU waits from here on; the step is a waiting one (Machine/Cpu.lean). -/
def execSync (st : State) : Result := .next { st with latches.wait := .sync }

/-- CWAI (R335): `CC <- CC & ii`, E = 1, the entire frame is stacked, the CPU waits. -/
def execCwai (ii : Byte) (st : State) : Result :=
  let st1 := stackFrame .entire (setCc (getReg8 .cc st &&& ii) st)
  .next { st1 with latches.wait := .cwai }

/-- ANDCC (R336): `CC <- CC & ii`. -/
def execAndcc (ii : Byte) (st : State) : Result := .next (setCc (getReg8 .cc st &&& ii) st)

/-- ORCC (R337): `CC <- CC | ii`. -/
def execOrcc (ii : Byte) (st : State) : Result := .next (setCc (getReg8 .cc st ||| ii) st)

end Sys2Proof.Machine
end

