-- ==== Sys2Proof/WellFormed.lean ====
section
/-! DEFINITION. Which terms of `Instr` are instructions. Illegal indexed postbytes are no terms at all; the one check left
is that TFR and EXG pair registers of one size (spec/30_encoding.md R127). -/

namespace Sys2Proof

/-- Both registers of a pair have one size: the postbyte is not "mixed" (R127). -/
def TfrReg.sameSize : TfrReg → TfrReg → Bool
  | .r16 _, .r16 _ => true
  | .r8 _, .r8 _ => true
  | .r16 _, .r8 _ => false
  | .r8 _, .r16 _ => false

/-- Well-formed: every instruction but a TFR or EXG of mixed sizes. -/
def Instr.wf : Instr → Bool
  | .tfr r1 r2 => r1.sameSize r2
  | .exg r1 r2 => r1.sameSize r2
  | _ => true

end Sys2Proof
end

