-- ==== Sys2Proof/Decode.lean ====
section
/-! DEFINITION. Decoding (spec/30_encoding.md R110–R129): a total function on byte lists that answers an instruction and
the bytes after it, one of the three fatal encodings by name, or that more bytes are needed, so that a fetch reads no
byte the instruction does not have. After it the encoder, and the host's `decodeTableWord`. -/

namespace Sys2Proof

open Machine (hi lo join)

/-- What the bytes after an opcode are (the formats of R112), with the instruction they complete. -/
inductive Template where
  | inh (i : Instr)
  | imm8 (k : Byte → Instr)
  | imm16 (k : Word → Instr)
  | dir (k : Mem → Instr)
  | ext (k : Mem → Instr)
  | idx (k : Mem → Instr)
  | lea (k : Indexed → Instr)
  | rel8 (k : Byte → Instr)
  | rel16 (k : Word → Instr)
  | pair (k : TfrReg → TfrReg → Instr)
  | list (k : Byte → Instr)

/-- Row 0_ of the page-1 map (R121). -/
def page1Row0 : List (Option Template) := [
  some (.dir .neg),
  none,
  none,
  some (.dir .com),
  some (.dir .lsr),
  none,
  some (.dir .ror),
  some (.dir .asr),
  some (.dir .asl),
  some (.dir .rol),
  some (.dir .dec),
  none,
  some (.dir .inc),
  some (.dir .tst),
  some (.dir .jmp),
  some (.dir .clr)]

/-- Row 1_ of the page-1 map (R121). -/
def page1Row1 : List (Option Template) := [
  none,
  none,
  some (.inh .nop),
  some (.inh .sync),
  none,
  none,
  some (.rel16 .lbra),
  some (.rel16 .lbsr),
  none,
  some (.inh .daa),
  some (.imm8 .orcc),
  none,
  some (.imm8 .andcc),
  some (.inh .sex),
  some (.pair .exg),
  some (.pair .tfr)]

/-- Row 2_ of the page-1 map (R121). -/
def page1Row2 : List (Option Template) := [
  some (.rel8 .bra),
  some (.rel8 .brn),
  some (.rel8 .bhi),
  some (.rel8 .bls),
  some (.rel8 .bcc),
  some (.rel8 .bcs),
  some (.rel8 .bne),
  some (.rel8 .beq),
  some (.rel8 .bvc),
  some (.rel8 .bvs),
  some (.rel8 .bpl),
  some (.rel8 .bmi),
  some (.rel8 .bge),
  some (.rel8 .blt),
  some (.rel8 .bgt),
  some (.rel8 .ble)]

/-- Row 3_ of the page-1 map (R121). -/
def page1Row3 : List (Option Template) := [
  some (.lea .leax),
  some (.lea .leay),
  some (.lea .leas),
  some (.lea .leau),
  some (.list .pshs),
  some (.list .puls),
  some (.list .pshu),
  some (.list .pulu),
  none,
  some (.inh .rts),
  some (.inh .abx),
  some (.inh .rti),
  some (.imm8 .cwai),
  some (.inh .mul),
  none,
  some (.inh .swi)]

/-- Row 4_ of the page-1 map (R121). -/
def page1Row4 : List (Option Template) := [
  some (.inh .nega),
  none,
  none,
  some (.inh .coma),
  some (.inh .lsra),
  none,
  some (.inh .rora),
  some (.inh .asra),
  some (.inh .asla),
  some (.inh .rola),
  some (.inh .deca),
  none,
  some (.inh .inca),
  some (.inh .tsta),
  none,
  some (.inh .clra)]

/-- Row 5_ of the page-1 map (R121). -/
def page1Row5 : List (Option Template) := [
  some (.inh .negb),
  none,
  none,
  some (.inh .comb),
  some (.inh .lsrb),
  none,
  some (.inh .rorb),
  some (.inh .asrb),
  some (.inh .aslb),
  some (.inh .rolb),
  some (.inh .decb),
  none,
  some (.inh .incb),
  some (.inh .tstb),
  none,
  some (.inh .clrb)]

/-- Row 6_ of the page-1 map (R121). -/
def page1Row6 : List (Option Template) := [
  some (.idx .neg),
  none,
  none,
  some (.idx .com),
  some (.idx .lsr),
  none,
  some (.idx .ror),
  some (.idx .asr),
  some (.idx .asl),
  some (.idx .rol),
  some (.idx .dec),
  none,
  some (.idx .inc),
  some (.idx .tst),
  some (.idx .jmp),
  some (.idx .clr)]

/-- Row 7_ of the page-1 map (R121). -/
def page1Row7 : List (Option Template) := [
  some (.ext .neg),
  none,
  none,
  some (.ext .com),
  some (.ext .lsr),
  none,
  some (.ext .ror),
  some (.ext .asr),
  some (.ext .asl),
  some (.ext .rol),
  some (.ext .dec),
  none,
  some (.ext .inc),
  some (.ext .tst),
  some (.ext .jmp),
  some (.ext .clr)]

/-- Row 8_ of the page-1 map (R121). -/
def page1Row8 : List (Option Template) := [
  some (.imm8 fun v => .suba (.imm v)),
  some (.imm8 fun v => .cmpa (.imm v)),
  some (.imm8 fun v => .sbca (.imm v)),
  some (.imm16 fun v => .subd (.imm v)),
  some (.imm8 fun v => .anda (.imm v)),
  some (.imm8 fun v => .bita (.imm v)),
  some (.imm8 fun v => .lda (.imm v)),
  none,
  some (.imm8 fun v => .eora (.imm v)),
  some (.imm8 fun v => .adca (.imm v)),
  some (.imm8 fun v => .ora (.imm v)),
  some (.imm8 fun v => .adda (.imm v)),
  some (.imm16 fun v => .cmpx (.imm v)),
  some (.rel8 .bsr),
  some (.imm16 fun v => .ldx (.imm v)),
  none]

/-- Row 9_ of the page-1 map (R121). -/
def page1Row9 : List (Option Template) := [
  some (.dir fun m => .suba (.mem m)),
  some (.dir fun m => .cmpa (.mem m)),
  some (.dir fun m => .sbca (.mem m)),
  some (.dir fun m => .subd (.mem m)),
  some (.dir fun m => .anda (.mem m)),
  some (.dir fun m => .bita (.mem m)),
  some (.dir fun m => .lda (.mem m)),
  some (.dir .sta),
  some (.dir fun m => .eora (.mem m)),
  some (.dir fun m => .adca (.mem m)),
  some (.dir fun m => .ora (.mem m)),
  some (.dir fun m => .adda (.mem m)),
  some (.dir fun m => .cmpx (.mem m)),
  some (.dir .jsr),
  some (.dir fun m => .ldx (.mem m)),
  some (.dir .stx)]

/-- Row A_ of the page-1 map (R121). -/
def page1RowA : List (Option Template) := [
  some (.idx fun m => .suba (.mem m)),
  some (.idx fun m => .cmpa (.mem m)),
  some (.idx fun m => .sbca (.mem m)),
  some (.idx fun m => .subd (.mem m)),
  some (.idx fun m => .anda (.mem m)),
  some (.idx fun m => .bita (.mem m)),
  some (.idx fun m => .lda (.mem m)),
  some (.idx .sta),
  some (.idx fun m => .eora (.mem m)),
  some (.idx fun m => .adca (.mem m)),
  some (.idx fun m => .ora (.mem m)),
  some (.idx fun m => .adda (.mem m)),
  some (.idx fun m => .cmpx (.mem m)),
  some (.idx .jsr),
  some (.idx fun m => .ldx (.mem m)),
  some (.idx .stx)]

/-- Row B_ of the page-1 map (R121). -/
def page1RowB : List (Option Template) := [
  some (.ext fun m => .suba (.mem m)),
  some (.ext fun m => .cmpa (.mem m)),
  some (.ext fun m => .sbca (.mem m)),
  some (.ext fun m => .subd (.mem m)),
  some (.ext fun m => .anda (.mem m)),
  some (.ext fun m => .bita (.mem m)),
  some (.ext fun m => .lda (.mem m)),
  some (.ext .sta),
  some (.ext fun m => .eora (.mem m)),
  some (.ext fun m => .adca (.mem m)),
  some (.ext fun m => .ora (.mem m)),
  some (.ext fun m => .adda (.mem m)),
  some (.ext fun m => .cmpx (.mem m)),
  some (.ext .jsr),
  some (.ext fun m => .ldx (.mem m)),
  some (.ext .stx)]

/-- Row C_ of the page-1 map (R121). -/
def page1RowC : List (Option Template) := [
  some (.imm8 fun v => .subb (.imm v)),
  some (.imm8 fun v => .cmpb (.imm v)),
  some (.imm8 fun v => .sbcb (.imm v)),
  some (.imm16 fun v => .addd (.imm v)),
  some (.imm8 fun v => .andb (.imm v)),
  some (.imm8 fun v => .bitb (.imm v)),
  some (.imm8 fun v => .ldb (.imm v)),
  none,
  some (.imm8 fun v => .eorb (.imm v)),
  some (.imm8 fun v => .adcb (.imm v)),
  some (.imm8 fun v => .orb (.imm v)),
  some (.imm8 fun v => .addb (.imm v)),
  some (.imm16 fun v => .ldd (.imm v)),
  none,
  some (.imm16 fun v => .ldu (.imm v)),
  none]

/-- Row D_ of the page-1 map (R121). -/
def page1RowD : List (Option Template) := [
  some (.dir fun m => .subb (.mem m)),
  some (.dir fun m => .cmpb (.mem m)),
  some (.dir fun m => .sbcb (.mem m)),
  some (.dir fun m => .addd (.mem m)),
  some (.dir fun m => .andb (.mem m)),
  some (.dir fun m => .bitb (.mem m)),
  some (.dir fun m => .ldb (.mem m)),
  some (.dir .stb),
  some (.dir fun m => .eorb (.mem m)),
  some (.dir fun m => .adcb (.mem m)),
  some (.dir fun m => .orb (.mem m)),
  some (.dir fun m => .addb (.mem m)),
  some (.dir fun m => .ldd (.mem m)),
  some (.dir .std),
  some (.dir fun m => .ldu (.mem m)),
  some (.dir .stu)]

/-- Row E_ of the page-1 map (R121). -/
def page1RowE : List (Option Template) := [
  some (.idx fun m => .subb (.mem m)),
  some (.idx fun m => .cmpb (.mem m)),
  some (.idx fun m => .sbcb (.mem m)),
  some (.idx fun m => .addd (.mem m)),
  some (.idx fun m => .andb (.mem m)),
  some (.idx fun m => .bitb (.mem m)),
  some (.idx fun m => .ldb (.mem m)),
  some (.idx .stb),
  some (.idx fun m => .eorb (.mem m)),
  some (.idx fun m => .adcb (.mem m)),
  some (.idx fun m => .orb (.mem m)),
  some (.idx fun m => .addb (.mem m)),
  some (.idx fun m => .ldd (.mem m)),
  some (.idx .std),
  some (.idx fun m => .ldu (.mem m)),
  some (.idx .stu)]

/-- Row F_ of the page-1 map (R121). -/
def page1RowF : List (Option Template) := [
  some (.ext fun m => .subb (.mem m)),
  some (.ext fun m => .cmpb (.mem m)),
  some (.ext fun m => .sbcb (.mem m)),
  some (.ext fun m => .addd (.mem m)),
  some (.ext fun m => .andb (.mem m)),
  some (.ext fun m => .bitb (.mem m)),
  some (.ext fun m => .ldb (.mem m)),
  some (.ext .stb),
  some (.ext fun m => .eorb (.mem m)),
  some (.ext fun m => .adcb (.mem m)),
  some (.ext fun m => .orb (.mem m)),
  some (.ext fun m => .addb (.mem m)),
  some (.ext fun m => .ldd (.mem m)),
  some (.ext .std),
  some (.ext fun m => .ldu (.mem m)),
  some (.ext .stu)]

/-- The page-1 map (30_encoding.md R121), row by row; `none` is an undefined opcode byte (R124) or a prefix byte (R111). -/
def page1 : List (List (Option Template)) :=
  [page1Row0, page1Row1, page1Row2, page1Row3, page1Row4, page1Row5, page1Row6, page1Row7,
   page1Row8, page1Row9, page1RowA, page1RowB, page1RowC, page1RowD, page1RowE, page1RowF]

/-- Rows 2_ and 3_ of the page-2 map: the long branches and SWI2 (R122). -/
def page2Branches : List (Nat × Template) := [
  (0x21, .rel16 .lbrn),
  (0x22, .rel16 .lbhi),
  (0x23, .rel16 .lbls),
  (0x24, .rel16 .lbcc),
  (0x25, .rel16 .lbcs),
  (0x26, .rel16 .lbne),
  (0x27, .rel16 .lbeq),
  (0x28, .rel16 .lbvc),
  (0x29, .rel16 .lbvs),
  (0x2A, .rel16 .lbpl),
  (0x2B, .rel16 .lbmi),
  (0x2C, .rel16 .lbge),
  (0x2D, .rel16 .lblt),
  (0x2E, .rel16 .lbgt),
  (0x2F, .rel16 .lble),
  (0x3F, .inh .swi2)]

/-- Rows 8_ to F_ of the page-2 map (R122). -/
def page2Words : List (Nat × Template) := [
  (0x83, .imm16 fun v => .cmpd (.imm v)),
  (0x8C, .imm16 fun v => .cmpy (.imm v)),
  (0x8E, .imm16 fun v => .ldy (.imm v)),
  (0x93, .dir fun m => .cmpd (.mem m)),
  (0x9C, .dir fun m => .cmpy (.mem m)),
  (0x9E, .dir fun m => .ldy (.mem m)),
  (0x9F, .dir .sty),
  (0xA3, .idx fun m => .cmpd (.mem m)),
  (0xAC, .idx fun m => .cmpy (.mem m)),
  (0xAE, .idx fun m => .ldy (.mem m)),
  (0xAF, .idx .sty),
  (0xB3, .ext fun m => .cmpd (.mem m)),
  (0xBC, .ext fun m => .cmpy (.mem m)),
  (0xBE, .ext fun m => .ldy (.mem m)),
  (0xBF, .ext .sty),
  (0xCE, .imm16 fun v => .lds (.imm v)),
  (0xDE, .dir fun m => .lds (.mem m)),
  (0xDF, .dir .sts),
  (0xEE, .idx fun m => .lds (.mem m)),
  (0xEF, .idx .sts),
  (0xFE, .ext fun m => .lds (.mem m)),
  (0xFF, .ext .sts)]

/-- The page-2 map (30_encoding.md R122): the byte after the prefix 0x10. -/
def page2 : List (Nat × Template) := page2Branches ++ page2Words

/-- Rows 3_, 8_, 9_, A_, B_ of the page-3 map (R123). -/
def page3Rows : List (Nat × Template) := [
  (0x3F, .inh .swi3),
  (0x83, .imm16 fun v => .cmpu (.imm v)),
  (0x8C, .imm16 fun v => .cmps (.imm v)),
  (0x93, .dir fun m => .cmpu (.mem m)),
  (0x9C, .dir fun m => .cmps (.mem m)),
  (0xA3, .idx fun m => .cmpu (.mem m)),
  (0xAC, .idx fun m => .cmps (.mem m)),
  (0xB3, .ext fun m => .cmpu (.mem m)),
  (0xBC, .ext fun m => .cmps (.mem m))]

/-- The page-3 map (30_encoding.md R123): the byte after the prefix 0x11. -/
def page3 : List (Nat × Template) := page3Rows

/-- The entry of a page-1 opcode byte. -/
def lookup1 (op : Byte) : Option Template :=
  (page1.getD (op.toNat / 16) []).getD (op.toNat % 16) none

/-- The entry of an opcode byte in a page-2 or page-3 map. -/
def lookupIn (page : List (Nat × Template)) (op : Byte) : Option Template :=
  match page with
  | [] => none
  | row :: rest => if row.1 = op.toNat then some row.2 else lookupIn rest op

/-- The answers of the decoder. -/
inductive Decoded where
  /-- An instruction, and the bytes after it. -/
  | ok (i : Instr) (rest : List Byte)
  /-- No row has this opcode (R124, R125). -/
  | undefinedOpcode
  /-- An indexed postbyte marked illegal in R117 (R126). -/
  | illegalPostbyte (pb : Byte)
  /-- A TFR/EXG postbyte with a code that selects no register, or of mixed sizes (R127). -/
  | illegalRegisterCode (pb : Byte)
  /-- The bytes end inside an instruction. -/
  | more
  deriving DecidableEq, Repr

/-- The base register of `pb[6:5]` (R117). -/
def idxRegOf (pb : Byte) : IdxReg :=
  if pb.getLsbD 6 then (if pb.getLsbD 5 then .s else .u) else (if pb.getLsbD 5 then .y else .x)

/-- What an indexed postbyte asks for: nothing more, one offset byte, or two. -/
inductive PostbyteForm where
  | done (ix : Indexed)
  | offset8 (k : Byte → Indexed)
  | offset16 (k : Word → Indexed)

/-- The table of R117; `none` is an illegal postbyte (R126). -/
def postbyteForm (pb : Byte) : Option PostbyteForm :=
  let r := idxRegOf pb
  let ind := pb.getLsbD 4
  if pb.getLsbD 7 then
    match pb.toNat % 16 with
    | 0 => if ind then none else some (.done (.inc1 r))
    | 1 => some (.done (.inc2 r ind))
    | 2 => if ind then none else some (.done (.dec1 r))
    | 3 => some (.done (.dec2 r ind))
    | 4 => some (.done (.zero r ind))
    | 5 => some (.done (.accB r ind))
    | 6 => some (.done (.accA r ind))
    | 8 => some (.offset8 fun n => .off8 r n ind)
    | 9 => some (.offset16 fun n => .off16 r n ind)
    | 11 => some (.done (.accD r ind))
    | 12 => some (.offset8 fun n => .pcr8 n ind)
    | 13 => some (.offset16 fun n => .pcr16 n ind)
    | 15 => if ind then some (.offset16 .extInd) else none
    | _ => none
  else some (.done (.off5 r (pb.extractLsb' 0 5)))

/-- Reads one operand byte. -/
def take8 (bs : List Byte) (k : Byte → Instr) : Decoded :=
  match bs with
  | v :: rest => .ok (k v) rest
  | [] => .more

/-- Reads two operand bytes, high byte first (R115, R116). -/
def take16 (bs : List Byte) (k : Word → Instr) : Decoded :=
  match bs with
  | h :: l :: rest => .ok (k (join h l)) rest
  | _ => .more

/-- Reads an indexed postbyte and its extra bytes (R117, R129). -/
def takeIndexed (bs : List Byte) (k : Indexed → Instr) : Decoded :=
  match bs with
  | [] => .more
  | pb :: rest =>
    match postbyteForm pb with
    | none => .illegalPostbyte pb
    | some (.done ix) => .ok (k ix) rest
    | some (.offset8 f) => take8 rest (fun n => k (f n))
    | some (.offset16 f) => take16 rest (fun n => k (f n))

/-- The register of a TFR/EXG code (R118). -/
def tfrRegOf (code : Nat) : Option TfrReg :=
  match code with
  | 0 => some (.r16 .d)
  | 1 => some (.r16 .x)
  | 2 => some (.r16 .y)
  | 3 => some (.r16 .u)
  | 4 => some (.r16 .s)
  | 5 => some (.r16 .pc)
  | 8 => some (.r8 .a)
  | 9 => some (.r8 .b)
  | 10 => some (.r8 .cc)
  | 11 => some (.r8 .dp)
  | _ => none

/-- Reads a register pair: source code `pb[7:4]`, destination code `pb[3:0]` (R112, R118, R127). -/
def takePair (bs : List Byte) (k : TfrReg → TfrReg → Instr) : Decoded :=
  match bs with
  | [] => .more
  | pb :: rest =>
    match tfrRegOf (pb.toNat / 16), tfrRegOf (pb.toNat % 16) with
    | some r1, some r2 => if r1.sameSize r2 then .ok (k r1 r2) rest else .illegalRegisterCode pb
    | _, _ => .illegalRegisterCode pb

/-- Reads the bytes after an opcode (R129). -/
def operands (t : Option Template) (bs : List Byte) : Decoded :=
  match t with
  | none => .undefinedOpcode
  | some (.inh i) => .ok i bs
  | some (.imm8 k) => take8 bs k
  | some (.imm16 k) => take16 bs k
  | some (.dir k) => take8 bs (fun dd => k (.dir dd))
  | some (.ext k) => take16 bs (fun a => k (.ext a))
  | some (.idx k) => takeIndexed bs (fun ix => k (.idx ix))
  | some (.lea k) => takeIndexed bs k
  | some (.rel8 k) => take8 bs k
  | some (.rel16 k) => take16 bs k
  | some (.pair k) => takePair bs k
  | some (.list k) => take8 bs k

/-- The prefix byte of page 2 (R111). -/
def prefix2 : Byte := 0x10#8

/-- The prefix byte of page 3 (R111). -/
def prefix3 : Byte := 0x11#8

/-- The decoder (R111, R129). -/
def decode (bs : List Byte) : Decoded :=
  match bs with
  | [] => .more
  | b0 :: rest =>
    if b0 = prefix2 then
      match rest with
      | [] => .more
      | op :: rest' => operands (lookupIn page2 op) rest'
    else if b0 = prefix3 then
      match rest with
      | [] => .more
      | op :: rest' => operands (lookupIn page3 op) rest'
    else operands (lookup1 b0) rest

/-- `pb[6:5]` of a base register (R117). -/
def idxRegCode : IdxReg → BitVec 2
  | .x => 0#2
  | .y => 1#2
  | .u => 2#2
  | .s => 3#2

/-- A postbyte with `pb[7] = 1`: base register, indirect bit, form (R117). -/
def postbyte (r : BitVec 2) (ind : Bool) (form : BitVec 4) : Byte :=
  ((1#1 ++ r) ++ BitVec.ofBool ind) ++ form

/-- An indexed operand's bytes (R117); `pb[6:5]`, which the PCR forms and `[n16]` ignore, is written 00 (log 24). -/
def encodeIndexed : Indexed → List Byte
  | .off5 r n => [(0#1 ++ idxRegCode r) ++ n]
  | .inc1 r => [postbyte (idxRegCode r) false 0#4]
  | .inc2 r ind => [postbyte (idxRegCode r) ind 1#4]
  | .dec1 r => [postbyte (idxRegCode r) false 2#4]
  | .dec2 r ind => [postbyte (idxRegCode r) ind 3#4]
  | .zero r ind => [postbyte (idxRegCode r) ind 4#4]
  | .accB r ind => [postbyte (idxRegCode r) ind 5#4]
  | .accA r ind => [postbyte (idxRegCode r) ind 6#4]
  | .accD r ind => [postbyte (idxRegCode r) ind 11#4]
  | .off8 r n ind => [postbyte (idxRegCode r) ind 8#4, n]
  | .off16 r n ind => [postbyte (idxRegCode r) ind 9#4, hi n, lo n]
  | .pcr8 n ind => [postbyte 0#2 ind 12#4, n]
  | .pcr16 n ind => [postbyte 0#2 ind 13#4, hi n, lo n]
  | .extInd n => [postbyte 0#2 true 15#4, hi n, lo n]

/-- The code of a 16-bit register (R118). -/
def reg16Code : Reg16 → BitVec 4
  | .d => 0#4 | .x => 1#4 | .y => 2#4 | .u => 3#4 | .s => 4#4 | .pc => 5#4

/-- The code of an 8-bit register (R118). -/
def reg8Code : Reg8 → BitVec 4
  | .a => 8#4 | .b => 9#4 | .cc => 10#4 | .dp => 11#4

/-- The code of a register (R118). -/
def tfrRegCode : TfrReg → BitVec 4
  | .r16 r => reg16Code r
  | .r8 r => reg8Code r

/-- A TFR/EXG postbyte: source code high, destination code low (R112). -/
def encodePair (r1 r2 : TfrReg) : Byte := tfrRegCode r1 ++ tfrRegCode r2

/-- A memory operand under its three opcode bytes; `p` is the page's prefix bytes. -/
def encodeMem (p : List Byte) (dir idx ext : Byte) : Mem → List Byte
  | .dir dd => p ++ [dir, dd]
  | .idx ix => p ++ idx :: encodeIndexed ix
  | .ext a => p ++ [ext, hi a, lo a]

/-- A byte source under its four opcode bytes (all on page 1). -/
def encodeSrc8 (imm dir idx ext : Byte) : Src8 → List Byte
  | .imm v => [imm, v]
  | .mem m => encodeMem [] dir idx ext m

/-- A word source under its four opcode bytes. -/
def encodeSrc16 (p : List Byte) (imm dir idx ext : Byte) : Src16 → List Byte
  | .imm v => p ++ [imm, hi v, lo v]
  | .mem m => encodeMem p dir idx ext m

/-- The encoder: the opcode bytes of R121–R123, the operand bytes of R112. -/
def encode : Instr → List Byte
  | .lda m => encodeSrc8 0x86 0x96 0xA6 0xB6 m
  | .ldb m => encodeSrc8 0xC6 0xD6 0xE6 0xF6 m
  | .ldd m => encodeSrc16 [] 0xCC 0xDC 0xEC 0xFC m
  | .ldx m => encodeSrc16 [] 0x8E 0x9E 0xAE 0xBE m
  | .ldy m => encodeSrc16 [prefix2] 0x8E 0x9E 0xAE 0xBE m
  | .ldu m => encodeSrc16 [] 0xCE 0xDE 0xEE 0xFE m
  | .lds m => encodeSrc16 [prefix2] 0xCE 0xDE 0xEE 0xFE m
  | .sta m => encodeMem [] 0x97 0xA7 0xB7 m
  | .stb m => encodeMem [] 0xD7 0xE7 0xF7 m
  | .std m => encodeMem [] 0xDD 0xED 0xFD m
  | .stx m => encodeMem [] 0x9F 0xAF 0xBF m
  | .sty m => encodeMem [prefix2] 0x9F 0xAF 0xBF m
  | .stu m => encodeMem [] 0xDF 0xEF 0xFF m
  | .sts m => encodeMem [prefix2] 0xDF 0xEF 0xFF m
  | .leax ix => 0x30 :: encodeIndexed ix
  | .leay ix => 0x31 :: encodeIndexed ix
  | .leas ix => 0x32 :: encodeIndexed ix
  | .leau ix => 0x33 :: encodeIndexed ix
  | .tfr r1 r2 => [0x1F, encodePair r1 r2]
  | .exg r1 r2 => [0x1E, encodePair r1 r2]
  | .pshs list => [0x34, list]
  | .pshu list => [0x36, list]
  | .puls list => [0x35, list]
  | .pulu list => [0x37, list]
  | .adda m => encodeSrc8 0x8B 0x9B 0xAB 0xBB m
  | .addb m => encodeSrc8 0xCB 0xDB 0xEB 0xFB m
  | .adca m => encodeSrc8 0x89 0x99 0xA9 0xB9 m
  | .adcb m => encodeSrc8 0xC9 0xD9 0xE9 0xF9 m
  | .addd m => encodeSrc16 [] 0xC3 0xD3 0xE3 0xF3 m
  | .suba m => encodeSrc8 0x80 0x90 0xA0 0xB0 m
  | .subb m => encodeSrc8 0xC0 0xD0 0xE0 0xF0 m
  | .sbca m => encodeSrc8 0x82 0x92 0xA2 0xB2 m
  | .sbcb m => encodeSrc8 0xC2 0xD2 0xE2 0xF2 m
  | .subd m => encodeSrc16 [] 0x83 0x93 0xA3 0xB3 m
  | .cmpa m => encodeSrc8 0x81 0x91 0xA1 0xB1 m
  | .cmpb m => encodeSrc8 0xC1 0xD1 0xE1 0xF1 m
  | .cmpd m => encodeSrc16 [prefix2] 0x83 0x93 0xA3 0xB3 m
  | .cmpx m => encodeSrc16 [] 0x8C 0x9C 0xAC 0xBC m
  | .cmpy m => encodeSrc16 [prefix2] 0x8C 0x9C 0xAC 0xBC m
  | .cmpu m => encodeSrc16 [prefix3] 0x83 0x93 0xA3 0xB3 m
  | .cmps m => encodeSrc16 [prefix3] 0x8C 0x9C 0xAC 0xBC m
  | .anda m => encodeSrc8 0x84 0x94 0xA4 0xB4 m
  | .andb m => encodeSrc8 0xC4 0xD4 0xE4 0xF4 m
  | .ora m => encodeSrc8 0x8A 0x9A 0xAA 0xBA m
  | .orb m => encodeSrc8 0xCA 0xDA 0xEA 0xFA m
  | .eora m => encodeSrc8 0x88 0x98 0xA8 0xB8 m
  | .eorb m => encodeSrc8 0xC8 0xD8 0xE8 0xF8 m
  | .bita m => encodeSrc8 0x85 0x95 0xA5 0xB5 m
  | .bitb m => encodeSrc8 0xC5 0xD5 0xE5 0xF5 m
  | .mul => [0x3D]
  | .daa => [0x19]
  | .sex => [0x1D]
  | .abx => [0x3A]
  | .neg m => encodeMem [] 0x00 0x60 0x70 m
  | .nega => [0x40]
  | .negb => [0x50]
  | .com m => encodeMem [] 0x03 0x63 0x73 m
  | .coma => [0x43]
  | .comb => [0x53]
  | .lsr m => encodeMem [] 0x04 0x64 0x74 m
  | .lsra => [0x44]
  | .lsrb => [0x54]
  | .ror m => encodeMem [] 0x06 0x66 0x76 m
  | .rora => [0x46]
  | .rorb => [0x56]
  | .asr m => encodeMem [] 0x07 0x67 0x77 m
  | .asra => [0x47]
  | .asrb => [0x57]
  | .asl m => encodeMem [] 0x08 0x68 0x78 m
  | .asla => [0x48]
  | .aslb => [0x58]
  | .rol m => encodeMem [] 0x09 0x69 0x79 m
  | .rola => [0x49]
  | .rolb => [0x59]
  | .dec m => encodeMem [] 0x0A 0x6A 0x7A m
  | .deca => [0x4A]
  | .decb => [0x5A]
  | .inc m => encodeMem [] 0x0C 0x6C 0x7C m
  | .inca => [0x4C]
  | .incb => [0x5C]
  | .tst m => encodeMem [] 0x0D 0x6D 0x7D m
  | .tsta => [0x4D]
  | .tstb => [0x5D]
  | .clr m => encodeMem [] 0x0F 0x6F 0x7F m
  | .clra => [0x4F]
  | .clrb => [0x5F]
  | .bra rr => [0x20, rr]
  | .brn rr => [0x21, rr]
  | .bhi rr => [0x22, rr]
  | .bls rr => [0x23, rr]
  | .bcc rr => [0x24, rr]
  | .bcs rr => [0x25, rr]
  | .bne rr => [0x26, rr]
  | .beq rr => [0x27, rr]
  | .bvc rr => [0x28, rr]
  | .bvs rr => [0x29, rr]
  | .bpl rr => [0x2A, rr]
  | .bmi rr => [0x2B, rr]
  | .bge rr => [0x2C, rr]
  | .blt rr => [0x2D, rr]
  | .bgt rr => [0x2E, rr]
  | .ble rr => [0x2F, rr]
  | .lbra rr => [0x16, hi rr, lo rr]
  | .lbrn rr => [prefix2, 0x21, hi rr, lo rr]
  | .lbhi rr => [prefix2, 0x22, hi rr, lo rr]
  | .lbls rr => [prefix2, 0x23, hi rr, lo rr]
  | .lbcc rr => [prefix2, 0x24, hi rr, lo rr]
  | .lbcs rr => [prefix2, 0x25, hi rr, lo rr]
  | .lbne rr => [prefix2, 0x26, hi rr, lo rr]
  | .lbeq rr => [prefix2, 0x27, hi rr, lo rr]
  | .lbvc rr => [prefix2, 0x28, hi rr, lo rr]
  | .lbvs rr => [prefix2, 0x29, hi rr, lo rr]
  | .lbpl rr => [prefix2, 0x2A, hi rr, lo rr]
  | .lbmi rr => [prefix2, 0x2B, hi rr, lo rr]
  | .lbge rr => [prefix2, 0x2C, hi rr, lo rr]
  | .lblt rr => [prefix2, 0x2D, hi rr, lo rr]
  | .lbgt rr => [prefix2, 0x2E, hi rr, lo rr]
  | .lble rr => [prefix2, 0x2F, hi rr, lo rr]
  | .bsr rr => [0x8D, rr]
  | .lbsr rr => [0x17, hi rr, lo rr]
  | .jmp m => encodeMem [] 0x0E 0x6E 0x7E m
  | .jsr m => encodeMem [] 0x9D 0xAD 0xBD m
  | .rts => [0x39]
  | .nop => [0x12]
  | .swi => [0x3F]
  | .swi2 => [prefix2, 0x3F]
  | .swi3 => [prefix3, 0x3F]
  | .rti => [0x3B]
  | .sync => [0x13]
  | .cwai ii => [0x3C, ii]
  | .andcc ii => [0x1C, ii]
  | .orcc ii => [0x1A, ii]

/-- The bytes of an instruction whose bits are `w`, numbered as spec/opcode_table.json numbers them: a page-2 or page-3
row's number has the prefix in bits 15..8 and the opcode in bits 7..0, and any other row's number has its one opcode byte
in bits 7..0; bytes after these count on upwards, and what lies above the `nbits` is zero (log 11). -/
def tableBytes (nbits w : Nat) : List Byte :=
  let byte (k : Nat) : Byte := BitVec.ofNat 8 ((w % 2 ^ nbits) / 2 ^ (8 * k))
  let paged :=
    (byte 1 = prefix2 && (lookupIn page2 (byte 0)).isSome) || (byte 1 = prefix3 && (lookupIn page3 (byte 0)).isSome)
  if paged then [byte 1, byte 0, byte 2, byte 3, byte 4] else [byte 0, byte 1, byte 2, byte 3, byte 4]

/-- The instruction the decoder reads from a word of the opcode table. -/
def decodeTableWord (nbits w : Nat) : Option Instr :=
  match decode (tableBytes nbits w) with
  | .ok i _ => some i
  | _ => none

end Sys2Proof
end

