-- ==== Sys2Proof/Machine/Transfer.lean ====
section
/-! DEFINITION. Meanings of TFR, EXG, PSHS, PSHU, PULS, PULU (spec/41_load_store_transfer.md R188–R193). -/

namespace Sys2Proof.Machine

/-- The fault of an ill-formed pair: instruction address, opcode, postbyte (60_exceptions.md R352). The decoder refuses such
a postbyte itself, so a step never reaches this (log 16). -/
def illegalPair (opcode : Byte) (r1 r2 : TfrReg) (st : State) : Result :=
  .fault (.illegalRegisterCode (getReg16 .pc st - 2#16) [opcode] (encodePair r1 r2))

/-- TFR (R188): `Reg(dst) <- Reg(src)`; PC reads as the next instruction's address. -/
def execTfr (r1 r2 : TfrReg) (st : State) : Result :=
  match r1, r2 with
  | .r16 p, .r16 q => .next (setReg16 q (getReg16 p st) st)
  | .r8 p, .r8 q => .next (setReg8 q (getReg8 p st) st)
  | .r16 _, .r8 _ => illegalPair 0x1F#8 r1 r2 st
  | .r8 _, .r16 _ => illegalPair 0x1F#8 r1 r2 st

/-- EXG (R189): both registers are read, then r1, then r2 written. -/
def execExg (r1 r2 : TfrReg) (st : State) : Result :=
  match r1, r2 with
  | .r16 p, .r16 q => .next (setReg16 q (getReg16 p st) (setReg16 p (getReg16 q st) st))
  | .r8 p, .r8 q => .next (setReg8 q (getReg8 p st) (setReg8 p (getReg8 q st) st))
  | .r16 _, .r8 _ => illegalPair 0x1E#8 r1 r2 st
  | .r8 _, .r16 _ => illegalPair 0x1E#8 r1 r2 st

/-- Does `f` where bit k of the list is set (30_encoding.md R119). -/
def ifListed (list : Byte) (k : Nat) (f : State → State) (st : State) : State :=
  if list.getLsbD k then f st else st

/-- A push of a register list, bit 7 down to bit 0 (R190); `other` is the stack pointer that is data here. -/
def pushList (sp : StackReg) (other : Reg16) (list : Byte) (st : State) : State :=
  ifListed list 0 (pushReg8 sp .cc) (ifListed list 1 (pushReg8 sp .a) (ifListed list 2 (pushReg8 sp .b)
    (ifListed list 3 (pushReg8 sp .dp) (ifListed list 4 (pushReg16 sp .x) (ifListed list 5 (pushReg16 sp .y)
      (ifListed list 6 (pushReg16 sp other) (ifListed list 7 (pushReg16 sp .pc) st)))))))

/-- A pull of a register list, bit 0 up to bit 7 (R192). -/
def pullList (sp : StackReg) (other : Reg16) (list : Byte) (st : State) : State :=
  ifListed list 7 (pullReg16 sp .pc) (ifListed list 6 (pullReg16 sp other) (ifListed list 5 (pullReg16 sp .y)
    (ifListed list 4 (pullReg16 sp .x) (ifListed list 3 (pullReg8 sp .dp) (ifListed list 2 (pullReg8 sp .b)
      (ifListed list 1 (pullReg8 sp .a) (ifListed list 0 (pullReg8 sp .cc) st)))))))

/-- PSHS (R190): push onto S; bit 6 is U. -/
def execPshs (list : Byte) (st : State) : Result := .next (pushList .s .u list st)

/-- PSHU (R191): push onto U; bit 6 is S. -/
def execPshu (list : Byte) (st : State) : Result := .next (pushList .u .s list st)

/-- PULS (R192): pull from S; bit 6 is U. -/
def execPuls (list : Byte) (st : State) : Result := .next (pullList .s .u list st)

/-- PULU (R193): pull from U; bit 6 is S. -/
def execPulu (list : Byte) (st : State) : Result := .next (pullList .u .s list st)

end Sys2Proof.Machine
end

