-- ==== Sys2Proof/Machine/Unary.lean ====
section
/-! DEFINITION. Meanings of the unary, shift and rotate instructions, memory, A and B forms (spec/43_unary_shift.md R240–R272). -/

namespace Sys2Proof.Machine

/-- NEG (R240): memory form. -/
def execNeg (m : Mem) (st : State) : Result := .next (modify negOp m st)

/-- NEGA (R241): on A. -/
def execNega (st : State) : Result := .next (unary negOp .a st)

/-- NEGB (R242): on B. -/
def execNegb (st : State) : Result := .next (unary negOp .b st)

/-- COM (R243): memory form. -/
def execCom (m : Mem) (st : State) : Result := .next (modify comOp m st)

/-- COMA (R244): on A. -/
def execComa (st : State) : Result := .next (unary comOp .a st)

/-- COMB (R245): on B. -/
def execComb (st : State) : Result := .next (unary comOp .b st)

/-- LSR (R246): memory form. -/
def execLsr (m : Mem) (st : State) : Result := .next (modify lsrOp m st)

/-- LSRA (R247): on A. -/
def execLsra (st : State) : Result := .next (unary lsrOp .a st)

/-- LSRB (R248): on B. -/
def execLsrb (st : State) : Result := .next (unary lsrOp .b st)

/-- ROR (R249): memory form. -/
def execRor (m : Mem) (st : State) : Result := .next (modify rorOp m st)

/-- RORA (R250): on A. -/
def execRora (st : State) : Result := .next (unary rorOp .a st)

/-- RORB (R251): on B. -/
def execRorb (st : State) : Result := .next (unary rorOp .b st)

/-- ASR (R252): memory form. -/
def execAsr (m : Mem) (st : State) : Result := .next (modify asrOp m st)

/-- ASRA (R253): on A. -/
def execAsra (st : State) : Result := .next (unary asrOp .a st)

/-- ASRB (R254): on B. -/
def execAsrb (st : State) : Result := .next (unary asrOp .b st)

/-- ASL (R255): memory form. -/
def execAsl (m : Mem) (st : State) : Result := .next (modify aslOp m st)

/-- ASLA (R256): on A. -/
def execAsla (st : State) : Result := .next (unary aslOp .a st)

/-- ASLB (R257): on B. -/
def execAslb (st : State) : Result := .next (unary aslOp .b st)

/-- ROL (R258): memory form. -/
def execRol (m : Mem) (st : State) : Result := .next (modify rolOp m st)

/-- ROLA (R259): on A. -/
def execRola (st : State) : Result := .next (unary rolOp .a st)

/-- ROLB (R260): on B. -/
def execRolb (st : State) : Result := .next (unary rolOp .b st)

/-- DEC (R261): memory form. -/
def execDec (m : Mem) (st : State) : Result := .next (modify decOp m st)

/-- DECA (R262): on A. -/
def execDeca (st : State) : Result := .next (unary decOp .a st)

/-- DECB (R263): on B. -/
def execDecb (st : State) : Result := .next (unary decOp .b st)

/-- INC (R264): memory form. -/
def execInc (m : Mem) (st : State) : Result := .next (modify incOp m st)

/-- INCA (R265): on A. -/
def execInca (st : State) : Result := .next (unary incOp .a st)

/-- INCB (R266): on B. -/
def execIncb (st : State) : Result := .next (unary incOp .b st)

/-- TST (R267): reads memory, writes no byte. -/
def execTst (m : Mem) (st : State) : Result := .next (alu8 false .a (fun _ v cc => tstOp v cc) (.mem m) st)

/-- TSTA (R268): on A. -/
def execTsta (st : State) : Result := .next (unary tstOp .a st)

/-- TSTB (R269): on B. -/
def execTstb (st : State) : Result := .next (unary tstOp .b st)

/-- A CLR that does not read: the named alternative `CLR_READS_MEMORY = false` (R270; log 15). -/
def clearMem (m : Mem) (st : State) : State :=
  let p := ea m st
  setCc (clrFlags (getReg8 .cc p.2)) (memWrite p.1 0x00#8 p.2)

/-- CLR (R270): with `CLR_READS_MEMORY` it is a read-modify-write. -/
def execClr (m : Mem) (st : State) : Result :=
  .next (if Params.clrReadsMemory then modify clrOp m st else clearMem m st)

/-- CLRA (R271): on A. -/
def execClra (st : State) : Result := .next (unary clrOp .a st)

/-- CLRB (R272): on B. -/
def execClrb (st : State) : Result := .next (unary clrOp .b st)

end Sys2Proof.Machine
end

