-- ==== Sys2Proof/Machine/Dispatch.lean ====
section
/-! DEFINITION. Dispatch: one arm per constructor of Instr, each one call of its meaning. PC is already past the instruction
(spec/10_state.md R35; log 13). -/

namespace Sys2Proof.Machine

def exec (i : Instr) (st : State) : Host.Outcome State Fault Refusal :=
  match i with
  | .lda m => Sys2Proof.Machine.execLda m st
  | .ldb m => Sys2Proof.Machine.execLdb m st
  | .ldd m => Sys2Proof.Machine.execLdd m st
  | .ldx m => Sys2Proof.Machine.execLdx m st
  | .ldy m => Sys2Proof.Machine.execLdy m st
  | .ldu m => Sys2Proof.Machine.execLdu m st
  | .lds m => Sys2Proof.Machine.execLds m st
  | .sta m => Sys2Proof.Machine.execSta m st
  | .stb m => Sys2Proof.Machine.execStb m st
  | .std m => Sys2Proof.Machine.execStd m st
  | .stx m => Sys2Proof.Machine.execStx m st
  | .sty m => Sys2Proof.Machine.execSty m st
  | .stu m => Sys2Proof.Machine.execStu m st
  | .sts m => Sys2Proof.Machine.execSts m st
  | .leax ix => Sys2Proof.Machine.execLeax ix st
  | .leay ix => Sys2Proof.Machine.execLeay ix st
  | .leas ix => Sys2Proof.Machine.execLeas ix st
  | .leau ix => Sys2Proof.Machine.execLeau ix st
  | .tfr r1 r2 => Sys2Proof.Machine.execTfr r1 r2 st
  | .exg r1 r2 => Sys2Proof.Machine.execExg r1 r2 st
  | .pshs list => Sys2Proof.Machine.execPshs list st
  | .pshu list => Sys2Proof.Machine.execPshu list st
  | .puls list => Sys2Proof.Machine.execPuls list st
  | .pulu list => Sys2Proof.Machine.execPulu list st
  | .adda m => Sys2Proof.Machine.execAdda m st
  | .addb m => Sys2Proof.Machine.execAddb m st
  | .adca m => Sys2Proof.Machine.execAdca m st
  | .adcb m => Sys2Proof.Machine.execAdcb m st
  | .addd m => Sys2Proof.Machine.execAddd m st
  | .suba m => Sys2Proof.Machine.execSuba m st
  | .subb m => Sys2Proof.Machine.execSubb m st
  | .sbca m => Sys2Proof.Machine.execSbca m st
  | .sbcb m => Sys2Proof.Machine.execSbcb m st
  | .subd m => Sys2Proof.Machine.execSubd m st
  | .cmpa m => Sys2Proof.Machine.execCmpa m st
  | .cmpb m => Sys2Proof.Machine.execCmpb m st
  | .cmpd m => Sys2Proof.Machine.execCmpd m st
  | .cmpx m => Sys2Proof.Machine.execCmpx m st
  | .cmpy m => Sys2Proof.Machine.execCmpy m st
  | .cmpu m => Sys2Proof.Machine.execCmpu m st
  | .cmps m => Sys2Proof.Machine.execCmps m st
  | .anda m => Sys2Proof.Machine.execAnda m st
  | .andb m => Sys2Proof.Machine.execAndb m st
  | .ora m => Sys2Proof.Machine.execOra m st
  | .orb m => Sys2Proof.Machine.execOrb m st
  | .eora m => Sys2Proof.Machine.execEora m st
  | .eorb m => Sys2Proof.Machine.execEorb m st
  | .bita m => Sys2Proof.Machine.execBita m st
  | .bitb m => Sys2Proof.Machine.execBitb m st
  | .mul => Sys2Proof.Machine.execMul st
  | .daa => Sys2Proof.Machine.execDaa st
  | .sex => Sys2Proof.Machine.execSex st
  | .abx => Sys2Proof.Machine.execAbx st
  | .neg m => Sys2Proof.Machine.execNeg m st
  | .nega => Sys2Proof.Machine.execNega st
  | .negb => Sys2Proof.Machine.execNegb st
  | .com m => Sys2Proof.Machine.execCom m st
  | .coma => Sys2Proof.Machine.execComa st
  | .comb => Sys2Proof.Machine.execComb st
  | .lsr m => Sys2Proof.Machine.execLsr m st
  | .lsra => Sys2Proof.Machine.execLsra st
  | .lsrb => Sys2Proof.Machine.execLsrb st
  | .ror m => Sys2Proof.Machine.execRor m st
  | .rora => Sys2Proof.Machine.execRora st
  | .rorb => Sys2Proof.Machine.execRorb st
  | .asr m => Sys2Proof.Machine.execAsr m st
  | .asra => Sys2Proof.Machine.execAsra st
  | .asrb => Sys2Proof.Machine.execAsrb st
  | .asl m => Sys2Proof.Machine.execAsl m st
  | .asla => Sys2Proof.Machine.execAsla st
  | .aslb => Sys2Proof.Machine.execAslb st
  | .rol m => Sys2Proof.Machine.execRol m st
  | .rola => Sys2Proof.Machine.execRola st
  | .rolb => Sys2Proof.Machine.execRolb st
  | .dec m => Sys2Proof.Machine.execDec m st
  | .deca => Sys2Proof.Machine.execDeca st
  | .decb => Sys2Proof.Machine.execDecb st
  | .inc m => Sys2Proof.Machine.execInc m st
  | .inca => Sys2Proof.Machine.execInca st
  | .incb => Sys2Proof.Machine.execIncb st
  | .tst m => Sys2Proof.Machine.execTst m st
  | .tsta => Sys2Proof.Machine.execTsta st
  | .tstb => Sys2Proof.Machine.execTstb st
  | .clr m => Sys2Proof.Machine.execClr m st
  | .clra => Sys2Proof.Machine.execClra st
  | .clrb => Sys2Proof.Machine.execClrb st
  | .bra rr => Sys2Proof.Machine.execBra rr st
  | .brn rr => Sys2Proof.Machine.execBrn rr st
  | .bhi rr => Sys2Proof.Machine.execBhi rr st
  | .bls rr => Sys2Proof.Machine.execBls rr st
  | .bcc rr => Sys2Proof.Machine.execBcc rr st
  | .bcs rr => Sys2Proof.Machine.execBcs rr st
  | .bne rr => Sys2Proof.Machine.execBne rr st
  | .beq rr => Sys2Proof.Machine.execBeq rr st
  | .bvc rr => Sys2Proof.Machine.execBvc rr st
  | .bvs rr => Sys2Proof.Machine.execBvs rr st
  | .bpl rr => Sys2Proof.Machine.execBpl rr st
  | .bmi rr => Sys2Proof.Machine.execBmi rr st
  | .bge rr => Sys2Proof.Machine.execBge rr st
  | .blt rr => Sys2Proof.Machine.execBlt rr st
  | .bgt rr => Sys2Proof.Machine.execBgt rr st
  | .ble rr => Sys2Proof.Machine.execBle rr st
  | .lbra rr => Sys2Proof.Machine.execLbra rr st
  | .lbrn rr => Sys2Proof.Machine.execLbrn rr st
  | .lbhi rr => Sys2Proof.Machine.execLbhi rr st
  | .lbls rr => Sys2Proof.Machine.execLbls rr st
  | .lbcc rr => Sys2Proof.Machine.execLbcc rr st
  | .lbcs rr => Sys2Proof.Machine.execLbcs rr st
  | .lbne rr => Sys2Proof.Machine.execLbne rr st
  | .lbeq rr => Sys2Proof.Machine.execLbeq rr st
  | .lbvc rr => Sys2Proof.Machine.execLbvc rr st
  | .lbvs rr => Sys2Proof.Machine.execLbvs rr st
  | .lbpl rr => Sys2Proof.Machine.execLbpl rr st
  | .lbmi rr => Sys2Proof.Machine.execLbmi rr st
  | .lbge rr => Sys2Proof.Machine.execLbge rr st
  | .lblt rr => Sys2Proof.Machine.execLblt rr st
  | .lbgt rr => Sys2Proof.Machine.execLbgt rr st
  | .lble rr => Sys2Proof.Machine.execLble rr st
  | .bsr rr => Sys2Proof.Machine.execBsr rr st
  | .lbsr rr => Sys2Proof.Machine.execLbsr rr st
  | .jmp m => Sys2Proof.Machine.execJmp m st
  | .jsr m => Sys2Proof.Machine.execJsr m st
  | .rts => Sys2Proof.Machine.execRts st
  | .nop => Sys2Proof.Machine.execNop st
  | .swi => Sys2Proof.Machine.execSwi st
  | .swi2 => Sys2Proof.Machine.execSwi2 st
  | .swi3 => Sys2Proof.Machine.execSwi3 st
  | .rti => Sys2Proof.Machine.execRti st
  | .sync => Sys2Proof.Machine.execSync st
  | .cwai ii => Sys2Proof.Machine.execCwai ii st
  | .andcc ii => Sys2Proof.Machine.execAndcc ii st
  | .orcc ii => Sys2Proof.Machine.execOrcc ii st

end Sys2Proof.Machine
end

