-- ==== Sys2Proof/Machine/Fetch.lean ====
section
/-! DEFINITION. Fetching an instruction: bytes are read at PC through the data path, one at a time, until the decoder has an
instruction or a fatal encoding (spec/30_encoding.md R110, R129; spec/20_memory.md R89). -/

namespace Sys2Proof.Machine

/-- What a fetch ends in. In both cases the bytes read have been read and PC is past them (60_exceptions.md R351). -/
inductive Fetched where
  | ok (i : Instr) (st : State)
  | bad (f : Fault) (st : State)
  deriving DecidableEq, Repr

/-- Reads at most `fuel` further bytes; `bs` are the bytes of this instruction already read, `address` that of its first. No
instruction is longer than five bytes (R110), so fuel 5 never runs out (log 18). -/
def fetchFrom (address : Word) (fuel : Nat) (bs : List Byte) (st : State) : Fetched :=
  match fuel with
  | 0 => .bad (.undefinedOpcode address bs) st
  | n + 1 =>
    let r := fetch8 st
    match decode (bs ++ [r.1]) with
    | .ok i _ => .ok i r.2
    | .undefinedOpcode => .bad (.undefinedOpcode address (bs ++ [r.1])) r.2
    | .illegalPostbyte pb => .bad (.illegalPostbyte address bs pb) r.2
    | .illegalRegisterCode pb => .bad (.illegalRegisterCode address bs pb) r.2
    | .more => fetchFrom address n (bs ++ [r.1]) r.2

/-- Fetches the instruction at PC. -/
def fetchInstr (st : State) : Fetched := fetchFrom (getReg16 .pc st) 5 [] st

/-! ### Placing an instruction, for the host's questions -/

/-- Stores a byte in whatever backs an address (20_memory.md R73): RAM, the selected page, or the system ROM. This is the
loader's view, not a CPU write. -/
def placeByte (a : Word) (v : Byte) (st : State) : State :=
  if a.toNat < Params.bankBase then { st with board.ram := st.board.ram.write a.toNat v }
  else if a.toNat < Params.fixedBase then
    let o := a.toNat - Params.bankBase
    if st.board.romBank = 62#8 then { st with board.systemRom := st.board.systemRom.write o v }
    else if st.board.romBank = 63#8 then
      { st with board.systemRom := st.board.systemRom.write (Params.pageSize + o) v }
    else
      { st with board.gameRom := st.board.gameRom.write (st.board.romBank.toNat * Params.pageSize + o) v }
  else { st with board.systemRom := st.board.systemRom.write (a.toNat - Params.fixedBase) v }

/-- Stores bytes at consecutive addresses. -/
def placeBytes (a : Word) (bs : List Byte) (st : State) : State :=
  match bs with
  | [] => st
  | v :: rest => placeBytes (a + 1#16) rest (placeByte a v st)

/-- Some of the five bytes from `a` on lies in the I/O window, where a stored byte is not what a fetch reads. -/
def touchesIo (a : Word) : Bool :=
  isIo a || isIo (a + 1#16) || isIo (a + 2#16) || isIo (a + 3#16) || isIo (a + 4#16)

/-- A PC from which five stored bytes can be fetched: the PC itself, or 0x0000 where it is too close to the I/O window
(log 25). -/
def fetchHome (st : State) : Word := if touchesIo (getReg16 .pc st) then 0x0000#16 else getReg16 .pc st

end Sys2Proof.Machine
end

