-- ==== Sys2Proof/Machine/Interrupt.lean ====
section
/-! DEFINITION. The interrupt controller (spec/60_exceptions.md R358–R369): requests, the boundary check, entry. -/

namespace Sys2Proof.Machine

/-- `irq()` where `b` holds, nothing where it does not: the latch is set, and the call is counted as missed while I is 1
(R360). -/
def requestIrqIf (b : Bool) (st : State) : State :=
  { st with
    latches.irqPending := st.latches.irqPending || b
    counters.missedIrqCount :=
      if b && getFlag (getReg8 .cc st) .i then st.counters.missedIrqCount + 1 else st.counters.missedIrqCount }

/-- `irq()` (R360). -/
def requestIrq (st : State) : State := requestIrqIf true st

/-- `firq()` (R360). -/
def requestFirq (st : State) : State := { st with latches.firqPending := true }

/-- `nmi()` (R360). -/
def requestNmi (st : State) : State := { st with latches.nmiPending := true }

/-- `select()`: NMI, then FIRQ unless F, then IRQ unless I (R361). -/
def select (st : State) : Option IntClass :=
  if st.latches.nmiPending then some .nmi
  else if !getFlag (getReg8 .cc st) .f && st.latches.firqPending then some .firq
  else if !getFlag (getReg8 .cc st) .i && st.latches.irqPending then some .irq
  else none

/-- Some latch is set (45_system.md R334). -/
def anyPending (st : State) : Bool :=
  st.latches.nmiPending || st.latches.firqPending || st.latches.irqPending

/-- What an entry stacks: nothing after CWAI, else the class's frame (R366). -/
def entryFrame (st : State) (frame : Frame) : Frame :=
  match st.latches.wait with
  | .cwai => .stacked
  | .none => frame
  | .sync => frame

/-- IRQ entry (R362): entire frame, I set, F unchanged, vector 0xFFF8. -/
def enterIrq (st : State) : State :=
  let st1 := takeException (entryFrame st .entire) false true 0xFFF8#16 st
  { st1 with
    counters.irqCount := st1.counters.irqCount + 1
    latches.irqPending := if Params.irqLatchClearOnService then false else st1.latches.irqPending
    latches.wait := .none }

/-- FIRQ entry (R363): fast frame, F and I set, vector 0xFFF6. -/
def enterFirq (st : State) : State :=
  let st1 := takeException (entryFrame st .fast) true true 0xFFF6#16 st
  { st1 with
    counters.firqCount := st1.counters.firqCount + 1
    latches.firqPending := if Params.irqLatchClearOnService then false else st1.latches.firqPending
    latches.wait := .none }

/-- NMI entry (R364): entire frame, F and I set, vector 0xFFFC, the latch cleared. -/
def enterNmi (st : State) : State :=
  let st1 := takeException (entryFrame st .entire) true true 0xFFFC#16 st
  { st1 with
    counters.nmiCount := st1.counters.nmiCount + 1
    latches.nmiPending := false
    latches.wait := .none }

/-- Entry of a class (R362–R364). -/
def enter (c : IntClass) (st : State) : State :=
  match c with
  | .nmi => enterNmi st
  | .firq => enterFirq st
  | .irq => enterIrq st

end Sys2Proof.Machine
end

