-- ==== Sys2Proof/Machine/Cpu.lean ====
section
/-! DEFINITION. One CPU step (spec/60_exceptions.md R394) and the CPU's `executeCycle` (R393). -/

namespace Sys2Proof.Machine

/-- The outcomes of a CPU step (00_scope.md R16), each with the state it leaves. -/
inductive CpuOutcome where
  | next (st : State) (ticks : Nat)
  | wait (st : State) (ticks : Nat)
  | fault (f : Fault) (st : State)
  | refused (r : Refusal)
  deriving DecidableEq, Repr

/-- `tickCount += t` (R394). -/
def countTicks (t : Nat) (st : State) : State :=
  { st with counters.tickCount := st.counters.tickCount + t }

/-- `fault <- some f` (R350). -/
def setFault (f : Fault) (st : State) : State := { st with fault := some f }

/-- The CPU stays waiting at this boundary: SYNC with no latch set, CWAI with no class selected (R394). -/
def staysWaiting (st : State) : Bool :=
  match st.latches.wait with
  | .none => false
  | .sync => !anyPending st
  | .cwai => (select st).isNone

/-- SYNC's wait ends (45_system.md R334). -/
def wake (st : State) : State :=
  match st.latches.wait with
  | .sync => { st with latches.wait := .none }
  | .none => st
  | .cwai => st

/-- The instructions after which the step is a waiting one (R394). -/
def startsWait (i : Instr) : Bool :=
  match i with
  | .sync => true
  | .cwai _ => true
  | _ => false

/-- Decodes at PC and executes; `t` are the ticks spent before (R394, R368). -/
def runInstr (t : Nat) (st : State) : CpuOutcome :=
  match fetchInstr st with
  | .bad f st1 => .fault f (setFault f st1)
  | .ok i st1 =>
    match exec i st1 with
    | .fault f => .fault f (setFault f st1)
    | .refused r => .refused r
    | .next st2 =>
      let ticks := t + Params.cycles i
      if startsWait i then .wait (countTicks ticks st2) ticks else .next (countTicks ticks st2) ticks

/-- `step()` (R394). -/
def cpuStep (st : State) : CpuOutcome :=
  match st.fault with
  | some f => .fault f st
  | none =>
    if staysWaiting st then .wait (countTicks Params.waitTicks st) Params.waitTicks
    else
      match select st with
      | none => runInstr 0 (wake st)
      | some c => runInstr (Params.intEntryTicks c) (enter c (wake st))

/-- How an `executeCycle` call ends: the ticks used, or a fault. -/
inductive CycleResult where
  | done (used : Nat) (st : State)
  | fault (f : Fault) (st : State)
  | refused (r : Refusal)
  deriving DecidableEq, Repr

/-- The loop of a driving call: `used` ticks are spent, each pass spends at least one, so `fuel = budget` is enough. `after`
is what the caller does with the ticks of a pass (R393, R395; log 22). -/
def driveFrom (after : Nat → State → State) (budget fuel used : Nat) (st : State) : CycleResult :=
  match fuel with
  | 0 => .done used st
  | n + 1 =>
    if used < budget then
      match cpuStep st with
      | .next st1 t => driveFrom after budget n (used + t) (after t st1)
      | .wait st1 t => driveFrom after budget n (used + t) (after t st1)
      | .fault f st1 => .fault f st1
      | .refused r => .refused r
    else .done used st

/-- A driving call: on a dead session the recorded fault, whatever the budget, and no state changes (R350); else the loop from
no ticks used. -/
def drive (after : Nat → State → State) (budget : Nat) (st : State) : CycleResult :=
  match st.fault with
  | some f => .fault f st
  | none => driveFrom after budget budget 0 st

/-- The CPU's `executeCycle(budget)` (R393). -/
def cpuExecuteCycle (budget : Nat) (st : State) : CycleResult := drive (fun _ s => s) budget st

end Sys2Proof.Machine
end

