-- ==== Sys2Proof/Machine/BoardLoop.lean ====
section
/-! DEFINITION. The board's per-step accounting and driving loop (spec/60_exceptions.md R390–R395). -/

namespace Sys2Proof.Machine

/-- `AsicExecuteCycle(t)` (R390): the threshold is subtracted at most once. -/
def asicExecuteCycle (t : Nat) (st : State) : State :=
  let n := st.board.zcAccum + t
  { st with
    board.zcFlag := st.board.zcFlag || decide (Params.ticksPerZeroCross ≤ n)
    board.zcAccum := if Params.ticksPerZeroCross ≤ n then n - Params.ticksPerZeroCross else n }

/-- `PeriodicIrq(t)` (R391). -/
def periodicIrq (t : Nat) (st : State) : State :=
  let n := st.board.irqAccum + t
  requestIrqIf (st.board.periodicIrqEnabled && decide (Params.irqPeriodTicks ≤ n))
    { st with board.irqAccum := if Params.irqPeriodTicks ≤ n then n - Params.irqPeriodTicks else n }

/-- What the board does with the ticks of one CPU step: the ASIC, then the periodic IRQ source (R395). The matrices' share
changes nothing (R392). -/
def boardTicks (t : Nat) (st : State) : State := periodicIrq t (asicExecuteCycle t st)

/-- One pass of the board's driving loop (R395). A waiting step is a next state that still waits; after a fault the host's
`Outcome` has no state, and `cpuStep` still says it (log 7, log 8). -/
def boardStep (st : State) : Result :=
  match cpuStep st with
  | .next st1 t => .next (boardTicks t st1)
  | .wait st1 t => .next (boardTicks t st1)
  | .fault f _ => .fault f
  | .refused r => .refused r

/-- The board's `executeCycle(tickBudget)` (R395). -/
def boardExecuteCycle (budget : Nat) (st : State) : CycleResult := drive boardTicks budget st

end Sys2Proof.Machine
end

