-- ==== Sys2Proof/Machine/Step.lean ====
section
/-! DEFINITION. The machine's step, and the placing of an instruction where the step fetches it. -/

namespace Sys2Proof.Machine

/-- One step of the machine: one pass of the board's driving loop (spec/60_exceptions.md R394, R395; log 7). -/
def step (st : State) : Host.Outcome State Fault Refusal := boardStep st

/-- Nothing keeps the next step from fetching at PC: no fault, no wait, and no class that would be serviced first. -/
def State.readyToFetch (st : State) : State :=
  match select st with
  | none => { st with fault := none, latches.wait := .none }
  | some _ => { st with fault := none, latches := .afterReset }

/-- `st` with the instruction of an opcode-table word stored where `step` fetches next (log 10, log 25). -/
def State.withFetchWord (st : State) (nbits w : Nat) : State :=
  let st1 := st.readyToFetch
  placeBytes (fetchHome st1) (tableBytes nbits w) (setPc (fetchHome st1) st1)

end Sys2Proof.Machine
end

