-- ==== Sys2Proof/Machine/Sound.lean ====
section
/-! DEFINITION. The sound board's address decoder (spec/20_memory.md R92–R97): a pure function of an address that need not
fit in 16 bits. -/

namespace Sys2Proof.Machine

/-- The subsystems an address resolves to (R92). -/
inductive Subsystem where
  | ram | hardware | bankswitched | rom
  deriving DecidableEq, Repr

/-- The decoder's answer: an offset in a subsystem, or the fatal fault (R97). -/
inductive SoundTarget where
  | target (offset : Nat) (subsystem : Subsystem)
  | fatal (f : Fault)
  deriving DecidableEq, Repr

/-- `resolve(address)`: the segments in increasing order (R93–R97). -/
def resolveSound (address : Nat) : SoundTarget :=
  if address < 0x2000 then .target address .ram
  else if address < 0x4000 then
    if 0x2400 ≤ address ∧ address < 0x2800 then
      if address % 2 = 0 then .target 0x2400 .hardware else .target 0x2401 .hardware
    else .target address .hardware
  else if address < 0xC000 then .target (address - 0x4000) .bankswitched
  else if address < 0x10000 then .target (address - 0xC000) .rom
  else .fatal (.soundDecodeOutOfRange address)

end Sys2Proof.Machine
end

