-- ==== Sys2Proof/Machine/HostInterface.lean ====
section
/-! DEFINITION. The host interface: bring-up (spec/70_reset_and_hazards.md R422), `reset()` (R420), the inputs a host gives
between `executeCycle` calls (spec/60_exceptions.md R396) and the UI snapshot (R405). `step` takes none of them (log 9). -/

namespace Sys2Proof.Machine

/-- `reset()` (R420): latches, wait and registers; nothing else changes (10_state.md R63). -/
def resetCpu (st : State) : State :=
  { st with regs := .afterReset (memRead16 0xFFFE#16 st).1, latches := .afterReset }

/-- The column and row of a switch id `10·(c+1) + (r+1)` (R396). -/
def switchAt (id : Nat) : Option (Fin 8 × Fin 8) :=
  if h : 1 ≤ id / 10 ∧ id / 10 ≤ 8 ∧ 1 ≤ id % 10 ∧ id % 10 ≤ 8 then
    some (⟨id / 10 - 1, by omega⟩, ⟨id % 10 - 1, by omega⟩)
  else none

/-- The switch matrix with one switch set (R57). -/
def putSwitch (sw : Vector (Vector Bool 8) 8) (c r : Fin 8) (closed : Bool) : Vector (Vector Bool 8) 8 :=
  sw.set c.val (sw[c.val].set r.val closed)

/-- `setSwitch(id, closed)`; an id outside the numbering changes nothing (R396). -/
def setSwitch (id : Nat) (closed : Bool) (st : State) : State :=
  match switchAt id with
  | some (c, r) => { st with board.switches := putSwitch st.board.switches c r closed }
  | none => st

/-- `setInput(id)` toggles a switch (R396). -/
def toggleSwitch (id : Nat) (st : State) : State :=
  match switchAt id with
  | some (c, r) =>
    { st with board.switches := putSwitch st.board.switches c r (!st.board.switches[c.val][r.val]) }
  | none => st

/-- The host's calls (R396, R360, R420). -/
inductive HostInput where
  | setCabinetInput (byte : Byte)
  | setSwitch (id : Nat) (closed : Bool)
  | setInput (id : Nat)
  | irq
  | firq
  | nmi
  | raiseFirq (fromDmd : Bool)
  | reset
  deriving DecidableEq, Repr

/-- The effect of a host call, at an instruction boundary (R396). -/
def hostInput (input : HostInput) (st : State) : State :=
  match input with
  | .setCabinetInput byte => { st with board.cabinet := byte }
  | .setSwitch id closed => setSwitch id closed st
  | .setInput id => toggleSwitch id st
  | .irq => requestIrq st
  | .firq => requestFirq st
  | .nmi => requestNmi st
  | .raiseFirq fromDmd => requestFirq { st with board.firqSourceDmd := fromDmd }
  | .reset => resetCpu st

/-- What the caller supplies at bring-up (R422, 00_scope.md R11). -/
structure BringUp where
  systemRom : Option (List Byte)
  gameRom : Option (List Byte)
  /-- The ROM size class, as its number of pages. -/
  pages : Nat
  ram : Option (List Byte)
  hasClearIrqFlag : Bool
  hasClearFirqFlag : Bool
  deriving DecidableEq, Repr

/-- The size classes bring-up accepts (R422). -/
def romSizeOf (pages : Nat) : Option RomSize :=
  match pages with
  | 8 => some .pages8
  | 16 => some .pages16
  | 32 => some .pages32
  | 64 => some .pages64
  | _ => none

/-- The length of the RAM buffer the board uses (10_state.md R50). -/
def ramLength : Nat := 0x4000

/-- The length of the system ROM (R422). -/
def systemRomLength : Nat := 0x8000

/-- The checks of the buffers' sizes (R422), then the session (log 19). -/
def bringUpSized (systemRom gameRom ram : List Byte) (pages : Nat) : Result :=
  if systemRom.length ≠ systemRomLength then .fault (.configRejected .systemRomSize)
  else
    match romSizeOf pages with
    | none => .fault (.configRejected .romSizeClass)
    | some size =>
      if gameRom.length ≠ size.pageCount * Params.pageSize then .fault (.configRejected .gameRomSize)
      else if ram.length < ramLength then .fault (.configRejected .ramTooShort)
      else
        .next (.start (.ofBytes (ram.take ramLength)) (.ofBytes systemRom) (.ofBytes gameRom) size)

/-- Session bring-up (R422): a missing or wrong input is rejected before any cycle; else the session starts and `reset()` has
run once. -/
def bringUp (cfg : BringUp) : Result :=
  match cfg.systemRom, cfg.gameRom, cfg.ram with
  | none, _, _ => .fault (.configRejected .missingSystemRom)
  | some _, none, _ => .fault (.configRejected .missingGameRom)
  | some _, some _, none => .fault (.configRejected .missingRam)
  | some systemRom, some gameRom, some ram =>
    if !cfg.hasClearIrqFlag then .fault (.configRejected .missingClearIrqFlag)
    else if !cfg.hasClearFirqFlag then .fault (.configRejected .missingClearFirqFlag)
    else bringUpSized systemRom gameRom ram cfg.pages

/-- The letter of a flag, upper case if set (R405). -/
def flagLetter (upper lower : Char) (b : Bool) : Char := if b then upper else lower

/-- The flag string of CC, `E F H I N Z V C` (R405). -/
def flagString (cc : Byte) : List Char :=
  [flagLetter 'E' 'e' (getFlag cc .e), flagLetter 'F' 'f' (getFlag cc .f), flagLetter 'H' 'h' (getFlag cc .h),
   flagLetter 'I' 'i' (getFlag cc .i), flagLetter 'N' 'n' (getFlag cc .n), flagLetter 'Z' 'z' (getFlag cc .z),
   flagLetter 'V' 'v' (getFlag cc .v), flagLetter 'C' 'c' (getFlag cc .c)]

/-- The UI snapshot (R405). -/
structure UiState where
  regs : Regs
  flags : List Char
  romBank : Byte
  lamps : Vector Byte 64
  sol : Vector Byte 4
  switches : Vector (Vector Bool 8) 8
  cabinet : Byte
  gi : Byte
  ledToggleCount : Nat
  periodicIrqEnabled : Bool
  counters : Counters
  violationCount : Nat
  fault : Option Fault
  deriving DecidableEq, Repr

/-- `getUiState()`: no state changes and no ASIC read is made (R405). -/
def getUiState (st : State) : UiState where
  regs := st.regs
  flags := flagString (getReg8 .cc st)
  romBank := st.board.romBank
  lamps := st.board.lamps
  sol := st.board.sol
  switches := st.board.switches
  cabinet := st.board.cabinet
  gi := st.board.gi
  ledToggleCount := st.board.ledToggleCount
  periodicIrqEnabled := st.board.periodicIrqEnabled
  counters := st.counters
  violationCount := st.board.violationCount
  fault := st.fault

end Sys2Proof.Machine
end

