-- ==== Sys2Proof/Safety.lean ====
section
/-! DEFINITION. What a good state is, and the terms the statements are written in: flag updates, what an operand access may
change, what a store may change, byte images, opcode bytes and the shapes shared by instructions of one kind. -/

namespace Sys2Proof.Machine

/-! ### Good states -/

/-- A memory in canonical form that lists only offsets below `n`. -/
def Memory.Ok (m : Memory) (n : Nat) : Prop := m.wf = true ∧ m.below n = true

/-- The legal values of the bank selector (10_state.md R52): a page number, or 62 or 63. -/
def Board.BankLegal (bd : Board) : Prop :=
  bd.romBank.toNat < bd.romSize.pageCount ∨ bd.romBank = 62#8 ∨ bd.romBank = 63#8

/-- A lamp is off or lit (10_state.md R54). -/
def Board.LampsLegal (bd : Board) : Prop := ∀ k : Fin 64, bd.lamps[k] = 0#8 ∨ bd.lamps[k] = Params.lampLit

/-- The invariant: every memory has its canonical form and size, the bank is a legal one, every lamp is off or lit, and no
violation is counted while protection was never enabled. -/
structure State.Inv (st : State) : Prop where
  ram : st.board.ram.Ok 0x4000
  systemRom : st.board.systemRom.Ok 0x8000
  gameRom : st.board.gameRom.Ok (st.board.romSize.pageCount * Params.pageSize)
  bank : st.board.BankLegal
  lamps : st.board.LampsLegal
  violations : st.board.protMask = none → st.board.violationCount = 0

/-- The next step fetches and runs an instruction, with no interrupt entry before it. -/
def State.Runnable (st : State) : Prop := st.fault = none ∧ st.latches.wait = .none ∧ select st = none

/-- The bytes `bs` stand at `a` and a fetch of them has no side effect: none lies in the I/O window. -/
def State.CodeAt (st : State) (a : Word) (bs : List Byte) : Prop :=
  ∀ k, k < bs.length → isIo (a + BitVec.ofNat 16 k) = false ∧ peek st (a + BitVec.ofNat 16 k) = bs.getD k 0#8

/-- RAM below the I/O window, not write-protected. -/
def State.PlainRam (st : State) (a : Word) : Prop := a.toNat < Params.ioBase ∧ protectedWrite st.board a = false

/-- The `n` bytes from `a` on are plain RAM. -/
def State.PlainBytes (st : State) (a : Word) (n : Nat) : Prop := ∀ k, k < n → st.PlainRam (a + BitVec.ofNat 16 k)

/-- None of the `n` bytes from `a` on is in the I/O window. -/
def NoIo (a : Word) (n : Nat) : Prop := ∀ k, k < n → isIo (a + BitVec.ofNat 16 k) = false

/-! ### Flags -/

/-- What an instruction writes of CC: `none` is "unchanged". -/
abbrev FlagUpdate := Flag → Option Bool

/-- CC becomes `cc'`: the flags of `upd` are written, every other flag keeps its value (00_scope.md R17). -/
def FlagsBecome (upd : FlagUpdate) (cc cc' : Byte) : Prop := ∀ fl, getFlag cc' fl = (upd fl).getD (getFlag cc fl)

/-- The update of an arithmetic or logic instruction, which never writes E, F or I. -/
def flagUpdate (h n z v c : Option Bool) : FlagUpdate
  | .h => h
  | .n => n
  | .z => z
  | .v => v
  | .c => c
  | .e => none
  | .f => none
  | .i => none

/-- N and Z of a byte result (R17), V and C as given, H unchanged. -/
def nzvc8 (r : Byte) (v c : Option Bool) : FlagUpdate :=
  flagUpdate none (some (r.getLsbD 7)) (some (decide (r.toNat = 0))) v c

/-- N and Z of a word result (R17), V and C as given, H unchanged. -/
def nzvc16 (r : Word) (v c : Option Bool) : FlagUpdate :=
  flagUpdate none (some (r.getLsbD 15)) (some (decide (r.toNat = 0))) v c

/-- The update of an exception entry: E, F, I alone. -/
def entryUpdate (e f i : Option Bool) : FlagUpdate
  | .e => e
  | .f => f
  | .i => i
  | .h => none
  | .n => none
  | .z => none
  | .v => none
  | .c => none

/-- `add8` as 40_addressing.md R156 states it. -/
def Add8Rule (a m : Byte) (cin : Bool) (cc r cc' : Byte) : Prop :=
  r.toNat = (a.toNat + m.toNat + cin.toNat) % 256 ∧
  FlagsBecome (flagUpdate
    (some (decide ((a &&& 0x0F#8).toNat + (m &&& 0x0F#8).toNat + cin.toNat > 0x0F)))
    (some (r.getLsbD 7))
    (some (decide (r.toNat = 0)))
    (some (decide (a.getLsbD 7 = m.getLsbD 7 ∧ r.getLsbD 7 ≠ a.getLsbD 7)))
    (some (decide (a.toNat + m.toNat + cin.toNat > 0xFF)))) cc cc'

/-- `sub8` as R157 states it. -/
def Sub8Rule (a m : Byte) (cin : Bool) (cc r cc' : Byte) : Prop :=
  (r.toNat : Int) = ((a.toNat : Int) - m.toNat - cin.toNat) % 256 ∧
  FlagsBecome (nzvc8 r
    (some (decide (a.getLsbD 7 ≠ m.getLsbD 7 ∧ r.getLsbD 7 ≠ a.getLsbD 7)))
    (some (decide ((a.toNat : Int) - m.toNat - cin.toNat < 0)))) cc cc'

/-- `add16` as R158 states it. -/
def Add16Rule (a m : Word) (cc : Byte) (r : Word) (cc' : Byte) : Prop :=
  r.toNat = (a.toNat + m.toNat) % 65536 ∧
  FlagsBecome (nzvc16 r
    (some (decide (a.getLsbD 15 = m.getLsbD 15 ∧ r.getLsbD 15 ≠ a.getLsbD 15)))
    (some (decide (a.toNat + m.toNat > 0xFFFF)))) cc cc'

/-- `sub16` as R159 states it. -/
def Sub16Rule (a m : Word) (cc : Byte) (r : Word) (cc' : Byte) : Prop :=
  (r.toNat : Int) = ((a.toNat : Int) - m.toNat) % 65536 ∧
  FlagsBecome (nzvc16 r
    (some (decide (a.getLsbD 15 ≠ m.getLsbD 15 ∧ r.getLsbD 15 ≠ a.getLsbD 15)))
    (some (decide ((a.toNat : Int) - m.toNat < 0)))) cc cc'

/-- A result `r` with `nz8(r); CC.V <- 0`, C and H unchanged. -/
def LogicRule (result : Byte) (cc r cc' : Byte) : Prop :=
  r = result ∧ FlagsBecome (nzvc8 r (some false) none) cc cc'

/-- A word load: the operand `m` with `nz16(m); CC.V <- 0`. -/
def LoadWordRule (m : Word) (cc : Byte) (r : Word) (cc' : Byte) : Prop :=
  r = m ∧ FlagsBecome (nzvc16 m (some false) none) cc cc'

/-- A bitwise operation `f`, with `nz8(r); CC.V <- 0`, C and H unchanged. -/
def BitwiseRule (f : Bool → Bool → Bool) (a m cc r cc' : Byte) : Prop :=
  (∀ k, k < 8 → r.getLsbD k = f (a.getLsbD k) (m.getLsbD k)) ∧ FlagsBecome (nzvc8 r (some false) none) cc cc'

/-- Both nibbles are decimal digits. -/
def IsDecimal (v : Byte) : Prop := v.toNat % 16 ≤ 9 ∧ v.toNat / 16 ≤ 9

/-- The number two packed decimal digits stand for. -/
def decimalValue (v : Byte) : Nat := 10 * (v.toNat / 16) + v.toNat % 16

/-! ### What an operand access may change -/

/-- `t` is `st` but for what reading an I/O register may change: the zero-cross flag and the draws of the host clock
(20_memory.md R83). -/
def SameButReads (st t : State) : Prop :=
  t = { st with board.zcFlag := t.board.zcFlag, board.rtcDraws := t.board.rtcDraws }

/-- Adds `n` to a base register. -/
def bump (r : IdxReg) (n : Word) (st : State) : State :=
  setReg16 (idxReg16 r) (getReg16 (idxReg16 r) st + n) st

/-- The register update of an addressing mode (40_addressing.md R145, R146): its base register moves by 1 or 2; every other
mode changes no register. -/
def autoStep (m : Mem) (st : State) : State :=
  match m with
  | .idx (.inc1 r) => bump r 1#16 st
  | .idx (.inc2 r _) => bump r 2#16 st
  | .idx (.dec1 r) => bump r 0xFFFF#16 st
  | .idx (.dec2 r _) => bump r 0xFFFE#16 st
  | _ => st

/-- `autoStep` of a byte operand. -/
def autoStep8 (m : Src8) (st : State) : State :=
  match m with
  | .imm _ => st
  | .mem m => autoStep m st

/-- `autoStep` of a word operand. -/
def autoStep16 (m : Src16) (st : State) : State :=
  match m with
  | .imm _ => st
  | .mem m => autoStep m st

/-- The state after reading the `n` bytes from `a` upward, one `MemRead` after another: only their side effects. -/
def readAll (a : Word) (n : Nat) (st : State) : State :=
  match n with
  | 0 => st
  | n + 1 => readEffect (a + BitVec.ofNat 16 n) (readAll a n st)

/-- The byte the read of `a + k` answers where the bytes from `a` upward are read one after another. -/
def readByte (st : State) (a : Word) (k : Nat) : Byte := peek (readAll a k st) (a + BitVec.ofNat 16 k)

/-! ### What a store may change -/

/-- `b` is none of the `n` bytes from `a` on. -/
def Outside (a : Word) (n : Nat) (b : Word) : Prop := ∀ k, k < n → b ≠ a + BitVec.ofNat 16 k

/-- Between `st` and `t` no byte was stored outside the `n` bytes from `a` on: RAM and the backing bytes keep their value
there, the ROMs keep theirs, the bank register changes only with its own address, and every address outside the stored
bytes reads as before (an I/O register's read is a function of other state; the banked window follows `romBank`). -/
structure StoreFrame (a : Word) (n : Nat) (st t : State) : Prop where
  ram : ∀ b, Outside a n b → t.board.ram.read b.toNat = st.board.ram.read b.toNat
  systemRom : t.board.systemRom = st.board.systemRom
  gameRom : t.board.gameRom = st.board.gameRom
  bank : Outside a n 0x3FFC#16 → t.board.romBank = st.board.romBank
  reads : ∀ b, Outside a n b → isIo b = false → t.board.romBank = st.board.romBank → peek t b = peek st b

/-- The bytes `bs` written at the addresses from `a` on, the highest address first, each by `MemWrite`: what pushes do with their
image, wherever the stack points (40_addressing.md R160, R161; 20_memory.md R100). -/
def storeImage (a : Word) (bs : List Byte) (st : State) : State :=
  match bs with
  | [] => st
  | v :: rest => memWrite a v (storeImage (a + 1#16) rest st)

/-- The bytes `bs` read at the addresses from `a` on. -/
def BytesAt (st : State) (a : Word) (bs : List Byte) : Prop :=
  ∀ k, k < bs.length → peek st (a + BitVec.ofNat 16 k) = bs.getD k 0#8

/-- `t` is `st` with other registers and with the bytes `bs` stored in plain RAM from `a` on: they read back, every other
address reads as before, and no other piece of state changed. -/
structure Stored (a : Word) (bs : List Byte) (st t : State) : Prop where
  bytes : BytesAt t a bs
  others : ∀ b, Outside a bs.length b → peek t b = peek st b
  state : t = { st with regs := t.regs, board.ram := t.board.ram }

/-- A byte store of register `r` (41_load_store_transfer.md R177): it completes, the byte is written at the effective address, N
and Z are the byte's and V is 0; no other register changes but the base register of an auto mode. -/
def StoresByte (r : Reg8) (mk : Mem → Instr) : Prop :=
  ∀ (m : Mem) (st : State), ∃ t cc', exec (mk m) st = .next t ∧
    t = setReg8 .cc cc' (memWrite (ea m st).1 (getReg8 r st) (ea m st).2) ∧
    FlagsBecome (nzvc8 (getReg8 r st) (some false) none) st.regs.cc cc' ∧
    SameButReads (autoStep m st) (ea m st).2 ∧
    t.regs = { (autoStep m st).regs with cc := cc' } ∧
    StoreFrame (ea m st).1 1 st t ∧
    (st.board.ram.wf = true → st.PlainRam (ea m st).1 → peek t (ea m st).1 = getReg8 r st)

/-- A word store of register `r` (R179), read after the address is computed (40_addressing.md R153). -/
def StoresWord (r : Reg16) (mk : Mem → Instr) : Prop :=
  ∀ (m : Mem) (st : State), ∃ t cc', exec (mk m) st = .next t ∧
    t = setReg8 .cc cc' (memWrite16 (ea m st).1 (getReg16 r (autoStep m st)) (ea m st).2) ∧
    FlagsBecome (nzvc16 (getReg16 r (autoStep m st)) (some false) none) st.regs.cc cc' ∧
    SameButReads (autoStep m st) (ea m st).2 ∧
    t.regs = { (autoStep m st).regs with cc := cc' } ∧
    StoreFrame (ea m st).1 2 st t ∧
    (st.board.ram.wf = true → st.PlainBytes (ea m st).1 2 →
      join (peek t (ea m st).1) (peek t ((ea m st).1 + 1#16)) = getReg16 r (autoStep m st))

/-! ### Opcode bytes (30_encoding.md) -/

/-- The 36 illegal indexed postbytes (30_encoding.md R126). -/
def illegalPostbytes : List Byte :=
  [0x87, 0xA7, 0xC7, 0xE7, 0x8A, 0xAA, 0xCA, 0xEA, 0x8E, 0xAE, 0xCE, 0xEE]
  ++ [0x8F, 0xAF, 0xCF, 0xEF, 0x90, 0xB0, 0xD0, 0xF0, 0x92, 0xB2, 0xD2, 0xF2]
  ++ [0x97, 0xB7, 0xD7, 0xF7, 0x9A, 0xBA, 0xDA, 0xFA, 0x9E, 0xBE, 0xDE, 0xFE]

/-- `p op` alone is the instruction (INH). -/
def EncInh (p : List Byte) (op : Byte) (i : Instr) : Prop := ∀ rest, decode (p ++ op :: rest) = .ok i rest

/-- `op ii` is the instruction (IMM8, REL8, LIST). -/
def EncByte (op : Byte) (k : Byte → Instr) : Prop := ∀ v rest, decode (op :: v :: rest) = .ok (k v) rest

/-- `p op hh ll` is the instruction (IMM16, REL16). -/
def EncWord (p : List Byte) (op : Byte) (k : Word → Instr) : Prop :=
  ∀ h l rest, decode (p ++ op :: h :: l :: rest) = .ok (k (join h l)) rest

/-- `p op pb…` is the instruction, and an illegal postbyte is rejected. -/
def EncIndexed (p : List Byte) (op : Byte) (k : Indexed → Instr) : Prop :=
  (∀ ix rest, decode (p ++ op :: (encodeIndexed ix ++ rest)) = .ok (k ix) rest) ∧
  (∀ pb rest, pb ∈ illegalPostbytes → decode (p ++ op :: pb :: rest) = .illegalPostbyte pb)

/-- `p dir dd`, `p idx pb…`, `p ext hh ll` are the instruction's three memory forms. -/
def EncMem (p : List Byte) (dir idx ext : Byte) (k : Mem → Instr) : Prop :=
  (∀ dd rest, decode (p ++ dir :: dd :: rest) = .ok (k (.dir dd)) rest) ∧
  EncIndexed p idx (fun ix => k (.idx ix)) ∧
  (∀ h l rest, decode (p ++ ext :: h :: l :: rest) = .ok (k (.ext (join h l))) rest)

/-- The four forms of a byte operand. -/
def EncSrc8 (imm dir idx ext : Byte) (k : Src8 → Instr) : Prop :=
  EncByte imm (fun v => k (.imm v)) ∧ EncMem [] dir idx ext (fun m => k (.mem m))

/-- The four forms of a word operand. -/
def EncSrc16 (p : List Byte) (imm dir idx ext : Byte) (k : Src16 → Instr) : Prop :=
  EncWord p imm (fun v => k (.imm v)) ∧ EncMem p dir idx ext (fun m => k (.mem m))


/-! ### Instructions of one shape -/

/-- An 8-bit operation on register `r` and a byte operand, with the `rule` of its result and flags (`rule a M cc result cc'`).
It completes; the result is written where `keep` says so; the operand access changed its base register and read effects
alone; nothing else changes. -/
def ByteAlu (keep : Bool) (r : Reg8) (mk : Src8 → Instr) (rule : Byte → Byte → Byte → Byte → Byte → Prop) : Prop :=
  ∀ (m : Src8) (st : State), ∃ res cc',
    exec (mk m) st = .next (setReg8 .cc cc' (if keep then setReg8 r res (operand8 m st).2 else (operand8 m st).2)) ∧
    rule (getReg8 r st) (operand8 m st).1 st.regs.cc res cc' ∧
    SameButReads (autoStep8 m st) (operand8 m st).2

/-- The same for a 16-bit register and a word operand; the register is read after the address is computed (R153). -/
def WordAlu (keep : Bool) (r : Reg16) (mk : Src16 → Instr) (rule : Word → Word → Byte → Word → Byte → Prop) : Prop :=
  ∀ (m : Src16) (st : State), ∃ res cc',
    exec (mk m) st = .next (setReg8 .cc cc' (if keep then setReg16 r res (operand16 m st).2 else (operand16 m st).2)) ∧
    rule (getReg16 r (autoStep16 m st)) (operand16 m st).1 st.regs.cc res cc' ∧
    SameButReads (autoStep16 m st) (operand16 m st).2

/-- A unary operation on memory (`Modify`, R167): it completes, having read the byte at the effective address once and then
written the result there. -/
def MemModify (mk : Mem → Instr) (rule : Byte → Byte → Byte → Byte → Prop) : Prop :=
  ∀ (m : Mem) (st : State), ∃ res cc' t,
    exec (mk m) st = .next t ∧
    t = setReg8 .cc cc' (memWrite (ea m st).1 res (readEffect (ea m st).1 (ea m st).2)) ∧
    rule (peek (ea m st).2 (ea m st).1) st.regs.cc res cc' ∧
    SameButReads (autoStep m st) (ea m st).2 ∧
    t.regs = { (autoStep m st).regs with cc := cc' } ∧
    StoreFrame (ea m st).1 1 st t ∧
    (st.board.ram.wf = true → st.PlainRam (ea m st).1 → peek t (ea m st).1 = res)

/-- A unary operation on an accumulator: only it and CC change. -/
def RegModify (r : Reg8) (i : Instr) (rule : Byte → Byte → Byte → Byte → Prop) : Prop :=
  ∀ st : State, ∃ res cc',
    exec i st = .next (setReg8 .cc cc' (setReg8 r res st)) ∧ rule (getReg8 r st) st.regs.cc res cc'

/-- The memory, A and B forms of a unary operation, with the low nibble `op` of their opcodes (30_encoding.md R120). -/
def UnaryFamily (dir a b idx ext : Byte) (mk : Mem → Instr) (ia ib : Instr) (rule : Byte → Byte → Byte → Byte → Prop) :
    Prop :=
  EncMem [] dir idx ext mk ∧ EncInh [] a ia ∧ EncInh [] b ib ∧
  MemModify mk rule ∧ RegModify .a ia rule ∧ RegModify .b ib rule

/-- A branch taken where `cond cc` holds: PC, which is past the displacement, moves by the signed displacement `d rr`, modulo
65536; nothing else changes. -/
def Branches {w : Nat} (mk : BitVec w → Instr) (cond : Byte → Bool) : Prop :=
  ∀ (rr : BitVec w) (st : State), ∃ t,
    exec (mk rr) st = .next t ∧
    t = { st with regs.pc := t.regs.pc } ∧
    (t.regs.pc.toNat : Int) =
      if cond st.regs.cc then ((st.regs.pc.toNat : Int) + rr.toInt) % 65536 else (st.regs.pc.toNat : Int)

/-! ### Frames on a stack -/

/-- The two bytes of a word in memory order. -/
def wordBytes (v : Word) : List Byte := [hi v, lo v]

/-- The entire frame from the new S upward (40_addressing.md R164). -/
def entireFrame (r : Regs) : List Byte :=
  [r.cc, r.a, r.b, r.dp] ++ wordBytes r.x ++ wordBytes r.y ++ wordBytes r.u ++ wordBytes r.pc

/-- The fast frame from the new S upward (R165). -/
def fastFrame (r : Regs) : List Byte := [r.cc] ++ wordBytes r.pc

/-- The bytes of a register list from the new stack pointer upward: bit 0 lowest, bit 7 highest (30_encoding.md R119);
`other` is the value of the stack pointer that is data. -/
def listImage (list : Byte) (r : Regs) (other : Word) : List Byte :=
  (if list.getLsbD 0 then [r.cc] else []) ++ (if list.getLsbD 1 then [r.a] else [])
  ++ (if list.getLsbD 2 then [r.b] else []) ++ (if list.getLsbD 3 then [r.dp] else [])
  ++ (if list.getLsbD 4 then wordBytes r.x else []) ++ (if list.getLsbD 5 then wordBytes r.y else [])
  ++ (if list.getLsbD 6 then wordBytes other else []) ++ (if list.getLsbD 7 then wordBytes r.pc else [])

/-- How many bytes bit k of a register list moves. -/
def listedSize (list : Byte) (k : Nat) : Nat := if list.getLsbD k then (if k < 4 then 1 else 2) else 0

/-- How many bytes the bits of a register list below bit k move. -/
def listOffset (list : Byte) (k : Nat) : Nat := ((List.range k).map (listedSize list)).sum

/-- The word in memory order at two addresses. -/
def wordAt (st : State) (a : Word) : Word := join (peek st a) (peek st (a + 1#16))

/-- The word whose two bytes `byte` gives at offset k. -/
def wordOf (byte : Nat → Byte) (k : Nat) : Word := join (byte k) (byte (k + 1))

/-- The register file after a pull of `list` over `sp`, where `byte k` is the byte read at offset k: a listed register takes its
byte or word, at the offset of the bytes pulled before it; the other registers keep their value; the pointer is past all of
them (41_load_store_transfer.md R192, R193). -/
def pulledRegs (sp : StackReg) (list : Byte) (byte : Nat → Byte) (st : State) : Regs :=
  let at8 (k : Nat) (old : Byte) : Byte := if list.getLsbD k then byte (listOffset list k) else old
  let at16 (k : Nat) (old : Word) : Word := if list.getLsbD k then wordOf byte (listOffset list k) else old
  let p' := getReg16 sp.reg st + BitVec.ofNat 16 (listOffset list 8)
  { cc := at8 0 st.regs.cc
    a := at8 1 st.regs.a
    b := at8 2 st.regs.b
    dp := at8 3 st.regs.dp
    x := at16 4 st.regs.x
    y := at16 5 st.regs.y
    u := match sp with
      | .s => at16 6 st.regs.u
      | .u => p'
    s := match sp with
      | .s => p'
      | .u => at16 6 st.regs.s
    pc := at16 7 st.regs.pc }

/-- PULS and PULU: they complete; the listed bytes are read upward from the pointer and nothing changes but registers and the
side effects of these reads; with no byte in the I/O window nothing changes but registers, and the bytes are those of `st`. -/
def Pulls (sp : StackReg) (mk : Byte → Instr) : Prop :=
  ∀ (list : Byte) (st : State), ∃ t, exec (mk list) st = .next t ∧
    t = { readAll (getReg16 sp.reg st) (listOffset list 8) st with
      regs := pulledRegs sp list (readByte st (getReg16 sp.reg st)) st } ∧
    SameButReads { st with regs := t.regs } t ∧
    getReg16 sp.reg t = getReg16 sp.reg st + BitVec.ofNat 16 (listOffset list 8) ∧
    (list.getLsbD 0 = false → t.regs.cc = st.regs.cc) ∧ (list.getLsbD 1 = false → t.regs.a = st.regs.a) ∧
    (list.getLsbD 2 = false → t.regs.b = st.regs.b) ∧ (list.getLsbD 3 = false → t.regs.dp = st.regs.dp) ∧
    (list.getLsbD 4 = false → t.regs.x = st.regs.x) ∧ (list.getLsbD 5 = false → t.regs.y = st.regs.y) ∧
    (list.getLsbD 6 = false → (match sp with | .s => t.regs.u = st.regs.u | .u => t.regs.s = st.regs.s)) ∧
    (list.getLsbD 7 = false → t.regs.pc = st.regs.pc) ∧
    (NoIo (getReg16 sp.reg st) (listOffset list 8) →
      t = { st with regs := pulledRegs sp list (fun k => peek st (getReg16 sp.reg st + BitVec.ofNat 16 k)) st })

/-- The registers after RTI of an entire frame whose byte at offset k is `byte k` (45_system.md R333). -/
def entireRegs (byte : Nat → Byte) (r : Regs) : Regs where
  cc := byte 0
  a := byte 1
  b := byte 2
  dp := byte 3
  x := wordOf byte 4
  y := wordOf byte 6
  u := wordOf byte 8
  pc := wordOf byte 10
  s := r.s + 12#16

/-- The registers after RTI of a fast frame (R333). -/
def fastRegs (byte : Nat → Byte) (r : Regs) : Regs := { r with cc := byte 0, pc := wordOf byte 1, s := r.s + 3#16 }

/-- A call to `target`: from `s`, the state after the target's address was computed in `st`, the address of the next instruction
is pushed on S and PC becomes `target`. -/
def Calls (target : Word) (st s t : State) : Prop :=
  t.regs = { s.regs with s := s.regs.s - 2#16, pc := target } ∧ t.counters = st.counters ∧ t.fault = st.fault ∧
  t = { storeImage (s.regs.s - 2#16) (wordBytes st.regs.pc) s with regs := t.regs } ∧
  StoreFrame (s.regs.s - 2#16) 2 st t ∧
  (s.board.ram.wf = true → s.PlainBytes (s.regs.s - 2#16) 2 → Stored (s.regs.s - 2#16) (wordBytes st.regs.pc) s t)

/-- The word at an offset of the system ROM. -/
def romWord (bd : Board) (o : Nat) : Word := join (bd.systemRom.read o) (bd.systemRom.read (o + 1))

/-- An entry that stacks `frame` (of the registers with CC as `ccS`), then sets masks and goes where the vector at offset `o`
of the system ROM says. `t` is the state it leaves, up to counters; `lat` is what the entry itself does to the latches, after
the stores. -/
structure Entered (frame : Regs → List Byte) (e : Bool) (f i : Option Bool) (o : Nat) (lat : Latches → Latches)
    (st t : State) : Prop where
  /-- CC is stacked with E written and the old masks; then the masks are set. The frame is stored byte by byte wherever S
  points (20_memory.md R100); in plain RAM it reads back and nothing else changes. -/
  registers : ∃ ccS cc', FlagsBecome (entryUpdate (some e) none none) st.regs.cc ccS ∧
    FlagsBecome (entryUpdate none f i) ccS cc' ∧
    t.regs = { st.regs with
      cc := cc'
      s := st.regs.s - BitVec.ofNat 16 (frame st.regs).length
      pc := romWord st.board o } ∧
    t.board = (storeImage (st.regs.s - BitVec.ofNat 16 (frame st.regs).length) (frame { st.regs with cc := ccS }) st).board ∧
    t.latches =
      lat (storeImage (st.regs.s - BitVec.ofNat 16 (frame st.regs).length) (frame { st.regs with cc := ccS }) st).latches ∧
    (st.board.ram.wf = true →
      st.PlainBytes (st.regs.s - BitVec.ofNat 16 (frame st.regs).length) (frame st.regs).length →
      BytesAt t (st.regs.s - BitVec.ofNat 16 (frame st.regs).length) (frame { st.regs with cc := ccS }) ∧
      (∀ b, Outside (st.regs.s - BitVec.ofNat 16 (frame st.regs).length) (frame st.regs).length b →
        peek t b = peek st b) ∧
      t.board = { st.board with ram := t.board.ram })
  stores : StoreFrame (st.regs.s - BitVec.ofNat 16 (frame st.regs).length) (frame st.regs).length st t
  fault : t.fault = st.fault

/-- A software interrupt: E = 1, the entire frame, the masks `f` and `i`, the vector at offset `o`; it completes, and counts in
no counter. -/
def Traps (instr : Instr) (f i : Option Bool) (o : Nat) : Prop :=
  ∀ st : State, ∃ t, exec instr st = .next t ∧ Entered entireFrame true f i o id st t ∧ t.counters = st.counters ∧
    (st.PlainBytes (st.regs.s - 12#16) 12 → t.latches = st.latches)

/-- The state a CPU step leaves, whatever its outcome. -/
def CpuOutcome.Leaves (o : CpuOutcome) (t : State) : Prop :=
  (∃ n, o = .next t n) ∨ (∃ n, o = .wait t n) ∨ ∃ f, o = .fault f t

/-- The state the instruction of a step starts from: after the wake-up and, where a class is selected, its entry. -/
def atInstruction (st : State) : State :=
  match select st with
  | none => wake st
  | some c => enter c (wake st)

/-- The driving loop of 60_exceptions.md R393 and R395, as a relation: with `used` ticks spent in `st`, it ends in `r`. -/
inductive Drives (after : Nat → State → State) (budget : Nat) : Nat → State → CycleResult → Prop where
  | done {used st} : budget ≤ used → Drives after budget used st (.done used st)
  | next {used st t n r} : used < budget → cpuStep st = .next t n → Drives after budget (used + n) (after n t) r →
      Drives after budget used st r
  | wait {used st t n r} : used < budget → cpuStep st = .wait t n → Drives after budget (used + n) (after n t) r →
      Drives after budget used st r
  | fault {used st t f} : used < budget → cpuStep st = .fault f t → Drives after budget used st (.fault f t)

/-! ### The opcode maps' holes -/

/-- The 33 undefined page-1 opcode bytes (30_encoding.md R124). -/
def undefinedPage1 : List Byte :=
  [0x01, 0x02, 0x05, 0x0B, 0x14, 0x15, 0x18, 0x1B, 0x38, 0x3E, 0x41, 0x42, 0x45, 0x4B, 0x4E, 0x51, 0x52]
  ++ [0x55, 0x5B, 0x5E, 0x61, 0x62, 0x65, 0x6B, 0x71, 0x72, 0x75, 0x7B, 0x87, 0x8F, 0xC7, 0xCD, 0xCF]

/-- The bytes defined after the page-2 byte 0x10 (R122). -/
def definedPage2 : List Byte :=
  [0x21, 0x22, 0x23, 0x24, 0x25, 0x26, 0x27, 0x28, 0x29, 0x2A, 0x2B, 0x2C, 0x2D, 0x2E, 0x2F, 0x3F]
  ++ [0x83, 0x8C, 0x8E, 0x93, 0x9C, 0x9E, 0x9F, 0xA3, 0xAC, 0xAE, 0xAF, 0xB3, 0xBC, 0xBE, 0xBF]
  ++ [0xCE, 0xDE, 0xDF, 0xEE, 0xEF, 0xFE, 0xFF]

/-- The bytes defined after the page-3 byte 0x11 (R123). -/
def definedPage3 : List Byte := [0x3F, 0x83, 0x8C, 0x93, 0x9C, 0xA3, 0xAC, 0xB3, 0xBC]

/-- The opcode bytes of the indexed rows: 0x6_, 0xA_, 0xE_ and the LEA rows of page 1, 0xA_ and 0xE_ of pages 2 and 3
(R121–R123). -/
def IndexedOpcode (ops : List Byte) : Prop :=
  match ops with
  | [op] =>
    ((op.toNat / 16 = 0x6 ∨ op.toNat / 16 = 0xA ∨ op.toNat / 16 = 0xE) ∧ op ∉ undefinedPage1) ∨
      op ∈ [0x30#8, 0x31#8, 0x32#8, 0x33#8]
  | [page, op] =>
    ((page = 0x10#8 ∧ op ∈ definedPage2) ∨ (page = 0x11#8 ∧ op ∈ definedPage3)) ∧
      (op.toNat / 16 = 0xA ∨ op.toNat / 16 = 0xE)
  | _ => False

/-- The base register of `pb[6:5]` (R117). -/
def baseOf (code : BitVec 2) : IdxReg :=
  if code = 0#2 then .x else if code = 1#2 then .y else if code = 2#2 then .u else .s

/-- A TFR/EXG postbyte that is illegal: a nibble that selects no register, or one 16-bit and one 8-bit code (R127). -/
def IllegalPair (pb : Byte) : Prop :=
  let hiN := pb.toNat / 16
  let loN := pb.toNat % 16
  hiN = 6 ∨ hiN = 7 ∨ 0xC ≤ hiN ∨ loN = 6 ∨ loN = 7 ∨ 0xC ≤ loN ∨ (hiN < 8 ∧ 8 ≤ loN) ∨ (8 ≤ hiN ∧ loN < 8)

/-- `op pb` is the instruction for every pair of registers of one size, and an illegal postbyte is rejected. -/
def EncPair (op : Byte) (k : TfrReg → TfrReg → Instr) : Prop :=
  (∀ r1 r2 rest, r1.sameSize r2 = true → decode (op :: encodePair r1 r2 :: rest) = .ok (k r1 r2) rest) ∧
  (∀ pb rest, IllegalPair pb → decode (op :: pb :: rest) = .illegalRegisterCode pb)

/-- The direct form of an indirect indexed operand. -/
def directForm : Indexed → Indexed
  | .inc2 r _ => .inc2 r false
  | .dec2 r _ => .dec2 r false
  | .zero r _ => .zero r false
  | .accB r _ => .accB r false
  | .accA r _ => .accA r false
  | .accD r _ => .accD r false
  | .off8 r n _ => .off8 r n false
  | .off16 r n _ => .off16 r n false
  | .pcr8 n _ => .pcr8 n false
  | .pcr16 n _ => .pcr16 n false
  | ix => ix

/-- The indirect bit of an indexed operand, `[n16]` apart. -/
def isIndirect : Indexed → Bool
  | .inc2 _ i => i
  | .dec2 _ i => i
  | .zero _ i => i
  | .accB _ i => i
  | .accA _ i => i
  | .accD _ i => i
  | .off8 _ _ i => i
  | .off16 _ _ i => i
  | .pcr8 _ i => i
  | .pcr16 _ i => i
  | _ => false

/-- An address that is a base plus a signed offset, modulo 65536. -/
def IsSum (a base : Word) (offset : Int) : Prop := (a.toNat : Int) = ((base.toNat : Int) + offset) % 65536

end Sys2Proof.Machine
end

