-- ==== Sys2Proof/Certificates/Slice0/Obligations.lean ====
section
/-! DEFINITION. The statements for the provers. Each docstring names the rules of spec/ it formalises; what rests on a choice of
the model says so and names the log entry. -/

section Statements

open Sys2Proof Sys2Proof.Machine

/-! ### Encoding -/

/-- No bit of an encoding is dropped: every well-formed instruction, with every operand value, decodes back to itself from its
encoding, and the bytes after it are left over. -/
def Obligations.DecodeEncodeRoundTrip : Prop :=
  ∀ (i : Instr) (rest : List Byte), i.wf = true → decode (encode i ++ rest) = .ok i rest

/-- The decoder reads one instruction of 1 to 5 bytes, the same whatever follows, asks for more inside it and answers on five
bytes (R110, R128, R129). -/
def Obligations.DecodeReadsOneInstruction : Prop :=
  (∀ (bs rest : List Byte) (i : Instr), decode bs = .ok i rest →
    ∃ used, bs = used ++ rest ∧ 1 ≤ used.length ∧ used.length ≤ 5 ∧ i.wf = true ∧
      (∀ rest', decode (used ++ rest') = .ok i rest') ∧
      (∀ n, n < used.length → decode (used.take n) = .more)) ∧
  (∀ bs : List Byte, 5 ≤ bs.length → decode bs ≠ .more)

/-- R124, R125: which opcode bytes are undefined, and the fault a step takes on one: PC past the opcode bytes, no other state
but the fault changed. -/
def Obligations.UndefinedOpcodes : Prop :=
  (∀ (b : Byte) (rest : List Byte), b ≠ 0x10#8 → b ≠ 0x11#8 →
    (decode (b :: rest) = .undefinedOpcode ↔ b ∈ undefinedPage1)) ∧
  (∀ (op : Byte) (rest : List Byte), decode (0x10#8 :: op :: rest) = .undefinedOpcode ↔ op ∉ definedPage2) ∧
  (∀ (op : Byte) (rest : List Byte), decode (0x11#8 :: op :: rest) = .undefinedOpcode ↔ op ∉ definedPage3) ∧
  (∀ (st : State) (b : Byte), st.Runnable → b ∈ undefinedPage1 → st.CodeAt st.regs.pc [b] →
    cpuStep st = .fault (.undefinedOpcode st.regs.pc [b])
      { st with regs.pc := st.regs.pc + 1#16, fault := some (.undefinedOpcode st.regs.pc [b]) } ∧
    step st = .fault (.undefinedOpcode st.regs.pc [b])) ∧
  (∀ (st : State) (p op : Byte), st.Runnable →
    (p = 0x10#8 ∧ op ∉ definedPage2) ∨ (p = 0x11#8 ∧ op ∉ definedPage3) → st.CodeAt st.regs.pc [p, op] →
    cpuStep st = .fault (.undefinedOpcode st.regs.pc [p, op])
      { st with regs.pc := st.regs.pc + 2#16, fault := some (.undefinedOpcode st.regs.pc [p, op]) } ∧
    step st = .fault (.undefinedOpcode st.regs.pc [p, op]))

/-- R117, R126: every row of the postbyte table, for each base register code, with LEAX as the instruction; which postbytes are
illegal; and the fault a step takes on one, after the postbyte and before anything else. -/
def Obligations.IndexedPostbytes : Prop :=
  (∀ (c : BitVec 2) (n : BitVec 5) (rest : List Byte),
    decode (0x30 :: ((0#1 ++ c) ++ n) :: rest) = .ok (.leax (.off5 (baseOf c) n)) rest) ∧
  (∀ (c : BitVec 2) (rest : List Byte),
    decode (0x30 :: postbyte c false 0x0#4 :: rest) = .ok (.leax (.inc1 (baseOf c))) rest ∧
    decode (0x30 :: postbyte c false 0x2#4 :: rest) = .ok (.leax (.dec1 (baseOf c))) rest) ∧
  (∀ (c : BitVec 2) (i : Bool) (rest : List Byte),
    decode (0x30 :: postbyte c i 0x1#4 :: rest) = .ok (.leax (.inc2 (baseOf c) i)) rest ∧
    decode (0x30 :: postbyte c i 0x3#4 :: rest) = .ok (.leax (.dec2 (baseOf c) i)) rest ∧
    decode (0x30 :: postbyte c i 0x4#4 :: rest) = .ok (.leax (.zero (baseOf c) i)) rest ∧
    decode (0x30 :: postbyte c i 0x5#4 :: rest) = .ok (.leax (.accB (baseOf c) i)) rest ∧
    decode (0x30 :: postbyte c i 0x6#4 :: rest) = .ok (.leax (.accA (baseOf c) i)) rest ∧
    decode (0x30 :: postbyte c i 0xB#4 :: rest) = .ok (.leax (.accD (baseOf c) i)) rest) ∧
  (∀ (c : BitVec 2) (i : Bool) (n : Byte) (rest : List Byte),
    decode (0x30 :: postbyte c i 0x8#4 :: n :: rest) = .ok (.leax (.off8 (baseOf c) n i)) rest ∧
    decode (0x30 :: postbyte c i 0xC#4 :: n :: rest) = .ok (.leax (.pcr8 n i)) rest) ∧
  (∀ (c : BitVec 2) (i : Bool) (h l : Byte) (rest : List Byte),
    decode (0x30 :: postbyte c i 0x9#4 :: h :: l :: rest) = .ok (.leax (.off16 (baseOf c) (join h l) i)) rest ∧
    decode (0x30 :: postbyte c i 0xD#4 :: h :: l :: rest) = .ok (.leax (.pcr16 (join h l) i)) rest ∧
    decode (0x30 :: postbyte c true 0xF#4 :: h :: l :: rest) = .ok (.leax (.extInd (join h l))) rest) ∧
  (∀ (pb : Byte) (rest : List Byte), decode (0x30 :: pb :: rest) = .illegalPostbyte pb ↔ pb ∈ illegalPostbytes) ∧
  (∀ (st : State) (ops : List Byte) (pb : Byte), st.Runnable → IndexedOpcode ops → pb ∈ illegalPostbytes →
    st.CodeAt st.regs.pc (ops ++ [pb]) →
    cpuStep st = .fault (.illegalPostbyte st.regs.pc ops pb)
      { st with
        regs.pc := st.regs.pc + BitVec.ofNat 16 (ops.length + 1)
        fault := some (.illegalPostbyte st.regs.pc ops pb) } ∧
    step st = .fault (.illegalPostbyte st.regs.pc ops pb))

/-- Derived from R127, R188, R189: which TFR and EXG postbytes are illegal, the fault a step takes on one with no register but PC
changed, and that the meanings of TFR and EXG stop by that name on an ill-formed pair. That the decoder raises it before the
meaning could is the model's own (log 16). -/
def Obligations.IllegalRegisterCodes : Prop :=
  (∀ (op pb : Byte) (rest : List Byte), op = 0x1E#8 ∨ op = 0x1F#8 →
    (decode (op :: pb :: rest) = .illegalRegisterCode pb ↔ IllegalPair pb) ∧
    (¬ IllegalPair pb → ∃ i, decode (op :: pb :: rest) = .ok i rest ∧ i.wf = true)) ∧
  (∀ (st : State) (op pb : Byte), st.Runnable → op = 0x1E#8 ∨ op = 0x1F#8 → IllegalPair pb →
    st.CodeAt st.regs.pc [op, pb] →
    cpuStep st = .fault (.illegalRegisterCode st.regs.pc [op] pb)
      { st with regs.pc := st.regs.pc + 2#16, fault := some (.illegalRegisterCode st.regs.pc [op] pb) } ∧
    step st = .fault (.illegalRegisterCode st.regs.pc [op] pb)) ∧
  (∀ (r1 r2 : TfrReg) (st : State), r1.sameSize r2 = false →
    (∃ a pb, exec (.tfr r1 r2) st = .fault (.illegalRegisterCode a [0x1F#8] pb) ∧ IllegalPair pb) ∧
    (∃ a pb, exec (.exg r1 r2) st = .fault (.illegalRegisterCode a [0x1E#8] pb) ∧ IllegalPair pb))

/-- Words written out from the encodings of 30_encoding.md and the instruction rules decode to their instruction. The last
two are numbers as spec/opcode_table.json writes them; that a two-byte opcode's number has its prefix in bits 15..8 is the model's
reading of the table (log 11). -/
def Obligations.OpcodeWordsDecode : Prop :=
  decode [0x86#8, 0x3C#8] = .ok (.lda (.imm 0x3C#8)) [] ∧
  decode [0x10#8, 0xAF#8, 0x81#8] = .ok (.sty (.idx (.inc2 .x false))) [] ∧
  decode [0x1F#8, 0x89#8] = .ok (.tfr (.r8 .a) (.r8 .b)) [] ∧
  decode [0x34#8, 0x06#8] = .ok (.pshs 0x06#8) [] ∧
  decode [0x10#8, 0x83#8, 0x00#8, 0x01#8] = .ok (.cmpd (.imm 0x0001#16)) [] ∧
  decode [0x7C#8, 0x3F#8, 0xFC#8] = .ok (.inc (.ext 0x3FFC#16)) [] ∧
  decode [0x10#8, 0x26#8, 0xFF#8, 0xFC#8] = .ok (.lbne 0xFFFC#16) [] ∧
  decode [0xA6#8, 0x9F#8, 0xFF#8, 0xFE#8] = .ok (.lda (.mem (.idx (.extInd 0xFFFE#16)))) [] ∧
  decode [0x11#8, 0x3F#8] = .ok .swi3 [] ∧
  decodeTableWord 8 0x12 = some .nop ∧
  decodeTableWord 16 0x103F = some .swi2

/-! ### The step -/

/-- A step runs the decoded instruction: with the CPU neither faulted, waiting nor about to enter an interrupt, and the bytes at
PC (outside the I/O window, whose reads have side effects) an instruction, that instruction's meaning with PC past it answers a
next state, and the step is that state with the instruction's ticks counted and given to the board (R394, R395). -/
def Obligations.StepRunsDecodedInstruction : Prop :=
  ∀ (st : State) (bs : List Byte) (i : Instr), st.Runnable → decode bs = .ok i [] → st.CodeAt st.regs.pc bs →
    ∃ t, exec i (setReg16 .pc (st.regs.pc + BitVec.ofNat 16 bs.length) st) = .next t ∧
      step st = .next (boardTicks (Params.cycles i) (countTicks (Params.cycles i) t))

/-- R89: a fetch is a read at PC, with that read's side effects, and moves PC by one; a byte stored in plain RAM is what the next
fetch of its address reads. -/
def Obligations.FetchReadsMemory : Prop :=
  (∀ st : State, (fetch8 st).1 = peek st st.regs.pc ∧
    (fetch8 st).2 = setReg16 .pc (st.regs.pc + 1#16) (readEffect st.regs.pc st)) ∧
  (∀ (st : State) (a : Word) (v : Byte), st.board.ram.wf = true → st.PlainRam a →
    (fetch8 (setReg16 .pc a (memWrite a v st))).1 = v ∧
    (fetch8 (setReg16 .pc a (memWrite a v st))).2 = setReg16 .pc (a + 1#16) (memWrite a v st))

/-- R350: a fault is recorded, and from then on every step and every driving call, whatever its budget, answers it and changes
nothing; no host call clears it. -/
def Obligations.FaultIsSticky : Prop :=
  (∀ (st t : State) (f : Fault), cpuStep st = .fault f t → t.fault = some f) ∧
  (∀ (st : State) (f : Fault), st.fault = some f →
    cpuStep st = .fault f st ∧ step st = .fault f ∧
    (∀ budget, cpuExecuteCycle budget st = .fault f st ∧ boardExecuteCycle budget st = .fault f st) ∧
    (∀ input, (hostInput input st).fault = some f))

/-- R351: a faulting step has read one to three bytes, with PC past them; but for these reads' side effects it has written no
memory and no other register, and takes no ticks. What an interrupt entry of the same step did stays. -/
def Obligations.FaultingStepPartialEffects : Prop :=
  ∀ (st t : State) (f : Fault), st.fault = none → cpuStep st = .fault f t →
    ∃ n, 1 ≤ n ∧ n ≤ 3 ∧
      t = { readAll (atInstruction st).regs.pc n (atInstruction st) with
        regs := { (atInstruction st).regs with pc := (atInstruction st).regs.pc + BitVec.ofNat 16 n }
        fault := some f } ∧
      SameButReads { atInstruction st with
        regs.pc := (atInstruction st).regs.pc + BitVec.ofNat 16 n
        fault := some f } t ∧
      t.counters.tickCount = st.counters.tickCount

/-! ### Interrupts -/

/-- R361: the class selected at a boundary, NMI before FIRQ before IRQ, a masked class never; a step services exactly that class,
which the service counters show. -/
def Obligations.InterruptSelection : Prop :=
  (∀ st : State,
    (select st = some .nmi ↔ st.latches.nmiPending = true) ∧
    (select st = some .firq ↔ st.latches.nmiPending = false ∧ st.latches.firqPending = true ∧ getFlag st.regs.cc .f = false) ∧
    (select st = some .irq ↔ st.latches.nmiPending = false ∧ ¬ (st.latches.firqPending = true ∧ getFlag st.regs.cc .f = false) ∧
      st.latches.irqPending = true ∧ getFlag st.regs.cc .i = false)) ∧
  (∀ st t : State, st.fault = none → (cpuStep st).Leaves t →
    t.counters.nmiCount = st.counters.nmiCount + (if select st = some .nmi then 1 else 0) ∧
    t.counters.firqCount = st.counters.firqCount + (if select st = some .firq then 1 else 0) ∧
    t.counters.irqCount = st.counters.irqCount + (if select st = some .irq then 1 else 0))

/-- Derived from R360, R396, R420: what each call of the host changes, and that it changes nothing else; a switch id outside the
numbering changes nothing (log 20). That a host may call `firq()` by itself is the model's reading (log 21). What `resetCpu`
does is `Obligations.ResetEffect`. -/
def Obligations.HostInputs : Prop :=
  (∀ st : State, hostInput .irq st =
    { st with
      latches.irqPending := true
      counters.missedIrqCount := st.counters.missedIrqCount + (getFlag st.regs.cc .i).toNat }) ∧
  (∀ st : State, hostInput .firq st = { st with latches.firqPending := true }) ∧
  (∀ st : State, hostInput .nmi st = { st with latches.nmiPending := true }) ∧
  (∀ (st : State) (dmd : Bool), hostInput (.raiseFirq dmd) st =
    { st with board.firqSourceDmd := dmd, latches.firqPending := true }) ∧
  (∀ (st : State) (v : Byte), hostInput (.setCabinetInput v) st = { st with board.cabinet := v }) ∧
  (∀ (st : State) (c r : Fin 8) (closed : Bool), ∃ sw,
    hostInput (.setSwitch (10 * (c.val + 1) + (r.val + 1)) closed) st = { st with board.switches := sw } ∧
    ∀ c' r' : Fin 8, sw[c'][r'] = if c' = c ∧ r' = r then closed else st.board.switches[c'][r']) ∧
  (∀ (st : State) (c r : Fin 8), hostInput (.setInput (10 * (c.val + 1) + (r.val + 1))) st =
    hostInput (.setSwitch (10 * (c.val + 1) + (r.val + 1)) (!st.board.switches[c][r])) st) ∧
  (∀ (st : State) (id : Nat) (closed : Bool), (∀ c r : Fin 8, id ≠ 10 * (c.val + 1) + (r.val + 1)) →
    hostInput (.setSwitch id closed) st = st ∧ hostInput (.setInput id) st = st) ∧
  (∀ st : State, hostInput .reset st = resetCpu st ∧
    (hostInput .reset st).latches = { irqPending := false, firqPending := false, nmiPending := false, wait := .none } ∧
    (hostInput .reset st).regs.pc = romWord st.board 0x7FFE ∧ (hostInput .reset st).regs.dp = 0x00#8 ∧
    (hostInput .reset st).regs.cc = 0x50#8 ∧
    hostInput .reset st = { st with regs := (hostInput .reset st).regs, latches := (hostInput .reset st).latches })

/-- R362–R366: entry of each class. From a state that is not waiting in CWAI: the frame, stored wherever S points, the stacked CC
with E written and the old masks, the stacked PC of the boundary, the masks, the vector, the counter, the wait state; NMI's latch
is cleared, the other latches are as the stores leave them (one into the I/O window may clear one). After CWAI
nothing is stacked: the masks, the vector, the counter and the wait state are all that changes. -/
def Obligations.InterruptEntry : Prop :=
  (∀ st : State, st.latches.wait ≠ .cwai →
    (Entered entireFrame true none (some true) 0x7FF8 (fun l => { l with wait := .none }) st (enter .irq st) ∧
      (enter .irq st).counters = { st.counters with irqCount := st.counters.irqCount + 1 } ∧
      (enter .irq st).latches.wait = .none ∧
      (st.PlainBytes (st.regs.s - 12#16) 12 → (enter .irq st).latches = { st.latches with wait := .none })) ∧
    (Entered fastFrame false (some true) (some true) 0x7FF6 (fun l => { l with wait := .none }) st (enter .firq st) ∧
      (enter .firq st).counters = { st.counters with firqCount := st.counters.firqCount + 1 } ∧
      (enter .firq st).latches.wait = .none ∧
      (st.PlainBytes (st.regs.s - 3#16) 3 → (enter .firq st).latches = { st.latches with wait := .none })) ∧
    (Entered entireFrame true (some true) (some true) 0x7FFC (fun l => { l with nmiPending := false, wait := .none }) st
        (enter .nmi st) ∧
      (enter .nmi st).counters = { st.counters with nmiCount := st.counters.nmiCount + 1 } ∧
      (enter .nmi st).latches.wait = .none ∧ (enter .nmi st).latches.nmiPending = false ∧
      (st.PlainBytes (st.regs.s - 12#16) 12 →
        (enter .nmi st).latches = { st.latches with nmiPending := false, wait := .none }))) ∧
  (∀ st : State, st.latches.wait = .cwai → ∃ ccI ccF,
    FlagsBecome (entryUpdate none none (some true)) st.regs.cc ccI ∧
    FlagsBecome (entryUpdate none (some true) (some true)) st.regs.cc ccF ∧
    enter .irq st = { st with
      regs.cc := ccI, regs.pc := romWord st.board 0x7FF8
      counters.irqCount := st.counters.irqCount + 1, latches.wait := .none } ∧
    enter .firq st = { st with
      regs.cc := ccF, regs.pc := romWord st.board 0x7FF6
      counters.firqCount := st.counters.firqCount + 1, latches.wait := .none } ∧
    enter .nmi st = { st with
      regs.cc := ccF, regs.pc := romWord st.board 0x7FFC
      counters.nmiCount := st.counters.nmiCount + 1, latches.wait := .none, latches.nmiPending := false })

/-- RTI undoes an entry. From a state with its stack in plain RAM, an interrupt entry of any class, or a software
interrupt, followed by RTI gives back every register; only CC's E bit records the frame that was used (R37, R403). -/
def Obligations.ReturnRestoresInterruptedState : Prop :=
  ∀ st : State, st.board.ram.wf = true → st.PlainBytes (st.regs.s - 12#16) 12 → ∃ ccE ccFast,
    FlagsBecome (entryUpdate (some true) none none) st.regs.cc ccE ∧
    FlagsBecome (entryUpdate (some false) none none) st.regs.cc ccFast ∧
    (st.latches.wait ≠ .cwai →
      (∃ t, exec .rti (enter .irq st) = .next t ∧ t.regs = { st.regs with cc := ccE }) ∧
      (∃ t, exec .rti (enter .nmi st) = .next t ∧ t.regs = { st.regs with cc := ccE }) ∧
      (∃ t, exec .rti (enter .firq st) = .next t ∧ t.regs = { st.regs with cc := ccFast })) ∧
    (∀ i t, i = .swi ∨ i = .swi2 ∨ i = .swi3 → exec i st = .next t →
      ∃ u, exec .rti t = .next u ∧ u.regs = { st.regs with cc := ccE })

/-- R330–R332: SWI masks I and F, SWI2 and SWI3 leave the masks; each stacks the entire frame with E set, wherever S points, goes
to its own vector and completes. -/
def Obligations.SoftwareInterrupts : Prop :=
  EncInh [] 0x3F .swi ∧ EncInh [0x10] 0x3F .swi2 ∧ EncInh [0x11] 0x3F .swi3 ∧
  Traps .swi (some true) (some true) 0x7FFA ∧
  Traps .swi2 none none 0x7FF4 ∧
  Traps .swi3 none none 0x7FF2

/-- R333: RTI pulls CC, and the pulled E says whether the entire frame or PC alone follows. The bytes are read upward from S one
after another; nothing changes but registers and the side effects of these reads, and with no byte in the I/O window nothing
but registers. -/
def Obligations.ReturnFromInterrupt : Prop :=
  EncInh [] 0x3B .rti ∧
  ∀ st : State,
    (getFlag (peek st st.regs.s) .e = true → ∃ t, exec .rti st = .next t ∧
      t = { readAll st.regs.s 12 st with regs := entireRegs (readByte st st.regs.s) st.regs } ∧
      SameButReads { st with regs := t.regs } t ∧
      (NoIo st.regs.s 12 →
        t = { st with regs := entireRegs (fun k => peek st (st.regs.s + BitVec.ofNat 16 k)) st.regs })) ∧
    (getFlag (peek st st.regs.s) .e = false → ∃ t, exec .rti st = .next t ∧
      t = { readAll st.regs.s 3 st with regs := fastRegs (readByte st st.regs.s) st.regs } ∧
      SameButReads { st with regs := t.regs } t ∧
      (NoIo st.regs.s 3 →
        t = { st with regs := fastRegs (fun k => peek st (st.regs.s + BitVec.ofNat 16 k)) st.regs }))

/-- R334, R335: SYNC and CWAI start a wait, as a step that waits; SYNC's wait ends with any latch, masked or not, CWAI's with a
class that can be serviced; a waiting step takes one tick and changes nothing else. -/
def Obligations.SyncAndCwai : Prop :=
  EncInh [] 0x13 .sync ∧ EncByte 0x3C .cwai ∧
  (∀ st : State, exec .sync st = .next { st with latches.wait := .sync }) ∧
  (∀ (ii : Byte) (st : State), ∃ t cc', exec (.cwai ii) st = .next t ∧
    (∀ fl, getFlag cc' fl = (decide (fl = .e) || (getFlag st.regs.cc fl && getFlag ii fl))) ∧
    t.regs = { st.regs with cc := cc', s := st.regs.s - 12#16 } ∧ t.latches.wait = .cwai ∧
    t.counters = st.counters ∧ t.fault = st.fault ∧
    t = { storeImage (st.regs.s - 12#16) (entireFrame { st.regs with cc := cc' }) st with
      regs := t.regs, latches.wait := .cwai } ∧
    StoreFrame (st.regs.s - 12#16) 12 st t ∧
    (st.board.ram.wf = true → st.PlainBytes (st.regs.s - 12#16) 12 →
      BytesAt t (st.regs.s - 12#16) (entireFrame { st.regs with cc := cc' }) ∧
      t.board = { st.board with ram := t.board.ram } ∧ t.latches = { st.latches with wait := .cwai })) ∧
  (∀ (st t : State) (bs : List Byte) (i : Instr), st.Runnable → decode bs = .ok i [] → st.CodeAt st.regs.pc bs →
    i = .sync ∨ (∃ ii, i = .cwai ii) →
    exec i (setReg16 .pc (st.regs.pc + BitVec.ofNat 16 bs.length) st) = .next t →
    cpuStep st = .wait (countTicks (Params.cycles i) t) (Params.cycles i)) ∧
  (∀ st : State, st.fault = none → st.latches.wait = .sync → anyPending st = false →
    cpuStep st = .wait { st with counters.tickCount := st.counters.tickCount + 1 } 1) ∧
  (∀ st : State, st.fault = none → st.latches.wait = .sync → anyPending st = true →
    cpuStep st = cpuStep { st with latches.wait := .none }) ∧
  (∀ st : State, st.fault = none → st.latches.wait = .cwai → select st = none →
    cpuStep st = .wait { st with counters.tickCount := st.counters.tickCount + 1 } 1)

/-- R336, R337: ANDCC and ORCC, flag by flag; nothing else changes. -/
def Obligations.ConditionCodeInstructions : Prop :=
  EncByte 0x1C .andcc ∧ EncByte 0x1A .orcc ∧
  (∀ (ii : Byte) (st : State), ∃ cc', exec (.andcc ii) st = .next (setReg8 .cc cc' st) ∧
    ∀ fl, getFlag cc' fl = (getFlag st.regs.cc fl && getFlag ii fl)) ∧
  (∀ (ii : Byte) (st : State), ∃ cc', exec (.orcc ii) st = .next (setReg8 .cc cc' st) ∧
    ∀ fl, getFlag cc' fl = (getFlag st.regs.cc fl || getFlag ii fl))

/-- R368: a step that services a class then runs the instruction at the vector target, and its ticks are the entry's and the
instruction's; from CC = 0x00 an IRQ whose handler starts with NOP ends with the flags `E f h I n z v c`; with every flag set no
class but NMI is serviced. -/
def Obligations.ServiceAndExecuteInOneStep : Prop :=
  (∀ (st t : State) (c : IntClass) (bs : List Byte) (i : Instr), st.fault = none → select st = some c →
    decode bs = .ok i [] → (atInstruction st).CodeAt (atInstruction st).regs.pc bs →
    i ≠ .sync → (∀ ii, i ≠ .cwai ii) →
    exec i (setReg16 .pc ((atInstruction st).regs.pc + BitVec.ofNat 16 bs.length) (atInstruction st)) = .next t →
    cpuStep st = .next (countTicks (Params.intEntryTicks c + Params.cycles i) t)
      (Params.intEntryTicks c + Params.cycles i)) ∧
  (∀ (st t : State) (n : Nat), st.fault = none → st.latches.wait = .none → st.regs.cc = 0x00#8 → select st = some .irq →
    (atInstruction st).CodeAt (atInstruction st).regs.pc [0x12#8] → cpuStep st = .next t n →
    flagString t.regs.cc = ['E', 'f', 'h', 'I', 'n', 'z', 'v', 'c']) ∧
  (∀ st : State, st.regs.cc = 0xFF#8 → st.latches.nmiPending = false → select st = none)

/-! ### Operand access -/

/-- R140, R141, R153: an immediate is the operand itself; a memory operand is the byte, or the two bytes high first, at the
effective address; the access moves the base register of an auto mode before the operation reads a register and changes nothing
else but read effects. -/
def Obligations.OperandAccess : Prop :=
  (∀ (v : Byte) (st : State), operand8 (.imm v) st = (v, st)) ∧
  (∀ (v : Word) (st : State), operand16 (.imm v) st = (v, st)) ∧
  (∀ (m : Mem) (st : State),
    (operand8 (.mem m) st).1 = peek (ea m st).2 (ea m st).1 ∧
    (operand8 (.mem m) st).2 = readEffect (ea m st).1 (ea m st).2 ∧
    (operand16 (.mem m) st).1 =
      join (peek (ea m st).2 (ea m st).1) (peek (readEffect (ea m st).1 (ea m st).2) ((ea m st).1 + 1#16)) ∧
    (operand16 (.mem m) st).2 = readEffect ((ea m st).1 + 1#16) (readEffect (ea m st).1 (ea m st).2) ∧
    SameButReads (autoStep m st) (ea m st).2 ∧
    SameButReads (autoStep m st) (operand8 (.mem m) st).2 ∧
    SameButReads (autoStep m st) (operand16 (.mem m) st).2) ∧
  (∀ st : State, st.board.ram.wf = true → st.PlainBytes st.regs.x 2 →
    ∃ t, exec (.stx (.idx (.inc2 .x false))) st = .next t ∧ wordAt t st.regs.x = st.regs.x + 2#16) ∧
  (∀ st : State, NoIo st.regs.x 2 →
    ∃ t, exec (.ldx (.mem (.idx (.inc2 .x false)))) st = .next t ∧ t.regs.x = wordAt st st.regs.x) ∧
  (∀ st : State, ∃ t, exec (.leax (.inc1 .x)) st = .next t ∧ t.regs.x = st.regs.x)

/-- R142–R152: the effective address of every mode as a sum modulo 65536, and what computing it changes. -/
def Obligations.EffectiveAddresses : Prop :=
  (∀ (dd : Byte) (st : State), (ea (.dir dd) st).1.toNat = st.regs.dp.toNat * 256 + dd.toNat ∧ (ea (.dir dd) st).2 = st) ∧
  (∀ (a : Word) (st : State), ea (.ext a) st = (a, st)) ∧
  (∀ (r : IdxReg) (n5 : BitVec 5) (n8 : Byte) (n16 : Word) (st : State),
    let base := getReg16 (idxReg16 r) st
    (IsSum (eaIndexed (.off5 r n5) st).1 base n5.toInt ∧ (eaIndexed (.off5 r n5) st).2 = st) ∧
    (IsSum (eaIndexed (.zero r false) st).1 base 0 ∧ (eaIndexed (.zero r false) st).2 = st) ∧
    (IsSum (eaIndexed (.accB r false) st).1 base st.regs.b.toInt ∧ (eaIndexed (.accB r false) st).2 = st) ∧
    (IsSum (eaIndexed (.accA r false) st).1 base st.regs.a.toInt ∧ (eaIndexed (.accA r false) st).2 = st) ∧
    (IsSum (eaIndexed (.accD r false) st).1 base (st.regs.a.toNat * 256 + st.regs.b.toNat) ∧
      (eaIndexed (.accD r false) st).2 = st) ∧
    (IsSum (eaIndexed (.off8 r n8 false) st).1 base n8.toInt ∧ (eaIndexed (.off8 r n8 false) st).2 = st) ∧
    (IsSum (eaIndexed (.off16 r n16 false) st).1 base n16.toInt ∧ (eaIndexed (.off16 r n16 false) st).2 = st) ∧
    (IsSum (eaIndexed (.pcr8 n8 false) st).1 st.regs.pc n8.toInt ∧ (eaIndexed (.pcr8 n8 false) st).2 = st) ∧
    (IsSum (eaIndexed (.pcr16 n16 false) st).1 st.regs.pc n16.toInt ∧ (eaIndexed (.pcr16 n16 false) st).2 = st) ∧
    (∃ v1 v2, IsSum v1 base 1 ∧ IsSum v2 base 2 ∧
      eaIndexed (.inc1 r) st = (base, setReg16 (idxReg16 r) v1 st) ∧
      eaIndexed (.inc2 r false) st = (base, setReg16 (idxReg16 r) v2 st)) ∧
    (∃ v1 v2, IsSum v1 base (-1) ∧ IsSum v2 base (-2) ∧
      eaIndexed (.dec1 r) st = (v1, setReg16 (idxReg16 r) v1 st) ∧
      eaIndexed (.dec2 r false) st = (v2, setReg16 (idxReg16 r) v2 st))) ∧
  (∀ (ix : Indexed) (st : State), isIndirect ix = true →
    let p := eaIndexed (directForm ix) st
    (eaIndexed ix st).1 = join (peek p.2 p.1) (peek (readEffect p.1 p.2) (p.1 + 1#16)) ∧
    (eaIndexed ix st).2 = readEffect (p.1 + 1#16) (readEffect p.1 p.2) ∧
    SameButReads p.2 (eaIndexed ix st).2 ∧
    (NoIo p.1 2 → eaIndexed ix st = (wordAt p.2 p.1, p.2))) ∧
  (∀ (n : Word) (st : State),
    (eaIndexed (.extInd n) st).1 = join (peek st n) (peek (readEffect n st) (n + 1#16)) ∧
    (eaIndexed (.extInd n) st).2 = readEffect (n + 1#16) (readEffect n st) ∧
    SameButReads st (eaIndexed (.extInd n) st).2 ∧
    (NoIo n 2 → eaIndexed (.extInd n) st = (wordAt st n, st)))

/-! ### Loads, stores, LEA, transfers, register stacking -/

/-- R170–R176: the loads. -/
def Obligations.Loads : Prop :=
  EncSrc8 0x86 0x96 0xA6 0xB6 .lda ∧ EncSrc8 0xC6 0xD6 0xE6 0xF6 .ldb ∧
  EncSrc16 [] 0xCC 0xDC 0xEC 0xFC .ldd ∧ EncSrc16 [] 0x8E 0x9E 0xAE 0xBE .ldx ∧
  EncSrc16 [0x10] 0x8E 0x9E 0xAE 0xBE .ldy ∧ EncSrc16 [] 0xCE 0xDE 0xEE 0xFE .ldu ∧
  EncSrc16 [0x10] 0xCE 0xDE 0xEE 0xFE .lds ∧
  ByteAlu true .a .lda (fun _ m cc r cc' => LogicRule m cc r cc') ∧
  ByteAlu true .b .ldb (fun _ m cc r cc' => LogicRule m cc r cc') ∧
  WordAlu true .d .ldd (fun _ m cc r cc' => LoadWordRule m cc r cc') ∧
  WordAlu true .x .ldx (fun _ m cc r cc' => LoadWordRule m cc r cc') ∧
  WordAlu true .y .ldy (fun _ m cc r cc' => LoadWordRule m cc r cc') ∧
  WordAlu true .u .ldu (fun _ m cc r cc' => LoadWordRule m cc r cc') ∧
  WordAlu true .s .lds (fun _ m cc r cc' => LoadWordRule m cc r cc')

/-- R177–R183: the stores. -/
def Obligations.Stores : Prop :=
  EncMem [] 0x97 0xA7 0xB7 .sta ∧ EncMem [] 0xD7 0xE7 0xF7 .stb ∧ EncMem [] 0xDD 0xED 0xFD .std ∧
  EncMem [] 0x9F 0xAF 0xBF .stx ∧ EncMem [0x10] 0x9F 0xAF 0xBF .sty ∧ EncMem [] 0xDF 0xEF 0xFF .stu ∧
  EncMem [0x10] 0xDF 0xEF 0xFF .sts ∧
  StoresByte .a .sta ∧ StoresByte .b .stb ∧ StoresWord .d .std ∧ StoresWord .x .stx ∧ StoresWord .y .sty ∧
  StoresWord .u .stu ∧ StoresWord .s .sts

/-- R184–R187: LEA takes the address itself; LEAX and LEAY write Z alone, LEAS and LEAU no flag. -/
def Obligations.LoadEffectiveAddress : Prop :=
  EncIndexed [] 0x30 .leax ∧ EncIndexed [] 0x31 .leay ∧ EncIndexed [] 0x32 .leas ∧ EncIndexed [] 0x33 .leau ∧
  ∀ (ix : Indexed) (st : State),
    let p := eaIndexed ix st
    SameButReads (autoStep (.idx ix) st) p.2 ∧
    (∃ cc', FlagsBecome (flagUpdate none none (some (decide (p.1.toNat = 0))) none none) st.regs.cc cc' ∧
      exec (.leax ix) st = .next (setReg8 .cc cc' (setReg16 .x p.1 p.2)) ∧
      exec (.leay ix) st = .next (setReg8 .cc cc' (setReg16 .y p.1 p.2))) ∧
    exec (.leas ix) st = .next (setReg16 .s p.1 p.2) ∧
    exec (.leau ix) st = .next (setReg16 .u p.1 p.2)

/-- R188, R189: TFR copies, EXG swaps, for every pair of registers of one size; every other register and all else stays. -/
def Obligations.TransferExchange : Prop :=
  EncPair 0x1F .tfr ∧ EncPair 0x1E .exg ∧
  (∀ (p q : Reg16) (st : State),
    (∃ t, exec (.tfr (.r16 p) (.r16 q)) st = .next t ∧
      t = { st with regs := { t.regs with dp := st.regs.dp, cc := st.regs.cc } } ∧
      ∀ r, getReg16 r t = if r = q then getReg16 p st else getReg16 r st) ∧
    (∃ t, exec (.exg (.r16 p) (.r16 q)) st = .next t ∧
      t = { st with regs := { t.regs with dp := st.regs.dp, cc := st.regs.cc } } ∧
      ∀ r, getReg16 r t = if r = q then getReg16 p st else if r = p then getReg16 q st else getReg16 r st)) ∧
  (∀ (p q : Reg8) (st : State),
    (∃ t, exec (.tfr (.r8 p) (.r8 q)) st = .next t ∧
      t = { st with regs := { st.regs with a := t.regs.a, b := t.regs.b, dp := t.regs.dp, cc := t.regs.cc } } ∧
      ∀ r, getReg8 r t = if r = q then getReg8 p st else getReg8 r st) ∧
    (∃ t, exec (.exg (.r8 p) (.r8 q)) st = .next t ∧
      t = { st with regs := { st.regs with a := t.regs.a, b := t.regs.b, dp := t.regs.dp, cc := t.regs.cc } } ∧
      ∀ r, getReg8 r t = if r = q then getReg8 p st else if r = p then getReg8 q st else getReg8 r st))

/-- R100, R160, R190, R191: PSHS and PSHU, for every register list and wherever the stack points: the image is stored by `MemWrite`
from the highest address down. A push moves the pointer and writes: into ROM it is dropped, into the I/O window it goes to the
ASIC, into RAM it is stored, or counted as a violation where protected. -/
def Obligations.PushRegisters : Prop :=
  EncByte 0x34 .pshs ∧ EncByte 0x36 .pshu ∧
  (∀ (sp : StackReg) (v : Byte) (st : State),
    let a := getReg16 sp.reg st - 1#16
    let st1 := setReg16 sp.reg a st
    push8 sp v st = memWrite a v st1 ∧
    (0x4000 ≤ a.toNat → push8 sp v st = st1) ∧
    (0x3FE0 ≤ a.toNat → a.toNat < 0x4000 → push8 sp v st = asicWrite a v st1) ∧
    (a.toNat < 0x3FE0 → push8 sp v st =
      if protectedWrite st.board a then { st1 with board.violationCount := st.board.violationCount + 1 }
      else { st1 with board.ram := st.board.ram.write a.toNat v })) ∧
  (∀ (list : Byte) (st : State),
    let image := listImage list st.regs st.regs.u
    ∃ t, exec (.pshs list) st = .next t ∧
      t.regs = { st.regs with s := st.regs.s - BitVec.ofNat 16 image.length } ∧
      t.counters = st.counters ∧ t.fault = st.fault ∧
      t = { storeImage (st.regs.s - BitVec.ofNat 16 image.length) image st with regs := t.regs } ∧
      StoreFrame (st.regs.s - BitVec.ofNat 16 image.length) image.length st t ∧
      (st.board.ram.wf = true → st.PlainBytes (st.regs.s - BitVec.ofNat 16 image.length) image.length →
        Stored (st.regs.s - BitVec.ofNat 16 image.length) image st t)) ∧
  (∀ (list : Byte) (st : State),
    let image := listImage list st.regs st.regs.s
    ∃ t, exec (.pshu list) st = .next t ∧
      t.regs = { st.regs with u := st.regs.u - BitVec.ofNat 16 image.length } ∧
      t.counters = st.counters ∧ t.fault = st.fault ∧
      t = { storeImage (st.regs.u - BitVec.ofNat 16 image.length) image st with regs := t.regs } ∧
      StoreFrame (st.regs.u - BitVec.ofNat 16 image.length) image.length st t ∧
      (st.board.ram.wf = true → st.PlainBytes (st.regs.u - BitVec.ofNat 16 image.length) image.length →
        Stored (st.regs.u - BitVec.ofNat 16 image.length) image st t))

/-- R192, R193: PULS and PULU, for every register list; a register that is not listed never changes. -/
def Obligations.PullRegisters : Prop :=
  EncByte 0x35 .puls ∧ EncByte 0x37 .pulu ∧ Pulls .s .puls ∧ Pulls .u .pulu

/-! ### Arithmetic, compare, logic -/

/-- R156, R200–R203: addition of bytes. -/
def Obligations.AddBytes : Prop :=
  EncSrc8 0x8B 0x9B 0xAB 0xBB .adda ∧ EncSrc8 0xCB 0xDB 0xEB 0xFB .addb ∧
  EncSrc8 0x89 0x99 0xA9 0xB9 .adca ∧ EncSrc8 0xC9 0xD9 0xE9 0xF9 .adcb ∧
  ByteAlu true .a .adda (fun a m cc r cc' => Add8Rule a m false cc r cc') ∧
  ByteAlu true .b .addb (fun a m cc r cc' => Add8Rule a m false cc r cc') ∧
  ByteAlu true .a .adca (fun a m cc r cc' => Add8Rule a m (getFlag cc .c) cc r cc') ∧
  ByteAlu true .b .adcb (fun a m cc r cc' => Add8Rule a m (getFlag cc .c) cc r cc')

/-- R157, R205–R208, R210, R211: subtraction and comparison of bytes; a comparison writes no register. -/
def Obligations.SubtractCompareBytes : Prop :=
  EncSrc8 0x80 0x90 0xA0 0xB0 .suba ∧ EncSrc8 0xC0 0xD0 0xE0 0xF0 .subb ∧
  EncSrc8 0x82 0x92 0xA2 0xB2 .sbca ∧ EncSrc8 0xC2 0xD2 0xE2 0xF2 .sbcb ∧
  EncSrc8 0x81 0x91 0xA1 0xB1 .cmpa ∧ EncSrc8 0xC1 0xD1 0xE1 0xF1 .cmpb ∧
  ByteAlu true .a .suba (fun a m cc r cc' => Sub8Rule a m false cc r cc') ∧
  ByteAlu true .b .subb (fun a m cc r cc' => Sub8Rule a m false cc r cc') ∧
  ByteAlu true .a .sbca (fun a m cc r cc' => Sub8Rule a m (getFlag cc .c) cc r cc') ∧
  ByteAlu true .b .sbcb (fun a m cc r cc' => Sub8Rule a m (getFlag cc .c) cc r cc') ∧
  ByteAlu false .a .cmpa (fun a m cc r cc' => Sub8Rule a m false cc r cc') ∧
  ByteAlu false .b .cmpb (fun a m cc r cc' => Sub8Rule a m false cc r cc')

/-- R158, R159, R204, R209, R212–R216: word addition, subtraction and comparison. -/
def Obligations.WordArithmetic : Prop :=
  EncSrc16 [] 0xC3 0xD3 0xE3 0xF3 .addd ∧ EncSrc16 [] 0x83 0x93 0xA3 0xB3 .subd ∧
  EncSrc16 [0x10] 0x83 0x93 0xA3 0xB3 .cmpd ∧ EncSrc16 [] 0x8C 0x9C 0xAC 0xBC .cmpx ∧
  EncSrc16 [0x10] 0x8C 0x9C 0xAC 0xBC .cmpy ∧ EncSrc16 [0x11] 0x83 0x93 0xA3 0xB3 .cmpu ∧
  EncSrc16 [0x11] 0x8C 0x9C 0xAC 0xBC .cmps ∧
  WordAlu true .d .addd Add16Rule ∧ WordAlu true .d .subd Sub16Rule ∧
  WordAlu false .d .cmpd Sub16Rule ∧ WordAlu false .x .cmpx Sub16Rule ∧ WordAlu false .y .cmpy Sub16Rule ∧
  WordAlu false .u .cmpu Sub16Rule ∧ WordAlu false .s .cmps Sub16Rule

/-- R217–R224: the logical instructions and bit tests, bit by bit; a bit test writes no register. -/
def Obligations.LogicBytes : Prop :=
  EncSrc8 0x84 0x94 0xA4 0xB4 .anda ∧ EncSrc8 0xC4 0xD4 0xE4 0xF4 .andb ∧
  EncSrc8 0x8A 0x9A 0xAA 0xBA .ora ∧ EncSrc8 0xCA 0xDA 0xEA 0xFA .orb ∧
  EncSrc8 0x88 0x98 0xA8 0xB8 .eora ∧ EncSrc8 0xC8 0xD8 0xE8 0xF8 .eorb ∧
  EncSrc8 0x85 0x95 0xA5 0xB5 .bita ∧ EncSrc8 0xC5 0xD5 0xE5 0xF5 .bitb ∧
  ByteAlu true .a .anda (BitwiseRule (fun x y => x && y)) ∧ ByteAlu true .b .andb (BitwiseRule (fun x y => x && y)) ∧
  ByteAlu true .a .ora (BitwiseRule (fun x y => x || y)) ∧ ByteAlu true .b .orb (BitwiseRule (fun x y => x || y)) ∧
  ByteAlu true .a .eora (BitwiseRule (fun x y => x != y)) ∧ ByteAlu true .b .eorb (BitwiseRule (fun x y => x != y)) ∧
  ByteAlu false .a .bita (BitwiseRule (fun x y => x && y)) ∧ ByteAlu false .b .bitb (BitwiseRule (fun x y => x && y))

/-- R225, R227, R228: MUL, SEX and ABX. -/
def Obligations.MultiplySignExtendAbx : Prop :=
  EncInh [] 0x3D .mul ∧ EncInh [] 0x1D .sex ∧ EncInh [] 0x3A .abx ∧
  (∀ st : State, ∃ d cc', exec .mul st = .next (setReg8 .cc cc' (setReg16 .d d st)) ∧
    d.toNat = st.regs.a.toNat * st.regs.b.toNat ∧
    FlagsBecome (flagUpdate none none (some (decide (d.toNat = 0))) none (some (d.getLsbD 7))) st.regs.cc cc') ∧
  (∀ st : State, ∃ a cc', exec .sex st = .next (setReg8 .cc cc' (setReg8 .a a st)) ∧
    (join a st.regs.b).toInt = st.regs.b.toInt ∧
    FlagsBecome (nzvc16 (join a st.regs.b) none none) st.regs.cc cc') ∧
  (∀ st : State, ∃ x, exec .abx st = .next (setReg16 .x x st) ∧ IsSum x st.regs.x st.regs.b.toNat)

/-- R226: DAA's correction, result and flags; V and H keep their value (decision D27). -/
def Obligations.DecimalAdjust : Prop :=
  EncInh [] 0x19 .daa ∧
  ∀ st : State,
    let lo := st.regs.a.toNat % 16
    let hi := st.regs.a.toNat / 16
    let low := if getFlag st.regs.cc .h = true ∨ lo > 9 then 0x06 else 0x00
    let high := if getFlag st.regs.cc .c = true ∨ hi > 9 ∨ (hi > 8 ∧ lo > 9) then 0x60 else 0x00
    let t := st.regs.a.toNat + (low + high)
    ∃ r cc', exec .daa st = .next (setReg8 .cc cc' (setReg8 .a r st)) ∧ r.toNat = t % 256 ∧
      FlagsBecome (nzvc8 r none (some (getFlag st.regs.cc .c || decide (t > 0xFF)))) st.regs.cc cc'

/-- DAA after ADDA or ADCA of two packed decimal bytes gives their decimal sum, with the carry in C. -/
def Obligations.DecimalAddition : Prop :=
  ∀ (st t u : State) (m : Byte) (i : Instr), IsDecimal st.regs.a → IsDecimal m →
    i = .adda (.imm m) ∨ i = .adca (.imm m) → exec i st = .next t → exec .daa t = .next u →
    IsDecimal u.regs.a ∧
    decimalValue u.regs.a + 100 * (getFlag u.regs.cc .c).toNat =
      decimalValue st.regs.a + decimalValue m + (if i = .adca (.imm m) then (getFlag st.regs.cc .c).toNat else 0)

/-! ### Unary, shift, rotate -/

/-- R240–R245: NEG and COM, on memory, A and B. -/
def Obligations.NegateComplement : Prop :=
  UnaryFamily 0x00 0x40 0x50 0x60 0x70 .neg .nega .negb (fun m cc r cc' =>
    r.toNat = (256 - m.toNat) % 256 ∧
    FlagsBecome (nzvc8 r (some (decide (m = 0x80#8))) (some (decide (m ≠ 0x00#8)))) cc cc') ∧
  UnaryFamily 0x03 0x43 0x53 0x63 0x73 .com .coma .comb (fun m cc r cc' =>
    r.toNat = 255 - m.toNat ∧ FlagsBecome (nzvc8 r (some false) (some true)) cc cc')

/-- R246–R254: LSR, ROR and ASR, on memory, A and B; V keeps its value. -/
def Obligations.RightShifts : Prop :=
  UnaryFamily 0x04 0x44 0x54 0x64 0x74 .lsr .lsra .lsrb (fun m cc r cc' =>
    r.toNat = m.toNat / 2 ∧
    FlagsBecome (flagUpdate none (some false) (some (decide (r.toNat = 0))) none (some (m.getLsbD 0))) cc cc') ∧
  UnaryFamily 0x06 0x46 0x56 0x66 0x76 .ror .rora .rorb (fun m cc r cc' =>
    r.toNat = 128 * (getFlag cc .c).toNat + m.toNat / 2 ∧
    FlagsBecome (nzvc8 r none (some (m.getLsbD 0))) cc cc') ∧
  UnaryFamily 0x07 0x47 0x57 0x67 0x77 .asr .asra .asrb (fun m cc r cc' =>
    r.toInt = m.toInt / 2 ∧ FlagsBecome (nzvc8 r none (some (m.getLsbD 0))) cc cc')

/-- R255–R260: ASL and ROL, on memory, A and B. -/
def Obligations.LeftShifts : Prop :=
  UnaryFamily 0x08 0x48 0x58 0x68 0x78 .asl .asla .aslb (fun m cc r cc' =>
    r.toNat = (2 * m.toNat) % 256 ∧
    FlagsBecome (nzvc8 r (some (m.getLsbD 7 != m.getLsbD 6)) (some (m.getLsbD 7))) cc cc') ∧
  UnaryFamily 0x09 0x49 0x59 0x69 0x79 .rol .rola .rolb (fun m cc r cc' =>
    r.toNat = (2 * m.toNat + (getFlag cc .c).toNat) % 256 ∧
    FlagsBecome (nzvc8 r (some (m.getLsbD 7 != m.getLsbD 6)) (some (m.getLsbD 7))) cc cc')

/-- R261–R266: DEC and INC, on memory, A and B; C keeps its value. -/
def Obligations.DecrementIncrement : Prop :=
  UnaryFamily 0x0A 0x4A 0x5A 0x6A 0x7A .dec .deca .decb (fun m cc r cc' =>
    r.toNat = (m.toNat + 255) % 256 ∧ FlagsBecome (nzvc8 r (some (decide (m = 0x80#8))) none) cc cc') ∧
  UnaryFamily 0x0C 0x4C 0x5C 0x6C 0x7C .inc .inca .incb (fun m cc r cc' =>
    r.toNat = (m.toNat + 1) % 256 ∧ FlagsBecome (nzvc8 r (some (decide (m = 0x7F#8))) none) cc cc')

/-- R267–R272: TST reads and writes flags alone; CLR is a read-modify-write (`CLR_READS_MEMORY`) that stores zero. -/
def Obligations.TestClear : Prop :=
  EncMem [] 0x0D 0x6D 0x7D .tst ∧ EncInh [] 0x4D .tsta ∧ EncInh [] 0x5D .tstb ∧
  (∀ (m : Mem) (st : State), ∃ cc', exec (.tst m) st = .next (setReg8 .cc cc' (operand8 (.mem m) st).2) ∧
    FlagsBecome (nzvc8 (operand8 (.mem m) st).1 (some false) none) st.regs.cc cc' ∧
    SameButReads (autoStep m st) (operand8 (.mem m) st).2) ∧
  (∀ st : State, ∃ cc', exec .tsta st = .next (setReg8 .cc cc' st) ∧
    FlagsBecome (nzvc8 st.regs.a (some false) none) st.regs.cc cc') ∧
  (∀ st : State, ∃ cc', exec .tstb st = .next (setReg8 .cc cc' st) ∧
    FlagsBecome (nzvc8 st.regs.b (some false) none) st.regs.cc cc') ∧
  UnaryFamily 0x0F 0x4F 0x5F 0x6F 0x7F .clr .clra .clrb (fun _ cc r cc' =>
    r = 0x00#8 ∧ FlagsBecome (flagUpdate none (some false) (some true) (some false) (some false)) cc cc')

/-! ### Branches, jumps, subroutines -/

/-- R281–R292: the short branches on one or two flags. -/
def Obligations.ShortBranches : Prop :=
  EncByte 0x20 .bra ∧ EncByte 0x21 .brn ∧ EncByte 0x22 .bhi ∧ EncByte 0x23 .bls ∧ EncByte 0x24 .bcc ∧ EncByte 0x25 .bcs ∧
  EncByte 0x26 .bne ∧ EncByte 0x27 .beq ∧ EncByte 0x28 .bvc ∧ EncByte 0x29 .bvs ∧ EncByte 0x2A .bpl ∧ EncByte 0x2B .bmi ∧
  Branches Instr.bra (fun _ => true) ∧ Branches Instr.brn (fun _ => false) ∧
  Branches Instr.bhi (fun cc => !getFlag cc .c && !getFlag cc .z) ∧
  Branches Instr.bls (fun cc => getFlag cc .c || getFlag cc .z) ∧
  Branches Instr.bcc (fun cc => !getFlag cc .c) ∧ Branches Instr.bcs (fun cc => getFlag cc .c) ∧
  Branches Instr.bne (fun cc => !getFlag cc .z) ∧ Branches Instr.beq (fun cc => getFlag cc .z) ∧
  Branches Instr.bvc (fun cc => !getFlag cc .v) ∧ Branches Instr.bvs (fun cc => getFlag cc .v) ∧
  Branches Instr.bpl (fun cc => !getFlag cc .n) ∧ Branches Instr.bmi (fun cc => getFlag cc .n)

/-- R297–R308: their long forms. -/
def Obligations.LongBranches : Prop :=
  EncWord [] 0x16 .lbra ∧ EncWord [0x10] 0x21 .lbrn ∧ EncWord [0x10] 0x22 .lbhi ∧ EncWord [0x10] 0x23 .lbls ∧
  EncWord [0x10] 0x24 .lbcc ∧ EncWord [0x10] 0x25 .lbcs ∧ EncWord [0x10] 0x26 .lbne ∧ EncWord [0x10] 0x27 .lbeq ∧
  EncWord [0x10] 0x28 .lbvc ∧ EncWord [0x10] 0x29 .lbvs ∧ EncWord [0x10] 0x2A .lbpl ∧ EncWord [0x10] 0x2B .lbmi ∧
  Branches Instr.lbra (fun _ => true) ∧ Branches Instr.lbrn (fun _ => false) ∧
  Branches Instr.lbhi (fun cc => !getFlag cc .c && !getFlag cc .z) ∧
  Branches Instr.lbls (fun cc => getFlag cc .c || getFlag cc .z) ∧
  Branches Instr.lbcc (fun cc => !getFlag cc .c) ∧ Branches Instr.lbcs (fun cc => getFlag cc .c) ∧
  Branches Instr.lbne (fun cc => !getFlag cc .z) ∧ Branches Instr.lbeq (fun cc => getFlag cc .z) ∧
  Branches Instr.lbvc (fun cc => !getFlag cc .v) ∧ Branches Instr.lbvs (fun cc => getFlag cc .v) ∧
  Branches Instr.lbpl (fun cc => !getFlag cc .n) ∧ Branches Instr.lbmi (fun cc => getFlag cc .n)

/-- R293–R296, R309–R312: the branches on a signed comparison, short and long. -/
def Obligations.SignedBranches : Prop :=
  EncByte 0x2C .bge ∧ EncByte 0x2D .blt ∧ EncByte 0x2E .bgt ∧ EncByte 0x2F .ble ∧
  EncWord [0x10] 0x2C .lbge ∧ EncWord [0x10] 0x2D .lblt ∧ EncWord [0x10] 0x2E .lbgt ∧ EncWord [0x10] 0x2F .lble ∧
  Branches Instr.bge (fun cc => decide (getFlag cc .n = getFlag cc .v)) ∧
  Branches Instr.blt (fun cc => decide (getFlag cc .n ≠ getFlag cc .v)) ∧
  Branches Instr.bgt (fun cc => !getFlag cc .z && decide (getFlag cc .n = getFlag cc .v)) ∧
  Branches Instr.ble (fun cc => getFlag cc .z || decide (getFlag cc .n ≠ getFlag cc .v)) ∧
  Branches Instr.lbge (fun cc => decide (getFlag cc .n = getFlag cc .v)) ∧
  Branches Instr.lblt (fun cc => decide (getFlag cc .n ≠ getFlag cc .v)) ∧
  Branches Instr.lbgt (fun cc => !getFlag cc .z && decide (getFlag cc .n = getFlag cc .v)) ∧
  Branches Instr.lble (fun cc => getFlag cc .z || decide (getFlag cc .n ≠ getFlag cc .v))

/-- R280's last sentences: the pairs are complements, and after CMPA the unsigned branches compare A with M as unsigned numbers,
the signed ones as two's complement numbers. -/
def Obligations.CompareThenBranch : Prop :=
  (∀ cc : Byte,
    Cond.rn.holds cc = !Cond.ra.holds cc ∧ Cond.ls.holds cc = !Cond.hi.holds cc ∧ Cond.cs.holds cc = !Cond.cc.holds cc ∧
    Cond.eq.holds cc = !Cond.ne.holds cc ∧ Cond.vs.holds cc = !Cond.vc.holds cc ∧ Cond.mi.holds cc = !Cond.pl.holds cc ∧
    Cond.lt.holds cc = !Cond.ge.holds cc ∧ Cond.le.holds cc = !Cond.gt.holds cc) ∧
  (∀ (m : Src8) (st : State), ∃ t, exec (.cmpa m) st = .next t ∧
    let a := st.regs.a
    let v := (operand8 m st).1
    Cond.hi.holds t.regs.cc = decide (a.toNat > v.toNat) ∧ Cond.ls.holds t.regs.cc = decide (a.toNat ≤ v.toNat) ∧
    Cond.cc.holds t.regs.cc = decide (a.toNat ≥ v.toNat) ∧ Cond.cs.holds t.regs.cc = decide (a.toNat < v.toNat) ∧
    Cond.ne.holds t.regs.cc = decide (a ≠ v) ∧ Cond.eq.holds t.regs.cc = decide (a = v) ∧
    Cond.ge.holds t.regs.cc = decide (a.toInt ≥ v.toInt) ∧ Cond.lt.holds t.regs.cc = decide (a.toInt < v.toInt) ∧
    Cond.gt.holds t.regs.cc = decide (a.toInt > v.toInt) ∧ Cond.le.holds t.regs.cc = decide (a.toInt ≤ v.toInt))

/-- R313, R314, R316: BSR, LBSR and JSR push the next instruction's address on S, wherever S points, then go to their target;
JSR's address is computed first, with its register update. -/
def Obligations.SubroutineCalls : Prop :=
  EncByte 0x8D .bsr ∧ EncWord [] 0x17 .lbsr ∧ EncMem [] 0x9D 0xAD 0xBD .jsr ∧
  (∀ (rr : Byte) (st : State), ∃ t target, exec (.bsr rr) st = .next t ∧ IsSum target st.regs.pc rr.toInt ∧
    Calls target st st t) ∧
  (∀ (rr : Word) (st : State), ∃ t target, exec (.lbsr rr) st = .next t ∧ IsSum target st.regs.pc rr.toInt ∧
    Calls target st st t) ∧
  (∀ (m : Mem) (st : State), ∃ t, exec (.jsr m) st = .next t ∧ SameButReads (autoStep m st) (ea m st).2 ∧
    Calls (ea m st).1 st (ea m st).2 t)

/-- R315, R317, R318: JMP, RTS (the same as `PULS PC`) and NOP. -/
def Obligations.JumpReturnNop : Prop :=
  EncMem [] 0x0E 0x6E 0x7E .jmp ∧ EncInh [] 0x39 .rts ∧ EncInh [] 0x12 .nop ∧
  (∀ (m : Mem) (st : State), exec (.jmp m) st = .next (setReg16 .pc (ea m st).1 (ea m st).2) ∧
    SameButReads (autoStep m st) (ea m st).2) ∧
  (∀ st : State, ∃ t, exec .rts st = .next t ∧ exec (.puls 0x80#8) st = .next t ∧
    t = { readAll st.regs.s 2 st with
      regs := { st.regs with pc := wordOf (readByte st st.regs.s) 0, s := st.regs.s + 2#16 } } ∧
    SameButReads { st with regs := t.regs } t ∧
    t.regs = { st.regs with
      pc := join (peek st st.regs.s) (peek (readEffect st.regs.s st) (st.regs.s + 1#16))
      s := st.regs.s + 2#16 } ∧
    (NoIo st.regs.s 2 →
      t = { st with regs := { st.regs with pc := wordAt st st.regs.s, s := st.regs.s + 2#16 } })) ∧
  (∀ st : State, exec .nop st = .next st)

/-! ### Memory and the ASIC registers -/

/-- R74, R76: what each region reads, and which reads change anything. -/
def Obligations.MemoryReads : Prop :=
  ∀ (st : State) (a : Word),
    (isIo a = true ↔ 0x3FE0 ≤ a.toNat ∧ a.toNat ≤ 0x3FE0 + 31) ∧
    (isIo a = true → peek st a = asicValue a st.board ∧ readEffect a st = asicReadEffect a st) ∧
    (a.toNat < 0x3FE0 → peek st a = st.board.ram.read a.toNat) ∧
    (0x4000 ≤ a.toNat → a.toNat < 0x8000 →
      (st.board.romBank = 62#8 → peek st a = st.board.systemRom.read (a.toNat - 0x4000)) ∧
      (st.board.romBank = 63#8 → peek st a = st.board.systemRom.read (0x4000 + (a.toNat - 0x4000))) ∧
      (st.board.romBank ≠ 62#8 → st.board.romBank ≠ 63#8 →
        peek st a = st.board.gameRom.read (st.board.romBank.toNat * 0x4000 + (a.toNat - 0x4000)) ∧
        (st.Inv → st.board.romBank.toNat * 0x4000 + (a.toNat - 0x4000) < st.board.romSize.pageCount * 0x4000))) ∧
    (0x8000 ≤ a.toNat → peek st a = st.board.systemRom.read (a.toNat - 0x8000)) ∧
    (a ≠ 0x3FFF#16 → a ≠ 0x3FFA#16 → a ≠ 0x3FFB#16 → readEffect a st = st)

/-- R75, R77, R79, R80: a write to ROM changes nothing; a write to protected RAM is dropped and counted; a write to other RAM is
read back and changes no other address; of a word only one of whose bytes is protected the other is stored. -/
def Obligations.MemoryWrites : Prop :=
  (∀ (st : State) (a : Word),
    protectedWrite st.board a = true ↔ ∃ m, st.board.protMask = some m ∧ Params.protHit m a = true) ∧
  (∀ (st : State) (a : Word) (v : Byte),
    (isIo a = true → memWrite a v st = asicWrite a v st) ∧
    (0x4000 ≤ a.toNat → memWrite a v st = st) ∧
    (a.toNat < 0x3FE0 → protectedWrite st.board a = true →
      memWrite a v st = { st with board.violationCount := st.board.violationCount + 1 }) ∧
    (a.toNat < 0x3FE0 → protectedWrite st.board a = false →
      memWrite a v st = { st with board.ram := (memWrite a v st).board.ram } ∧
      (st.board.ram.wf = true → peek (memWrite a v st) a = v) ∧
      (∀ b, b ≠ a → peek (memWrite a v st) b = peek st b))) ∧
  (∀ (st : State) (a v : Word), a.toNat < 0x3FDF → st.board.ram.wf = true →
    protectedWrite st.board a ≠ protectedWrite st.board (a + 1#16) →
    (memWrite16 a v st).board.violationCount = st.board.violationCount + 1 ∧
    peek (memWrite16 a v st) a = (if protectedWrite st.board a then peek st a else hi v) ∧
    peek (memWrite16 a v st) (a + 1#16) = (if protectedWrite st.board a then lo v else peek st (a + 1#16)))

/-- R371–R375: the solenoid, lamp, GI and switch-column registers: what a write changes, and that a read gives the byte back. -/
def Obligations.AsicOutputs : Prop :=
  ∀ (st : State) (v : Byte),
    (∀ k : Fin 4, ∃ sol,
      memWrite (0x3FE0#16 + BitVec.ofNat 16 k.val) v st =
        { st with board.ram := st.board.ram.write (0x3FE0 + k.val) v, board.sol := sol } ∧
      ∀ j : Fin 4, sol[j] = if j = k then v else st.board.sol[j]) ∧
    memWrite 0x3FE4#16 v st = { st with board.ram := st.board.ram.write 0x3FE4 v, board.lampRow := v } ∧
    (∃ lamps, memWrite 0x3FE5#16 v st =
        { st with board.ram := st.board.ram.write 0x3FE5 v, board.lampCol := v, board.lamps := lamps } ∧
      ∀ (c r : Fin 8) (k : Fin 64), k.val = 8 * c.val + r.val →
        lamps[k] = if v.getLsbD c.val then (if st.board.lampRow.getLsbD r.val then Params.lampLit else 0x00#8)
          else st.board.lamps[k]) ∧
    Params.lampLit ≠ 0x00#8 ∧
    memWrite 0x3FE6#16 v st = { st with board.ram := st.board.ram.write 0x3FE6 v, board.gi := v } ∧
    memWrite 0x3FEA#16 v st = { st with board.ram := st.board.ram.write 0x3FEA v, board.swCol := v } ∧
    (st.board.ram.wf = true → ∀ a : Word, 0x3FE0 ≤ a.toNat → a.toNat ≤ 0x3FE6 ∨ a.toNat = 0x3FEA →
      peek (memWrite a v st) a = v)

/-- R376–R379: the switch row, cabinet, jumper and FIRQ-clear registers. -/
def Obligations.AsicInputs : Prop :=
  (∀ (st : State) (r : Fin 8), (peek st 0x3FE9#16).getLsbD r.val =
    decide (∃ c : Fin 8, st.board.swCol.getLsbD c.val = true ∧ st.board.switches[c][r] = true)) ∧
  (∀ st : State, st.board.swCol = 0x00#8 → peek st 0x3FE9#16 = 0x00#8) ∧
  (∀ st : State, peek st 0x3FE8#16 = st.board.cabinet ∧ peek st 0x3FE7#16 = Params.jumperByte ∧
    peek st 0x3FF8#16 = if st.board.firqSourceDmd = true then 0x00#8 else 0x80#8) ∧
  (∀ (st : State) (v : Byte) (a : Word), a = 0x3FE7#16 ∨ a = 0x3FE8#16 ∨ a = 0x3FE9#16 →
    memWrite a v st = { st with board.ram := st.board.ram.write a.toNat v }) ∧
  (∀ (st : State) (v : Byte), memWrite 0x3FF8#16 v st =
    { st with board.ram := st.board.ram.write 0x3FF8 v, latches.firqPending := false })

/-- R380–R383: the bank selector, the RAM lock and the diagnostic LED. -/
def Obligations.BankLockLed : Prop :=
  (∀ (st : State) (v : Byte), ∃ bank,
    memWrite 0x3FFC#16 v st = { st with board.ram := st.board.ram.write 0x3FFC v, board.romBank := bank } ∧
    (v = 62#8 ∨ v = 63#8 → bank = v) ∧
    (¬ (v = 62#8 ∨ v = 63#8) → bank.toNat = v.toNat % st.board.romSize.pageCount) ∧
    (st.board.romSize = .pages64 → v = 0xFF#8 → bank = 63#8)) ∧
  (∀ st : State, (peek st 0x3FFC#16).toNat = st.board.romBank.toNat % st.board.romSize.pageCount) ∧
  (∀ (st : State) (v : Byte),
    memWrite 0x3FFD#16 v st = { st with board.ram := st.board.ram.write 0x3FFD v } ∧
    memWrite 0x3FFE#16 v st =
      { st with
        board.ram := st.board.ram.write 0x3FFE v
        board.protMask :=
          if st.board.ram.read 0x3FFD = Params.ramUnlockValue then some (Params.protMaskOf v) else st.board.protMask } ∧
    (∀ a, st.board.protMask.isSome = true → (memWrite a v st).board.protMask.isSome = true) ∧
    memWrite 0x3FF2#16 v st =
      { st with
        board.ram := st.board.ram.write 0x3FF2 v
        board.ledToggleCount := st.board.ledToggleCount + (if v ≠ st.board.ram.read 0x3FF2 then 1 else 0) } ∧
    (st.board.ram.wf = true → ∀ a, a = 0x3FF2#16 ∨ a = 0x3FFD#16 ∨ a = 0x3FFE#16 → peek (memWrite a v st) a = v))

/-- Derived from R384–R389: the zero-cross register, the shift registers, the clock and the unlisted addresses. R388 gives the
ranges of the clock and what its writes store; that a read of it adds one to a count of draws is the model's own form of the
oracle (log 5). -/
def Obligations.ZeroCrossShiftClock : Prop :=
  (∀ (st : State) (v : Byte), memWrite 0x3FFF#16 v st =
    { st with
      board.ram := st.board.ram.write 0x3FFF v
      latches.irqPending := st.latches.irqPending && !v.getLsbD 7
      board.periodicIrqEnabled := (st.board.periodicIrqEnabled != v.getLsbD 4) }) ∧
  (∀ st : State,
    (peek st 0x3FFF#16).toNat = 128 * st.board.zcFlag.toNat + (st.board.ram.read 0x3FFF).toNat % 128 ∧
    readEffect 0x3FFF#16 st = { st with board.zcFlag := false } ∧
    (peek (readEffect 0x3FFF#16 st) 0x3FFF#16).getLsbD 7 = false) ∧
  (∀ st : State,
    let s := (st.board.ram.read 0x3FF5).toNat + (st.board.ram.read 0x3FF6).toNat / 8
    (peek st 0x3FF5#16).toNat = s % 256 ∧
    (peek st 0x3FF4#16).toNat = ((st.board.ram.read 0x3FF4).toNat + s / 256) % 256 ∧
    (peek st 0x3FF6#16).toNat = 2 ^ ((st.board.ram.read 0x3FF6).toNat % 8) ∧
    (peek st 0x3FF7#16).toNat = 2 ^ ((st.board.ram.read 0x3FF7).toNat % 8)) ∧
  (∀ st : State, (peek st 0x3FFA#16).toNat < 24 ∧ (peek st 0x3FFB#16).toNat < 60 ∧
    readEffect 0x3FFA#16 st = { st with board.rtcDraws := st.board.rtcDraws + 1 } ∧
    readEffect 0x3FFB#16 st = { st with board.rtcDraws := st.board.rtcDraws + 1 }) ∧
  (∀ (st : State) (v : Byte) (a : Word),
    a = 0x3FF4#16 ∨ a = 0x3FF5#16 ∨ a = 0x3FF6#16 ∨ a = 0x3FF7#16 ∨ a = 0x3FFA#16 ∨ a = 0x3FFB#16 →
    memWrite a v st = { st with board.ram := st.board.ram.write a.toNat v }) ∧
  (∀ (st : State) (v : Byte) (a : Word),
    (0x3FEB ≤ a.toNat ∧ a.toNat ≤ 0x3FF1) ∨ a.toNat = 0x3FF3 ∨ a.toNat = 0x3FF9 →
    memWrite a v st = { st with board.ram := st.board.ram.write a.toNat v } ∧
    peek st a = st.board.ram.read a.toNat ∧ readEffect a st = st)

/-! ### Timers and driving loops -/

/-- R390, R391: the ASIC's tick accounting and the periodic IRQ source; each threshold is subtracted at most once. -/
def Obligations.Timers : Prop :=
  0 < Params.ticksPerZeroCross ∧ 0 < Params.irqPeriodTicks ∧
  ∀ (n : Nat) (st : State),
    (st.board.zcAccum + n < Params.ticksPerZeroCross →
      asicExecuteCycle n st = { st with board.zcAccum := st.board.zcAccum + n }) ∧
    (Params.ticksPerZeroCross ≤ st.board.zcAccum + n →
      asicExecuteCycle n st =
        { st with board.zcFlag := true, board.zcAccum := st.board.zcAccum + n - Params.ticksPerZeroCross }) ∧
    (st.board.irqAccum + n < Params.irqPeriodTicks →
      periodicIrq n st = { st with board.irqAccum := st.board.irqAccum + n }) ∧
    (Params.irqPeriodTicks ≤ st.board.irqAccum + n → st.board.periodicIrqEnabled = false →
      periodicIrq n st = { st with board.irqAccum := st.board.irqAccum + n - Params.irqPeriodTicks }) ∧
    (Params.irqPeriodTicks ≤ st.board.irqAccum + n → st.board.periodicIrqEnabled = true →
      periodicIrq n st =
        { st with
          board.irqAccum := st.board.irqAccum + n - Params.irqPeriodTicks
          latches.irqPending := true
          counters.missedIrqCount := st.counters.missedIrqCount + (getFlag st.regs.cc .i).toNat })

/-- R393, R395: in a live session both `executeCycle` calls run the driving loop to its end, whatever the budget: they stop when
the ticks used reach the budget, or on a fault; a budget of 0 executes nothing. In a dead one they answer the fault (R350). -/
def Obligations.ExecuteCycle : Prop :=
  ∀ (budget : Nat) (st : State),
    (st.fault = none →
      Drives (fun _ s => s) budget 0 st (cpuExecuteCycle budget st) ∧
      Drives boardTicks budget 0 st (boardExecuteCycle budget st) ∧
      cpuExecuteCycle 0 st = .done 0 st ∧ boardExecuteCycle 0 st = .done 0 st) ∧
    (∀ f, st.fault = some f →
      cpuExecuteCycle budget st = .fault f st ∧ boardExecuteCycle budget st = .fault f st) ∧
    (∀ used t, cpuExecuteCycle budget st = .done used t → budget ≤ used) ∧
    (∀ used t, boardExecuteCycle budget st = .done used t → budget ≤ used)

/-! ### Reset and bring-up -/

/-- Derived from R420: `reset()`. A, B, X, Y, U, S take `RESET_REG_VALUES`, which the spec leaves OPEN; that it is one parameter
for A and B and one for X, Y, U and S is the model's own (log 2), and nothing of their values is used. -/
def Obligations.ResetEffect : Prop :=
  ∀ st : State,
    resetCpu st = { st with
      latches := { irqPending := false, firqPending := false, nmiPending := false, wait := .none }
      regs := { a := Params.resetAcc, b := Params.resetAcc, x := Params.resetIndex, y := Params.resetIndex
                u := Params.resetIndex, s := Params.resetIndex, pc := romWord st.board 0x7FFE, dp := 0x00#8, cc := 0x50#8 } } ∧
    (∀ fl, getFlag (resetCpu st).regs.cc fl = decide (fl = .f ∨ fl = .i))

/-- Derived from R421, R422: bring-up succeeds exactly when every input is there and of the right size; then every byte of the
buffers reads where it belongs, PC holds the reset vector and all other state has its session-start value. The model's own in
it: the values of A, B, X, Y, U, S in `Regs.afterReset` (log 2), the count of clock draws in `Board.start` (log 5), the cut
of a longer RAM buffer at 0x4000 bytes and which wrong input is named (log 19). -/
def Obligations.SessionBringUp : Prop :=
  (∀ (cfg : BringUp) (sys game ram : List Byte),
    cfg.systemRom = some sys → cfg.gameRom = some game → cfg.ram = some ram →
    cfg.hasClearIrqFlag = true → cfg.hasClearFirqFlag = true → sys.length = 32768 →
    cfg.pages = 8 ∨ cfg.pages = 16 ∨ cfg.pages = 32 ∨ cfg.pages = 64 → game.length = cfg.pages * 0x4000 →
    0x4000 ≤ ram.length →
    ∃ st size, bringUp cfg = .next st ∧ size.pageCount = cfg.pages ∧ st.Inv ∧
      st.board = Board.start st.board.ram st.board.systemRom st.board.gameRom size ∧
      (∀ k, k < 0x4000 → st.board.ram.read k = ram.getD k 0x00#8) ∧
      (∀ k, k < 0x8000 → st.board.systemRom.read k = sys.getD k 0x00#8) ∧
      (∀ k, k < cfg.pages * 0x4000 → st.board.gameRom.read k = game.getD k 0x00#8) ∧
      st.regs = Regs.afterReset (join (sys.getD 0x7FFE 0x00#8) (sys.getD 0x7FFF 0x00#8)) ∧
      st.latches = { irqPending := false, firqPending := false, nmiPending := false, wait := .none } ∧
      st.fault = none ∧
      st.counters = { tickCount := 0, irqCount := 0, firqCount := 0, nmiCount := 0, missedIrqCount := 0 }) ∧
  (∀ cfg : BringUp,
    cfg.systemRom = none ∨ cfg.gameRom = none ∨ cfg.ram = none ∨ cfg.hasClearIrqFlag = false ∨
      cfg.hasClearFirqFlag = false ∨ (∃ sys, cfg.systemRom = some sys ∧ sys.length ≠ 32768) ∨
      (cfg.pages ≠ 8 ∧ cfg.pages ≠ 16 ∧ cfg.pages ≠ 32 ∧ cfg.pages ≠ 64) ∨
      (∃ game, cfg.gameRom = some game ∧ game.length ≠ cfg.pages * 0x4000) ∨
      (∃ ram, cfg.ram = some ram ∧ ram.length < 0x4000) →
    ∃ what, bringUp cfg = .fault (.configRejected what))

/-- R92–R97: the sound board's decoder, segment by segment; only an address of 0x10000 or more is fatal. -/
def Obligations.SoundDecoder : Prop :=
  ∀ a : Nat,
    (a < 0x2000 → resolveSound a = .target a .ram) ∧
    (0x2400 ≤ a → a < 0x2800 → resolveSound a = .target (0x2400 + a % 2) .hardware) ∧
    (0x2000 ≤ a → a < 0x4000 → ¬ (0x2400 ≤ a ∧ a < 0x2800) → resolveSound a = .target a .hardware) ∧
    (0x4000 ≤ a → a < 0xC000 → resolveSound a = .target (a - 0x4000) .bankswitched) ∧
    (0xC000 ≤ a → a < 0x10000 → resolveSound a = .target (a - 0xC000) .rom) ∧
    (0x10000 ≤ a → resolveSound a = .fatal (.soundDecodeOutOfRange a))

/-! ### Invariants -/

/-- The state of reset meets the invariant. Its empty buffers are the model's choice (log 1, log 3). -/
def Obligations.InvariantAtReset : Prop := State.reset.Inv

/-- Headline: every step keeps the invariant, from every state that meets it: memory in canonical form and in its size, a legal
bank (R52), lamps off or lit (R54), no violation counted while protection was never enabled. -/
def Obligations.StepKeepsInvariant : Prop := ∀ st t : State, st.Inv → step st = .next t → t.Inv

/-- R51: no step writes a ROM; nor the size class, the switches, the cabinet byte or the FIRQ source, which only the host
writes (R57, R61). -/
def Obligations.StepsKeepConfiguration : Prop :=
  ∀ st t : State, (cpuStep st).Leaves t ∨ step st = .next t →
    t.board.systemRom = st.board.systemRom ∧ t.board.gameRom = st.board.gameRom ∧
    t.board.romSize = st.board.romSize ∧ t.board.switches = st.board.switches ∧ t.board.cabinet = st.board.cabinet ∧
    t.board.firqSourceDmd = st.board.firqSourceDmd

/-- Headline: no instruction and no step reads a counter (R49): states that differ only in the counters step to the same
outcome, up to the counters. -/
def Obligations.CountersAreNotRead : Prop :=
  ∀ (st : State) (c : Counters),
    (∀ t, step st = .next t → ∃ c', step { st with counters := c } = .next { t with counters := c' }) ∧
    (∀ f, step st = .fault f → step { st with counters := c } = .fault f)

end Statements
end

