-- ==== Sys2Proof/Laws/Bits.lean ====
section
/-! SUPPORT. Flags of CC and the bytes of a word: one lemma per operation of Machine/Bits.lean. -/

namespace Sys2Proof.Machine

/-- Writing a flag writes that flag and no other. -/
@[simp] theorem getFlag_setFlag (fl fl' : Flag) (b : Bool) (cc : Byte) :
    getFlag (setFlag fl b cc) fl' = if fl' = fl then b else getFlag cc fl' := by
  cases fl <;> cases fl' <;> cases b <;> simp [getFlag, setFlag, Flag.pos]

/-- CC is its eight flags. -/
theorem flags_ext {cc cc' : Byte} (h : ∀ fl, getFlag cc fl = getFlag cc' fl) : cc = cc' := by
  have e := h .e; have f := h .f; have hh := h .h; have i := h .i
  have n := h .n; have z := h .z; have v := h .v; have c := h .c
  simp only [getFlag, Flag.pos] at e f hh i n z v c
  ext k hk
  rcases k with _ | _ | _ | _ | _ | _ | _ | _ | k
  · exact c
  · exact v
  · exact z
  · exact n
  · exact i
  · exact hh
  · exact f
  · exact e
  · omega

/-- The update rule of a result determines CC. -/
theorem FlagsBecome.unique {upd : FlagUpdate} {cc a b : Byte} (ha : FlagsBecome upd cc a) (hb : FlagsBecome upd cc b) :
    a = b := flags_ext fun fl => (ha fl).trans (hb fl).symm

theorem toNat_join (h l : Byte) : (join h l).toNat = h.toNat * 256 + l.toNat := by
  show (h ++ l : BitVec (8 + 8)).toNat = _
  rw [BitVec.toNat_append, Nat.shiftLeft_eq, Nat.mul_comm, ← Nat.two_pow_add_eq_or_of_lt l.isLt h.toNat]

@[simp] theorem toNat_hi (v : Word) : (hi v).toNat = v.toNat / 256 := by
  have := v.isLt
  simp only [hi, BitVec.extractLsb'_toNat, Nat.shiftRight_eq_div_pow]
  omega

@[simp] theorem toNat_lo (v : Word) : (lo v).toNat = v.toNat % 256 := by
  simp [lo, BitVec.extractLsb'_toNat]

@[simp] theorem hi_join (h l : Byte) : hi (join h l) = h := by
  apply BitVec.eq_of_toNat_eq; rw [toNat_hi, toNat_join]; omega

@[simp] theorem lo_join (h l : Byte) : lo (join h l) = l := by
  apply BitVec.eq_of_toNat_eq; rw [toNat_lo, toNat_join]; omega

@[simp] theorem join_hi_lo (v : Word) : join (hi v) (lo v) = v := by
  apply BitVec.eq_of_toNat_eq; rw [toNat_join, toNat_hi, toNat_lo]; omega

end Sys2Proof.Machine
end

