-- ==== Sys2Proof/Laws/Memory.lean ====
section
/-! SUPPORT. The memory laws: read after write, frame, the canonical form and the bound are kept, and equal reads make equal
memories. -/

namespace Sys2Proof.Machine.Memory

@[simp] theorem read_consCell (k j : Nat) (v : Byte) (m : Memory) :
    read (consCell k v m) j = if k = j ∧ v ≠ unlisted then v else read m j := by
  unfold consCell
  by_cases hv : v = unlisted <;> by_cases hk : k = j <;> simp [hv, hk, read]

/-- A write leaves every other address alone, in any cell list. -/
theorem read_write_other (m : Memory) {k j : Nat} (v : Byte) (h : j ≠ k) : read (write m k v) j = read m j := by
  induction m with
  | nil => simp [write, h.symm]
  | cons c rest ih =>
    obtain ⟨a, w⟩ := c
    simp only [write]
    split
    · simp [h.symm]
    · split
      · rename_i hka; subst hka; simp [read, h.symm]
      · simp only [read]; split
        · rfl
        · exact ih

theorem wfFrom_mono {m : Memory} {n n' : Nat} (h : n' ≤ n) (hw : wfFrom m n = true) : wfFrom m n' = true := by
  cases m with
  | nil => rfl
  | cons c rest =>
    obtain ⟨a, w⟩ := c
    simp only [wfFrom, Bool.and_eq_true, decide_eq_true_eq] at hw ⊢
    exact ⟨⟨Nat.le_trans h hw.1.1, hw.1.2⟩, hw.2⟩

/-- Nothing is listed below the bound of a canonical list. -/
theorem read_below_first {m : Memory} {n k : Nat} (hw : wfFrom m n = true) (h : k < n) : read m k = unlisted := by
  induction m generalizing n with
  | nil => rfl
  | cons c rest ih =>
    obtain ⟨a, w⟩ := c
    simp only [wfFrom, Bool.and_eq_true, decide_eq_true_eq] at hw
    have : a ≠ k := by omega
    simp only [read, this, if_false]
    exact ih hw.2 (by omega)

theorem read_write_same_from {m : Memory} {n k : Nat} (v : Byte) (hw : wfFrom m n = true) : read (write m k v) k = v := by
  induction m generalizing n with
  | nil =>
    by_cases hv : v = unlisted <;> simp [write, hv, read]
  | cons c rest ih =>
    obtain ⟨a, w⟩ := c
    have hw' := hw
    simp only [wfFrom, Bool.and_eq_true, decide_eq_true_eq] at hw
    simp only [write]
    split
    · rename_i hlt
      by_cases hv : v = unlisted
      · have : a ≠ k := by omega
        subst hv
        simp only [read_consCell, ne_eq, not_true_eq_false, and_false, if_false, read, this]
        exact read_below_first hw.2 (by omega)
      · simp [hv]
    · split
      · rename_i _ hka; subst hka
        by_cases hv : v = unlisted
        · subst hv
          simp only [read_consCell, ne_eq, not_true_eq_false, and_false, if_false]
          exact read_below_first hw.2 (by omega)
        · simp [hv]
      · rename_i hne
        have : a ≠ k := fun h => hne h.symm
        simp only [read, this, if_false]
        exact ih hw.2

/-- A read after a write of the same address gives the byte written. -/
theorem read_write_same {m : Memory} (k : Nat) (v : Byte) (hw : m.wf = true) : read (write m k v) k = v :=
  read_write_same_from v hw

theorem write_wfFrom {m : Memory} {n k : Nat} (v : Byte) (hn : n ≤ k) (hw : wfFrom m n = true) :
    wfFrom (write m k v) n = true := by
  induction m generalizing n with
  | nil => by_cases hv : v = unlisted <;> simp [write, consCell, hv, wfFrom, hn]
  | cons c rest ih =>
    obtain ⟨a, w⟩ := c
    have hw' := hw
    simp only [wfFrom, Bool.and_eq_true, decide_eq_true_eq] at hw
    simp only [write]
    split
    · unfold consCell
      split
      · exact hw'
      · rename_i hlt hv
        simp only [wfFrom, Bool.and_eq_true, decide_eq_true_eq]
        exact ⟨⟨hn, hv⟩, ⟨by omega, hw.1.2⟩, hw.2⟩
    · split
      · rename_i _ hka; subst hka
        unfold consCell
        split
        · exact wfFrom_mono (by omega) hw.2
        · rename_i hv
          simp only [wfFrom, Bool.and_eq_true, decide_eq_true_eq]
          exact ⟨⟨hn, hv⟩, hw.2⟩
      · simp only [wfFrom, Bool.and_eq_true, decide_eq_true_eq]
        exact ⟨hw.1, ih (by omega) hw.2⟩

/-- A write keeps the canonical form. -/
theorem write_wf {m : Memory} (k : Nat) (v : Byte) (hw : m.wf = true) : (write m k v).wf = true :=
  write_wfFrom v (Nat.zero_le k) hw

theorem below_consCell {m : Memory} {k n : Nat} (v : Byte) (hk : k < n) (hb : m.below n = true) :
    (consCell k v m).below n = true := by
  unfold consCell
  split
  · exact hb
  · simpa [below, hk] using hb

/-- A write below the bound keeps the bound. -/
theorem write_below {m : Memory} {k n : Nat} (v : Byte) (hk : k < n) (hb : m.below n = true) :
    (write m k v).below n = true := by
  induction m with
  | nil => exact below_consCell v hk rfl
  | cons c rest ih =>
    obtain ⟨a, w⟩ := c
    have hb' : a < n ∧ Memory.below rest n = true := by simpa [below] using hb
    simp only [write]
    split
    · exact below_consCell v hk hb
    · split
      · exact below_consCell v hk hb'.2
      · have := ih hb'.2
        simp only [below, List.all_cons, Bool.and_eq_true, decide_eq_true_eq]
        exact ⟨hb'.1, this⟩

/-- A write below the bound keeps a memory in order. -/
theorem Ok.write {m : Memory} {k n : Nat} (v : Byte) (h : m.Ok n) (hk : k < n) : (Memory.write m k v).Ok n :=
  ⟨write_wf k v h.1, write_below v hk h.2⟩

theorem ext_from {m m' : Memory} {n : Nat} (hm : wfFrom m n = true) (hm' : wfFrom m' n = true)
    (h : ∀ k, read m k = read m' k) : m = m' := by
  induction m generalizing m' n with
  | nil =>
    cases m' with
    | nil => rfl
    | cons c rest =>
      obtain ⟨a, w⟩ := c
      simp only [wfFrom, Bool.and_eq_true, decide_eq_true_eq] at hm'
      exact absurd (by simpa [read] using (h a).symm) hm'.1.2
  | cons c rest ih =>
    obtain ⟨a, w⟩ := c
    have hm0 := hm
    simp only [wfFrom, Bool.and_eq_true, decide_eq_true_eq] at hm
    cases m' with
    | nil => exact absurd (by simpa [read] using h a) hm.1.2
    | cons c' rest' =>
      obtain ⟨a', w'⟩ := c'
      have hm0' := hm'
      simp only [wfFrom, Bool.and_eq_true, decide_eq_true_eq] at hm'
      have haa : a = a' := by
        rcases Nat.lt_trichotomy a a' with hlt | heq | hgt
        · have h1 := h a
          rw [read_below_first (n := a') (m := (a', w') :: rest')
            (by simp only [wfFrom, Bool.and_eq_true, decide_eq_true_eq]; exact ⟨⟨Nat.le_refl _, hm'.1.2⟩, hm'.2⟩) hlt] at h1
          exact absurd (by simpa [read] using h1) hm.1.2
        · exact heq
        · have h1 := h a'
          rw [read_below_first (n := a) (m := (a, w) :: rest)
            (by simp only [wfFrom, Bool.and_eq_true, decide_eq_true_eq]; exact ⟨⟨Nat.le_refl _, hm.1.2⟩, hm.2⟩) hgt] at h1
          exact absurd (by simpa [read] using h1.symm) hm'.1.2
      subst haa
      have hww : w = w' := by simpa [read] using h a
      subst hww
      have : rest = rest' := by
        refine ih hm.2 hm'.2 fun k => ?_
        by_cases hk : k < a + 1
        · rw [read_below_first hm.2 hk, read_below_first hm'.2 hk]
        · have := h k
          have hne : a ≠ k := by omega
          simpa [read, hne] using this
      rw [this]

/-- Equal memories are equal data: canonical lists that read the same are the same. -/
theorem ext {m m' : Memory} (hm : m.wf = true) (hm' : m'.wf = true) (h : ∀ k, read m k = read m' k) : m = m' :=
  ext_from hm hm' h

theorem ofBytesAt_wfFrom (bs : List Byte) (k : Nat) : wfFrom (ofBytesAt k bs) k = true := by
  induction bs generalizing k with
  | nil => rfl
  | cons v rest ih =>
    simp only [ofBytesAt, consCell]
    split
    · exact wfFrom_mono (Nat.le_succ k) (ih (k + 1))
    · rename_i hv
      simp only [wfFrom, Bool.and_eq_true, decide_eq_true_eq]
      exact ⟨⟨Nat.le_refl k, hv⟩, ih (k + 1)⟩

theorem ofBytesAt_below (bs : List Byte) (k n : Nat) (h : k + bs.length ≤ n) : (ofBytesAt k bs).below n = true := by
  induction bs generalizing k with
  | nil => rfl
  | cons v rest ih =>
    simp only [List.length_cons] at h
    exact below_consCell v (by omega) (ih (k + 1) (by omega))

/-- The caller's buffers are in order. -/
theorem ofBytes_ok (bs : List Byte) (n : Nat) (h : bs.length ≤ n) : (ofBytes bs).Ok n :=
  ⟨ofBytesAt_wfFrom bs 0, ofBytesAt_below bs 0 n (by omega)⟩

theorem read_ofBytesAt (bs : List Byte) (k j : Nat) :
    read (ofBytesAt k bs) j = if k ≤ j then bs.getD (j - k) unlisted else unlisted := by
  induction bs generalizing k with
  | nil => simp [ofBytesAt, read]
  | cons v rest ih =>
    rw [ofBytesAt, read_consCell, ih]
    by_cases hj : k = j
    · subst hj
      have : ¬ k + 1 ≤ k := by omega
      by_cases hv : v = unlisted <;> simp [hv, this]
    · by_cases hlt : k ≤ j
      · have : k + 1 ≤ j := by omega
        rw [show j - k = (j - (k + 1)) + 1 by omega]
        simp [hj, hlt, this]
      · have : ¬ k + 1 ≤ j := by omega
        simp [hj, hlt, this]

/-- A buffer's byte k is read at offset k. -/
theorem read_ofBytes (bs : List Byte) (k : Nat) : read (ofBytes bs) k = bs.getD k unlisted := by
  simp [ofBytes, read_ofBytesAt]

end Sys2Proof.Machine.Memory
end

