-- ==== Sys2Proof/Laws/State.lean ====
section
/-! SUPPORT. One lemma per field per register write, and per register read, so that no later proof unfolds them. -/

namespace Sys2Proof.Machine

@[simp] theorem getReg8_a (st : State) : getReg8 .a st = st.regs.a := rfl
@[simp] theorem getReg8_b (st : State) : getReg8 .b st = st.regs.b := rfl
@[simp] theorem getReg8_cc (st : State) : getReg8 .cc st = st.regs.cc := rfl
@[simp] theorem getReg8_dp (st : State) : getReg8 .dp st = st.regs.dp := rfl
@[simp] theorem getReg16_d (st : State) : getReg16 .d st = join st.regs.a st.regs.b := rfl
@[simp] theorem getReg16_x (st : State) : getReg16 .x st = st.regs.x := rfl
@[simp] theorem getReg16_y (st : State) : getReg16 .y st = st.regs.y := rfl
@[simp] theorem getReg16_u (st : State) : getReg16 .u st = st.regs.u := rfl
@[simp] theorem getReg16_s (st : State) : getReg16 .s st = st.regs.s := rfl
@[simp] theorem getReg16_pc (st : State) : getReg16 .pc st = st.regs.pc := rfl

@[simp] theorem setReg8_a_regs (v : Byte) (st : State) : (setReg8 .a v st).regs = { st.regs with a := v } := rfl
@[simp] theorem setReg8_b_regs (v : Byte) (st : State) : (setReg8 .b v st).regs = { st.regs with b := v } := rfl
@[simp] theorem setReg8_cc_regs (v : Byte) (st : State) : (setReg8 .cc v st).regs = { st.regs with cc := v } := rfl
@[simp] theorem setReg8_dp_regs (v : Byte) (st : State) : (setReg8 .dp v st).regs = { st.regs with dp := v } := rfl
@[simp] theorem setReg16_d_regs (v : Word) (st : State) :
    (setReg16 .d v st).regs = { st.regs with a := hi v, b := lo v } := rfl
@[simp] theorem setReg16_x_regs (v : Word) (st : State) : (setReg16 .x v st).regs = { st.regs with x := v } := rfl
@[simp] theorem setReg16_y_regs (v : Word) (st : State) : (setReg16 .y v st).regs = { st.regs with y := v } := rfl
@[simp] theorem setReg16_u_regs (v : Word) (st : State) : (setReg16 .u v st).regs = { st.regs with u := v } := rfl
@[simp] theorem setReg16_s_regs (v : Word) (st : State) : (setReg16 .s v st).regs = { st.regs with s := v } := rfl
@[simp] theorem setReg16_pc_regs (v : Word) (st : State) : (setReg16 .pc v st).regs = { st.regs with pc := v } := rfl

@[simp] theorem setReg8_latches (r : Reg8) (v : Byte) (st : State) : (setReg8 r v st).latches = st.latches := by
  cases r <;> rfl
@[simp] theorem setReg8_fault (r : Reg8) (v : Byte) (st : State) : (setReg8 r v st).fault = st.fault := by
  cases r <;> rfl
@[simp] theorem setReg8_counters (r : Reg8) (v : Byte) (st : State) : (setReg8 r v st).counters = st.counters := by
  cases r <;> rfl
@[simp] theorem setReg8_board (r : Reg8) (v : Byte) (st : State) : (setReg8 r v st).board = st.board := by
  cases r <;> rfl
@[simp] theorem setReg16_latches (r : Reg16) (v : Word) (st : State) : (setReg16 r v st).latches = st.latches := by
  cases r <;> rfl
@[simp] theorem setReg16_fault (r : Reg16) (v : Word) (st : State) : (setReg16 r v st).fault = st.fault := by
  cases r <;> rfl
@[simp] theorem setReg16_counters (r : Reg16) (v : Word) (st : State) : (setReg16 r v st).counters = st.counters := by
  cases r <;> rfl
@[simp] theorem setReg16_board (r : Reg16) (v : Word) (st : State) : (setReg16 r v st).board = st.board := by
  cases r <;> rfl

/-- Every register write only replaces the register file. -/
theorem setReg8_eq (r : Reg8) (v : Byte) (st : State) : setReg8 r v st = { st with regs := (setReg8 r v st).regs } := by
  cases r <;> rfl
theorem setReg16_eq (r : Reg16) (v : Word) (st : State) :
    setReg16 r v st = { st with regs := (setReg16 r v st).regs } := by
  cases r <;> rfl

@[simp] theorem setCc_eq (cc : Byte) (st : State) : setCc cc st = setReg8 .cc cc st := rfl
@[simp] theorem setPc_eq (t : Word) (st : State) : setPc t st = setReg16 .pc t st := rfl

/-- What was written is read. -/
@[simp] theorem getReg8_setReg8_same (r : Reg8) (v : Byte) (st : State) : getReg8 r (setReg8 r v st) = v := by
  cases r <;> rfl
@[simp] theorem getReg16_setReg16_same (r : Reg16) (v : Word) (st : State) : getReg16 r (setReg16 r v st) = v := by
  cases r <;> simp

/-- An auto-step moves no 8-bit register and not the PC. -/
theorem bump_regs (r : IdxReg) (n : Word) (st : State) :
    bump r n st = { st with regs := (bump r n st).regs } ∧ (bump r n st).regs.a = st.regs.a ∧
    (bump r n st).regs.b = st.regs.b ∧ (bump r n st).regs.cc = st.regs.cc ∧ (bump r n st).regs.dp = st.regs.dp ∧
    (bump r n st).regs.pc = st.regs.pc := by
  cases r <;> exact ⟨rfl, rfl, rfl, rfl, rfl, rfl⟩

theorem autoStep_regs (m : Mem) (st : State) :
    autoStep m st = { st with regs := (autoStep m st).regs } ∧ (autoStep m st).regs.a = st.regs.a ∧
    (autoStep m st).regs.b = st.regs.b ∧ (autoStep m st).regs.cc = st.regs.cc ∧ (autoStep m st).regs.dp = st.regs.dp ∧
    (autoStep m st).regs.pc = st.regs.pc := by
  cases m with
  | dir dd => exact ⟨rfl, rfl, rfl, rfl, rfl, rfl⟩
  | ext a => exact ⟨rfl, rfl, rfl, rfl, rfl, rfl⟩
  | idx ix => cases ix <;> first | exact bump_regs _ _ _ | exact ⟨rfl, rfl, rfl, rfl, rfl, rfl⟩

@[simp] theorem autoStep_board (m : Mem) (st : State) : (autoStep m st).board = st.board := by
  rw [(autoStep_regs m st).1]
@[simp] theorem autoStep_latches (m : Mem) (st : State) : (autoStep m st).latches = st.latches := by
  rw [(autoStep_regs m st).1]
@[simp] theorem autoStep_fault (m : Mem) (st : State) : (autoStep m st).fault = st.fault := by
  rw [(autoStep_regs m st).1]
@[simp] theorem autoStep_counters (m : Mem) (st : State) : (autoStep m st).counters = st.counters := by
  rw [(autoStep_regs m st).1]
@[simp] theorem autoStep_a (m : Mem) (st : State) : (autoStep m st).regs.a = st.regs.a := (autoStep_regs m st).2.1
@[simp] theorem autoStep_b (m : Mem) (st : State) : (autoStep m st).regs.b = st.regs.b := (autoStep_regs m st).2.2.1
@[simp] theorem autoStep_cc (m : Mem) (st : State) : (autoStep m st).regs.cc = st.regs.cc :=
  (autoStep_regs m st).2.2.2.1
@[simp] theorem autoStep_dp (m : Mem) (st : State) : (autoStep m st).regs.dp = st.regs.dp :=
  (autoStep_regs m st).2.2.2.2.1
@[simp] theorem autoStep_pc (m : Mem) (st : State) : (autoStep m st).regs.pc = st.regs.pc :=
  (autoStep_regs m st).2.2.2.2.2

end Sys2Proof.Machine
end

