-- ==== Sys2Proof/Laws/Bus.lean ====
section
/-! SUPPORT. The bus: what a read returns depends on the board alone, what a read may change, and everything a byte write can
change. -/

namespace Sys2Proof.Machine

/-! ### Reads -/

/-- A read is a function of the board. -/
theorem peek_congr {st t : State} (h : t.board = st.board) (a : Word) : peek t a = peek st a :=
  congrArg (busRead · a) h

/-- Outside the I/O window a read is a function of the byte stores and of `romBank`. -/
theorem peek_of_stores {st t : State} {b : Word} (hio : isIo b = false)
    (hram : t.board.ram.read b.toNat = st.board.ram.read b.toNat) (hs : t.board.systemRom = st.board.systemRom)
    (hg : t.board.gameRom = st.board.gameRom) (hb : t.board.romBank = st.board.romBank) : peek t b = peek st b := by
  simp [peek, busRead, hio, bankedRead, hram, hs, hg, hb]

namespace SameButReads

@[refl] theorem refl (st : State) : SameButReads st st := rfl

theorem regs {st t : State} (h : SameButReads st t) : t.regs = st.regs := by rw [h]
theorem latches {st t : State} (h : SameButReads st t) : t.latches = st.latches := by rw [h]
theorem fault {st t : State} (h : SameButReads st t) : t.fault = st.fault := by rw [h]
theorem counters {st t : State} (h : SameButReads st t) : t.counters = st.counters := by rw [h]

/-- The board but for the two pieces a read may change. -/
theorem board {st t : State} (h : SameButReads st t) :
    t.board = { st.board with zcFlag := t.board.zcFlag, rtcDraws := t.board.rtcDraws } := congrArg State.board h

theorem ram {st t : State} (h : SameButReads st t) : t.board.ram = st.board.ram := by rw [h]
theorem systemRom {st t : State} (h : SameButReads st t) : t.board.systemRom = st.board.systemRom := by rw [h]
theorem gameRom {st t : State} (h : SameButReads st t) : t.board.gameRom = st.board.gameRom := by rw [h]
theorem romBank {st t : State} (h : SameButReads st t) : t.board.romBank = st.board.romBank := by rw [h]
theorem protMask {st t : State} (h : SameButReads st t) : t.board.protMask = st.board.protMask := by rw [h]

/-- Outside the I/O window every address still reads the same. -/
theorem peek {st t : State} (h : SameButReads st t) {a : Word} (hio : isIo a = false) :
    Machine.peek t a = Machine.peek st a :=
  peek_of_stores hio (by rw [h.ram]) h.systemRom h.gameRom h.romBank

theorem trans {s t u : State} (h : SameButReads s t) (h' : SameButReads t u) : SameButReads s u := by
  unfold SameButReads at *; rw [h', h]

theorem setReg8 {s t : State} (h : SameButReads s t) (r : Reg8) (v : Byte) :
    SameButReads (setReg8 r v s) (setReg8 r v t) := by
  unfold SameButReads at *; rw [h]; cases r <;> rfl

theorem setReg16 {s t : State} (h : SameButReads s t) (r : Reg16) (v : Word) :
    SameButReads (setReg16 r v s) (setReg16 r v t) := by
  unfold SameButReads at *; rw [h]; cases r <;> rfl

end SameButReads

/-- A read changes nothing but the zero-cross flag and the draws of the host clock (20_memory.md R83). -/
theorem sameButReads_readEffect (a : Word) (st : State) : SameButReads st (readEffect a st) := by
  unfold readEffect
  split
  · unfold asicReadEffect; generalize asicReg a = r; cases r <;> rfl
  · rfl

/-- A read outside the I/O window changes nothing. -/
theorem readEffect_of_not_io {a : Word} (h : isIo a = false) (st : State) : readEffect a st = st := by
  simp [readEffect, h]

@[simp] theorem readEffect_regs (a : Word) (st : State) : (readEffect a st).regs = st.regs :=
  (sameButReads_readEffect a st).regs
@[simp] theorem readEffect_latches (a : Word) (st : State) : (readEffect a st).latches = st.latches :=
  (sameButReads_readEffect a st).latches
@[simp] theorem readEffect_fault (a : Word) (st : State) : (readEffect a st).fault = st.fault :=
  (sameButReads_readEffect a st).fault
@[simp] theorem readEffect_counters (a : Word) (st : State) : (readEffect a st).counters = st.counters :=
  (sameButReads_readEffect a st).counters
@[simp] theorem readEffect_ram (a : Word) (st : State) : (readEffect a st).board.ram = st.board.ram :=
  (sameButReads_readEffect a st).ram

@[simp] theorem memRead_fst (a : Word) (st : State) : (memRead a st).1 = peek st a := rfl
@[simp] theorem memRead_snd (a : Word) (st : State) : (memRead a st).2 = readEffect a st := rfl
theorem memRead16_fst (a : Word) (st : State) :
    (memRead16 a st).1 = join (peek st a) (peek (readEffect a st) (a + 1#16)) := rfl
theorem memRead16_snd (a : Word) (st : State) : (memRead16 a st).2 = readEffect (a + 1#16) (readEffect a st) := rfl

theorem sameButReads_memRead16 (a : Word) (st : State) : SameButReads st (memRead16 a st).2 :=
  (sameButReads_readEffect a st).trans (sameButReads_readEffect _ _)

/-- Reading a register file commutes with the effect of a read. -/
theorem readEffect_setReg8 (a : Word) (r : Reg8) (v : Byte) (st : State) :
    readEffect a (setReg8 r v st) = setReg8 r v (readEffect a st) := by
  unfold readEffect
  split
  · unfold asicReadEffect; generalize asicReg a = g; cases g <;> cases r <;> rfl
  · rfl

theorem readEffect_setReg16 (a : Word) (r : Reg16) (v : Word) (st : State) :
    readEffect a (setReg16 r v st) = setReg16 r v (readEffect a st) := by
  unfold readEffect
  split
  · unfold asicReadEffect; generalize asicReg a = g; cases g <;> cases r <;> rfl
  · rfl

/-! ### Writes -/

theorem isIo_iff (a : Word) : isIo a = true ↔ 0x3FE0 ≤ a.toNat ∧ a.toNat < 0x4000 := by
  unfold isIo Params.ioBase Params.bankBase
  rw [Bool.and_eq_true, decide_eq_true_eq, decide_eq_true_eq]

/-- An address of the window is its base plus an offset below 32. -/
theorem isIo_offset {a : Word} (h : isIo a = true) : ∃ k : Fin 32, a = BitVec.ofNat 16 (0x3FE0 + k.val) := by
  rw [isIo_iff] at h
  refine ⟨⟨a.toNat - 0x3FE0, by omega⟩, BitVec.eq_of_toNat_eq ?_⟩
  simp only [BitVec.toNat_ofNat]
  omega

/-- `asicReg` names ROM_BANK at 0x3FFC alone. -/
theorem asicReg_romBank {a : Word} (hio : isIo a = true) (h : asicReg a = .romBank) : a = 0x3FFC#16 := by
  have key : ∀ k : Fin 32, asicReg (BitVec.ofNat 16 (0x3FE0 + k.val)) = .romBank →
      BitVec.ofNat 16 (0x3FE0 + k.val) = 0x3FFC#16 := by decide
  obtain ⟨k, rfl⟩ := isIo_offset hio
  exact key k h

@[simp] theorem asicWrite_regs (a : Word) (v : Byte) (st : State) : (asicWrite a v st).regs = st.regs := by
  unfold asicWrite; generalize asicReg a = r; cases r <;> rfl
@[simp] theorem asicWrite_fault (a : Word) (v : Byte) (st : State) : (asicWrite a v st).fault = st.fault := by
  unfold asicWrite; generalize asicReg a = r; cases r <;> rfl
@[simp] theorem asicWrite_counters (a : Word) (v : Byte) (st : State) : (asicWrite a v st).counters = st.counters := by
  unfold asicWrite; generalize asicReg a = r; cases r <;> rfl
@[simp] theorem asicWrite_ram (a : Word) (v : Byte) (st : State) :
    (asicWrite a v st).board.ram = st.board.ram.write a.toNat v := by
  unfold asicWrite; generalize asicReg a = r; cases r <;> rfl
@[simp] theorem asicWrite_systemRom (a : Word) (v : Byte) (st : State) :
    (asicWrite a v st).board.systemRom = st.board.systemRom := by
  unfold asicWrite; generalize asicReg a = r; cases r <;> rfl
@[simp] theorem asicWrite_gameRom (a : Word) (v : Byte) (st : State) :
    (asicWrite a v st).board.gameRom = st.board.gameRom := by
  unfold asicWrite; generalize asicReg a = r; cases r <;> rfl

/-- A byte write changes no register, no fault and no counter. -/
@[simp] theorem memWrite_regs (a : Word) (v : Byte) (st : State) : (memWrite a v st).regs = st.regs := by
  unfold memWrite; split
  · simp
  · split <;> rfl
@[simp] theorem memWrite_fault (a : Word) (v : Byte) (st : State) : (memWrite a v st).fault = st.fault := by
  unfold memWrite; split
  · simp
  · split <;> rfl
@[simp] theorem memWrite_counters (a : Word) (v : Byte) (st : State) : (memWrite a v st).counters = st.counters := by
  unfold memWrite; split
  · simp
  · split <;> rfl
@[simp] theorem memWrite_systemRom (a : Word) (v : Byte) (st : State) :
    (memWrite a v st).board.systemRom = st.board.systemRom := by
  unfold memWrite; split
  · simp
  · split <;> rfl
@[simp] theorem memWrite_gameRom (a : Word) (v : Byte) (st : State) :
    (memWrite a v st).board.gameRom = st.board.gameRom := by
  unfold memWrite; split
  · simp
  · split <;> rfl

/-- The RAM after a byte write: the old one, or the old one with that byte. -/
theorem memWrite_ram (a : Word) (v : Byte) (st : State) :
    (memWrite a v st).board.ram = st.board.ram ∨
    (a.toNat < 0x4000 ∧ (memWrite a v st).board.ram = st.board.ram.write a.toNat v) := by
  unfold memWrite
  split
  · rename_i h
    exact .inr ⟨((isIo_iff a).1 h).2, by simp⟩
  · split
    · rename_i h
      simp only [ramWrite]
      split
      · exact .inl rfl
      · exact .inr ⟨by simpa [Params.bankBase] using h, rfl⟩
    · exact .inl rfl

/-- A byte write leaves every other RAM byte alone. -/
theorem memWrite_ram_other (a : Word) (v : Byte) (st : State) {b : Word} (h : b ≠ a) :
    (memWrite a v st).board.ram.read b.toNat = st.board.ram.read b.toNat := by
  rcases memWrite_ram a v st with e | ⟨-, e⟩ <;> rw [e]
  exact Memory.read_write_other _ _ fun hab => h (BitVec.eq_of_toNat_eq hab)

/-- Only a write to 0x3FFC changes the bank. -/
theorem memWrite_romBank_other (a : Word) (v : Byte) (st : State) (h : a ≠ 0x3FFC#16) :
    (memWrite a v st).board.romBank = st.board.romBank := by
  unfold memWrite
  split
  · rename_i hio
    have hr : asicReg a ≠ .romBank := fun e => h (asicReg_romBank hio e)
    unfold asicWrite
    generalize asicReg a = r at hr
    cases r <;> first | rfl | exact absurd rfl hr
  · split <;> rfl

/-- A byte write stores nowhere but at its address. -/
theorem storeFrame_memWrite (a : Word) (v : Byte) (st : State) : StoreFrame a 1 st (memWrite a v st) := by
  have hram : ∀ b, Outside a 1 b → (memWrite a v st).board.ram.read b.toNat = st.board.ram.read b.toNat :=
    fun b hb => memWrite_ram_other a v st (by simpa using hb 0 (by omega))
  exact ⟨hram, by simp, by simp, fun h => memWrite_romBank_other a v st fun ha => by
    simpa [ha] using h 0 (by omega),
    fun b hb hio hbank => peek_of_stores hio (hram b hb) (by simp) (by simp) hbank⟩

/-- A frame from its store parts: the reads follow. -/
theorem StoreFrame.of_parts {a : Word} {n : Nat} {st t : State}
    (ram : ∀ b, Outside a n b → t.board.ram.read b.toNat = st.board.ram.read b.toNat)
    (hs : t.board.systemRom = st.board.systemRom) (hg : t.board.gameRom = st.board.gameRom)
    (hb : Outside a n 0x3FFC#16 → t.board.romBank = st.board.romBank) : StoreFrame a n st t :=
  ⟨ram, hs, hg, hb, fun b h hio hbank => peek_of_stores hio (ram b h) hs hg hbank⟩

/-- Frames compose, over the union of what they store. -/
theorem StoreFrame.trans {a b c : Word} {n m k : Nat} {s t u : State} (h : StoreFrame a n s t) (h' : StoreFrame b m t u)
    (ha : ∀ x, Outside c k x → Outside a n x) (hb : ∀ x, Outside c k x → Outside b m x) : StoreFrame c k s u :=
  .of_parts (fun x hx => (h'.ram x (hb x hx)).trans (h.ram x (ha x hx))) (h'.systemRom.trans h.systemRom)
    (h'.gameRom.trans h.gameRom) (fun hx => (h'.bank (hb _ hx)).trans (h.bank (ha _ hx)))

theorem StoreFrame.of_board {a : Word} {n : Nat} {s t t' : State} (h : StoreFrame a n s t) (e : t'.board = t.board) :
    StoreFrame a n s t' :=
  .of_parts (by rw [e]; exact h.ram) (by rw [e]; exact h.systemRom) (by rw [e]; exact h.gameRom)
    (by rw [e]; exact h.bank)

/-- Registers moved and read effects had before a store change nothing about its frame. -/
theorem StoreFrame.of_reads {a : Word} {n : Nat} {s s' t u : State} (hs : s'.board = s.board) (hr : SameButReads s' t)
    (h : StoreFrame a n t u) : StoreFrame a n s u :=
  .of_parts (fun b hb => by rw [h.ram b hb, hr.ram, hs]) (by rw [h.systemRom, hr.systemRom, hs])
    (by rw [h.gameRom, hr.gameRom, hs]) (fun hb => by rw [h.bank hb, hr.romBank, hs])

/-- Plain RAM is a matter of the protection alone. -/
theorem PlainRam.congr {s t : State} {a : Word} (h : t.board.protMask = s.board.protMask) (hp : s.PlainRam a) :
    t.PlainRam a := ⟨hp.1, by simpa only [protectedWrite, h] using hp.2⟩

/-- A word write stores nowhere but at its two addresses. -/
theorem storeFrame_memWrite16 (a v : Word) (st : State) : StoreFrame a 2 st (memWrite16 a v st) :=
  (storeFrame_memWrite a (hi v) st).trans (storeFrame_memWrite (a + 1#16) (lo v) _)
    (fun _ h k hk => h k (by omega))
    (fun x h k hk => by have := h 1 (by omega); obtain rfl : k = 0 := by omega
                        simpa using this)

/-- A byte write to plain RAM stores that byte and changes nothing else. -/
theorem memWrite_plain {st : State} {a : Word} (v : Byte) (h : st.PlainRam a) :
    memWrite a v st = { st with board.ram := st.board.ram.write a.toNat v } := by
  obtain ⟨hlt, hp⟩ := h
  have hio : isIo a = false := by simp [isIo]; intro h; omega
  have : a.toNat < Params.bankBase := by simp only [Params.ioBase, Params.bankBase] at *; omega
  simp [memWrite, hio, this, ramWrite, hp]

theorem PlainRam.isIo {st : State} {a : Word} (h : st.PlainRam a) : isIo a = false := by
  have := h.1; simp [Machine.isIo]; intro h; omega

/-- A byte stored below the I/O window changes no other address's read. -/
theorem busRead_write_other {bd : Board} {k : Nat} (v : Byte) (hk : k < 0x3FE0) {b : Word} (h : b.toNat ≠ k) :
    busRead { bd with ram := bd.ram.write k v } b = busRead bd b := by
  have far : ∀ j, 0x3FE0 ≤ j → (bd.ram.write k v).read j = bd.ram.read j :=
    fun j hj => Memory.read_write_other _ _ (by omega)
  unfold busRead
  split
  · rename_i hio
    have hb := far b.toNat ((isIo_iff b).1 hio).1
    have h4 := far 0x3FF4 (by omega); have h5 := far 0x3FF5 (by omega); have h6 := far 0x3FF6 (by omega)
    have h7 := far 0x3FF7 (by omega); have hF := far 0x3FFF (by omega)
    unfold asicValue shiftSum
    generalize asicReg b = g
    cases g <;> first | rfl | simp only [hb, h4, h5, h6, h7, hF]
  · split
    · exact Memory.read_write_other _ _ h
    · rfl

/-- Below the I/O window a read is a read of RAM. -/
theorem peek_ram {st : State} {a : Word} (h : a.toNat < 0x3FE0) : peek st a = st.board.ram.read a.toNat := by
  have hio : isIo a = false := by
    rw [← Bool.not_eq_true, isIo_iff]; omega
  have hb : a.toNat < Params.bankBase := by simp only [Params.bankBase]; omega
  rw [peek, busRead, hio, if_neg (by decide), if_pos hb]

/-- In plain RAM a byte written is read back. -/
theorem peek_memWrite_plain {st : State} {a : Word} (v : Byte) (hw : st.board.ram.wf = true) (h : st.PlainRam a) :
    peek (memWrite a v st) a = v := by
  rw [memWrite_plain v h, peek_ram h.1]
  exact Memory.read_write_same _ _ hw

/-- A write commutes with a register write. -/
theorem memWrite_setReg8 (a : Word) (v : Byte) (r : Reg8) (w : Byte) (st : State) :
    memWrite a v (setReg8 r w st) = setReg8 r w (memWrite a v st) := by
  unfold memWrite
  split
  · unfold asicWrite; generalize asicReg a = g; cases g <;> cases r <;> rfl
  · split
    · cases r <;> rfl
    · rfl

theorem memWrite_setReg16 (a : Word) (v : Byte) (r : Reg16) (w : Word) (st : State) :
    memWrite a v (setReg16 r w st) = setReg16 r w (memWrite a v st) := by
  unfold memWrite
  split
  · unfold asicWrite; generalize asicReg a = g; cases g <;> cases r <;> rfl
  · split
    · cases r <;> rfl
    · rfl

end Sys2Proof.Machine
end

