-- ==== Sys2Proof/Laws/Operands.lean ====
section
/-! SUPPORT. Operand access: computing an address and reading an operand move the base register of an auto-increment or
auto-decrement, may have the side effects of their reads, and change nothing else. -/

namespace Sys2Proof.Machine

theorem sub_one_eq (w : Word) : w - 1#16 = w + 0xFFFF#16 := by
  rw [BitVec.sub_eq_add_neg]; rfl
theorem sub_two_eq (w : Word) : w - 2#16 = w + 0xFFFE#16 := by
  rw [BitVec.sub_eq_add_neg]; rfl

theorem sameButReads_deref (ind : Bool) {st : State} {p : Word × State} (h : SameButReads st p.2) :
    SameButReads st (deref ind p).2 := by
  cases ind
  · exact h
  · exact h.trans (sameButReads_memRead16 _ _)

theorem preDec_snd (r : IdxReg) (n m : Word) (h : ∀ w : Word, w - n = w + m) (st : State) :
    (preDec r n st).2 = bump r m st := by simp only [preDec, bump, h]

/-- An indexed address: the register update of its mode, and the side effects of a pointer read. -/
theorem sameButReads_eaIndexed (ix : Indexed) (st : State) : SameButReads (autoStep (.idx ix) st) (eaIndexed ix st).2 := by
  cases ix with
  | dec1 r => rw [eaIndexed, preDec_snd r _ _ sub_one_eq]; exact .refl _
  | dec2 r ind =>
    rw [eaIndexed]
    refine sameButReads_deref ind ?_
    rw [preDec_snd r _ _ sub_two_eq]; exact .refl _
  | off5 => exact .refl _
  | inc1 => exact .refl _
  | extInd => exact sameButReads_memRead16 _ _
  | _ => exact sameButReads_deref _ (.refl _)

/-- An address of any mode. -/
theorem sameButReads_ea (m : Mem) (st : State) : SameButReads (autoStep m st) (ea m st).2 := by
  cases m with
  | idx ix => exact sameButReads_eaIndexed ix st
  | _ => exact .refl _

/-- A byte operand. -/
theorem sameButReads_operand8 (m : Src8) (st : State) : SameButReads (autoStep8 m st) (operand8 m st).2 := by
  cases m with
  | imm => exact .refl _
  | mem m => exact (sameButReads_ea m st).trans (sameButReads_readEffect _ _)

/-- A word operand. -/
theorem sameButReads_operand16 (m : Src16) (st : State) : SameButReads (autoStep16 m st) (operand16 m st).2 := by
  cases m with
  | imm => exact .refl _
  | mem m => exact (sameButReads_ea m st).trans (sameButReads_memRead16 _ _)

theorem ea_regs (m : Mem) (st : State) : (ea m st).2.regs = (autoStep m st).regs := (sameButReads_ea m st).regs
theorem operand8_regs (m : Src8) (st : State) : (operand8 m st).2.regs = (autoStep8 m st).regs :=
  (sameButReads_operand8 m st).regs
theorem operand16_regs (m : Src16) (st : State) : (operand16 m st).2.regs = (autoStep16 m st).regs :=
  (sameButReads_operand16 m st).regs

@[simp] theorem autoStep8_cc (m : Src8) (st : State) : (autoStep8 m st).regs.cc = st.regs.cc := by
  cases m <;> simp [autoStep8]
@[simp] theorem autoStep8_a (m : Src8) (st : State) : (autoStep8 m st).regs.a = st.regs.a := by
  cases m <;> simp [autoStep8]
@[simp] theorem autoStep8_b (m : Src8) (st : State) : (autoStep8 m st).regs.b = st.regs.b := by
  cases m <;> simp [autoStep8]
@[simp] theorem autoStep16_cc (m : Src16) (st : State) : (autoStep16 m st).regs.cc = st.regs.cc := by
  cases m <;> simp [autoStep16]

/-- Registers of one file read the same. -/
theorem getReg8_congr {st t : State} (r : Reg8) (h : t.regs = st.regs) : getReg8 r t = getReg8 r st := by
  cases r <;> simp [h]
theorem getReg16_congr {st t : State} (r : Reg16) (h : t.regs = st.regs) : getReg16 r t = getReg16 r st := by
  cases r <;> simp [h]

/-- No operand access changes an accumulator or CC. -/
@[simp] theorem operand8_cc (m : Src8) (st : State) : (operand8 m st).2.regs.cc = st.regs.cc := by
  rw [operand8_regs, autoStep8_cc]
@[simp] theorem operand8_a (m : Src8) (st : State) : (operand8 m st).2.regs.a = st.regs.a := by
  rw [operand8_regs, autoStep8_a]
@[simp] theorem operand8_b (m : Src8) (st : State) : (operand8 m st).2.regs.b = st.regs.b := by
  rw [operand8_regs, autoStep8_b]
@[simp] theorem operand16_cc (m : Src16) (st : State) : (operand16 m st).2.regs.cc = st.regs.cc := by
  rw [operand16_regs, autoStep16_cc]
@[simp] theorem ea_cc (m : Mem) (st : State) : (ea m st).2.regs.cc = st.regs.cc := by
  rw [ea_regs, autoStep_cc]

/-- The shape of every 8-bit accumulator instruction, from the rule of its operation. -/
theorem byteAlu_of_op {keep : Bool} {r : Reg8} {mk : Src8 → Instr} {op : Byte → Byte → Byte → Byte × Byte}
    {rule : Byte → Byte → Byte → Byte → Byte → Prop} (hr : r = .a ∨ r = .b)
    (he : ∀ m st, exec (mk m) st = .next (alu8 keep r op m st))
    (hop : ∀ a m cc, rule a m cc (op a m cc).1 (op a m cc).2) : ByteAlu keep r mk rule := by
  intro m st
  have hreg : getReg8 r (operand8 m st).2 = getReg8 r st := by rcases hr with rfl | rfl <;> simp
  refine ⟨_, _, he m st, ?_, sameButReads_operand8 m st⟩
  have := hop (getReg8 r st) (operand8 m st).1 st.regs.cc
  simpa [hreg] using this

/-- The shape of every 16-bit register instruction, from the rule of its operation. -/
theorem wordAlu_of_op {keep : Bool} {r : Reg16} {mk : Src16 → Instr} {op : Word → Word → Byte → Word × Byte}
    {rule : Word → Word → Byte → Word → Byte → Prop} (he : ∀ m st, exec (mk m) st = .next (alu16 keep r op m st))
    (hop : ∀ a m cc, rule a m cc (op a m cc).1 (op a m cc).2) : WordAlu keep r mk rule := by
  intro m st
  refine ⟨_, _, he m st, ?_, sameButReads_operand16 m st⟩
  have := hop (getReg16 r (autoStep16 m st)) (operand16 m st).1 st.regs.cc
  simpa [getReg16_congr r (operand16_regs m st)] using this

/-- The shape of every read-modify-write, from the rule of its operation. -/
theorem memModify_of_op {mk : Mem → Instr} {op : Byte → Byte → Byte × Byte} {rule : Byte → Byte → Byte → Byte → Prop}
    (he : ∀ m st, exec (mk m) st = .next (modify op m st)) (hop : ∀ m cc, rule m cc (op m cc).1 (op m cc).2) :
    MemModify mk rule := by
  intro m st
  have hr := sameButReads_ea m st
  have hq : getReg8 .cc (memRead (ea m st).1 (ea m st).2).2 = st.regs.cc := by simp
  refine ⟨(op (peek (ea m st).2 (ea m st).1) st.regs.cc).1, (op (peek (ea m st).2 (ea m st).1) st.regs.cc).2, _, he m st,
    ?_, hop _ _, hr, ?_, ?_, ?_⟩
  · simp only [modify, hq]; rfl
  · simp [modify, ea_regs]
  · refine StoreFrame.of_board (t := memWrite (ea m st).1 _ (readEffect (ea m st).1 (ea m st).2)) ?_ (setReg8_board _ _ _)
    exact .of_reads (autoStep_board m st) (hr.trans (sameButReads_readEffect _ _)) (storeFrame_memWrite _ _ _)
  · intro hw hp
    have hr' := hr.trans (sameButReads_readEffect (ea m st).1 (ea m st).2)
    rw [modify, setCc_eq, peek_congr (setReg8_board _ _ _)]
    refine (peek_memWrite_plain _ ?_ (PlainRam.congr ?_ hp)).trans ?_
    · rw [memRead_snd, hr'.ram, autoStep_board]; exact hw
    · rw [memRead_snd, hr'.protMask, autoStep_board]
    · rw [hq]; rfl

/-- The shape of every accumulator form, from the rule of its operation. -/
theorem regModify_of_op {r : Reg8} {i : Instr} {op : Byte → Byte → Byte × Byte} {rule : Byte → Byte → Byte → Byte → Prop}
    (he : ∀ st, exec i st = .next (unary op r st)) (hop : ∀ m cc, rule m cc (op m cc).1 (op m cc).2) :
    RegModify r i rule := fun st => ⟨_, _, he st, hop _ _⟩

end Sys2Proof.Machine
end

