-- ==== Sys2Proof/Laws/Stack.lean ====
section
/-! SUPPORT. The stacks: a push stores one byte just below the bytes already pushed, a pull reads upward, and the registers
that are pushed do not change on the way. -/

namespace Sys2Proof.Machine

/-! ### Outside -/

theorem outside_zero (a b : Word) : Outside a 0 b := fun _ h => absurd h (by omega)

/-- One more byte below. -/
theorem outside_below {a b : Word} {n : Nat} : Outside (a - 1#16) (n + 1) b ↔ b ≠ a - 1#16 ∧ Outside a n b := by
  have step : ∀ k : Nat, a - 1#16 + BitVec.ofNat 16 (k + 1) = a + BitVec.ofNat 16 k := fun k => by
    rw [show k + 1 = 1 + k by omega, BitVec.ofNat_add, ← BitVec.add_assoc, BitVec.sub_add_cancel]
  constructor
  · intro h
    exact ⟨by simpa using h 0 (by omega), fun k hk => by rw [← step k]; exact h (k + 1) (by omega)⟩
  · rintro ⟨h0, h⟩ k hk
    cases k with
    | zero => simpa using h0
    | succ k => rw [step k]; exact h k (by omega)

/-! ### Pushing -/

/-- The register of a stack pointer. -/
def StackReg.val (sp : StackReg) (st : State) : Word := getReg16 sp.reg st

/-- The register file with a stack pointer moved. -/
def StackReg.put (sp : StackReg) (v : Word) (r : Regs) : Regs :=
  match sp with
  | .s => { r with s := v }
  | .u => { r with u := v }

@[simp] theorem put_put (sp : StackReg) (v w : Word) (r : Regs) : sp.put v (sp.put w r) = sp.put v r := by
  cases sp <;> rfl

/-- A push moves the pointer down one and no other register. -/
theorem push8_regs (sp : StackReg) (v : Byte) (st : State) :
    (push8 sp v st).regs = sp.put (sp.val st - 1#16) st.regs := by
  cases sp <;> simp [push8, StackReg.reg, StackReg.val, StackReg.put]

theorem val_of_put {sp : StackReg} {v : Word} {r : Regs} {st : State} (h : st.regs = sp.put v r) : sp.val st = v := by
  cases sp <;> simp [StackReg.val, StackReg.reg, StackReg.put, h]

/-- A pushed byte's place in memory: just below. -/
theorem push8_eq (sp : StackReg) (v : Byte) (st : State) :
    push8 sp v st = memWrite (sp.val st - 1#16) v (setReg16 sp.reg (sp.val st - 1#16) st) := by
  cases sp <;> simp [push8, StackReg.reg, StackReg.val]

/-- `n` bytes, whose values are `bs` from the pointer upward, have been pushed since `st`: registers, and where the stores
went. -/
structure Pushed (sp : StackReg) (bs : List Byte) (st t : State) : Prop where
  regs : t.regs = sp.put (sp.val st - BitVec.ofNat 16 bs.length) st.regs
  fault : t.fault = st.fault
  counters : t.counters = st.counters
  wf : st.board.ram.wf = true → t.board.ram.wf = true
  image : t = { storeImage (sp.val st - BitVec.ofNat 16 bs.length) bs st with regs := t.regs }
  frame : StoreFrame (sp.val st - BitVec.ofNat 16 bs.length) bs.length st t
  plain : st.PlainBytes (sp.val st - BitVec.ofNat 16 bs.length) bs.length →
    t = { st with regs := t.regs, board.ram := t.board.ram }
  stored : st.board.ram.wf = true → bs.length ≤ 0x10000 →
    st.PlainBytes (sp.val st - BitVec.ofNat 16 bs.length) bs.length →
    Stored (sp.val st - BitVec.ofNat 16 bs.length) bs st t

theorem StoreFrame.refl (a : Word) (st : State) : StoreFrame a 0 st st :=
  .of_parts (fun _ _ => rfl) rfl rfl (fun _ => rfl)

theorem Pushed.nil (sp : StackReg) (st : State) : Pushed sp [] st st where
  regs := by cases sp <;> simp [StackReg.put, StackReg.val, StackReg.reg]
  fault := rfl
  counters := rfl
  wf := id
  image := rfl
  frame := StoreFrame.refl _ _
  plain := fun _ => rfl
  stored := fun _ _ _ => ⟨fun k h => absurd h (by simp), fun _ _ => rfl, rfl⟩

theorem sub_length_succ (w : Word) (n : Nat) : w - BitVec.ofNat 16 (n + 1) = w - BitVec.ofNat 16 n - 1#16 := by
  apply BitVec.eq_of_toNat_eq
  simp only [BitVec.toNat_sub, BitVec.toNat_ofNat]
  omega

/-- Addresses above a byte, within the 64 KB, are not that byte. -/
theorem above_ne (a : Word) {k : Nat} (hk : k + 1 < 0x10000) : a + BitVec.ofNat 16 k ≠ a - 1#16 := by
  intro h
  have h' : (a + BitVec.ofNat 16 k).toNat = (a - 1#16).toNat := congrArg BitVec.toNat h
  have := a.isLt
  simp only [BitVec.toNat_add, BitVec.toNat_sub, BitVec.toNat_ofNat] at h'
  omega

/-- Writing plain RAM just below an image extends it. -/
theorem Stored.below {a : Word} {bs : List Byte} {st t : State} (v : Byte) (r : Regs)
    (hlen : bs.length < 0x10000) (hp : st.PlainRam (a - 1#16)) (h : Stored a bs st t) (hwt : t.board.ram.wf = true) :
    Stored (a - 1#16) (v :: bs) st
      { t with regs := r, board.ram := t.board.ram.write (a - 1#16).toNat v } := by
  have hlt : (a - 1#16).toNat < 0x3FE0 := hp.1
  have other : ∀ b : Word, b ≠ a - 1#16 →
      busRead { t.board with ram := t.board.ram.write (a - 1#16).toNat v } b = busRead t.board b :=
    fun b hb => busRead_write_other v hlt fun e => hb (BitVec.eq_of_toNat_eq e)
  refine ⟨fun k hk => ?_, fun b hb => ?_, ?_⟩
  · cases k with
    | zero =>
      rw [show a - 1#16 + BitVec.ofNat 16 0 = a - 1#16 from BitVec.add_zero _, peek_ram hlt]
      exact Memory.read_write_same _ _ hwt
    | succ k =>
      have hk' : k < bs.length := by simpa using hk
      have e : a - 1#16 + BitVec.ofNat 16 (k + 1) = a + BitVec.ofNat 16 k := by
        rw [show k + 1 = 1 + k by omega, BitVec.ofNat_add, ← BitVec.add_assoc, BitVec.sub_add_cancel]
      rw [e]
      exact (other _ (above_ne a (by omega))).trans (h.bytes k hk')
  · obtain ⟨hb0, hb1⟩ := outside_below.1 (by simpa using hb)
    exact (other b hb0).trans (h.others b hb1)
  · conv => lhs; rw [h.state]

/-- Writes keep the canonical form of RAM. -/
theorem memWrite_wf (a : Word) (v : Byte) {st : State} (hw : st.board.ram.wf = true) :
    (memWrite a v st).board.ram.wf = true := by
  rcases memWrite_ram a v st with e | ⟨-, e⟩ <;> rw [e]
  · exact hw
  · exact Memory.write_wf _ _ hw

/-- Other registers and other RAM over states that differ in these alone. -/
theorem same_but_regs_ram {st t : State} (h : t = { st with regs := t.regs, board.ram := t.board.ram }) (r : Regs)
    (m : Memory) : ({ t with regs := r, board.ram := m } : State) = { st with regs := r, board.ram := m } := by rw [h]

/-- The bytes above the lowest one. -/
theorem plainBytes_above {st : State} {a : Word} {n : Nat} (h : st.PlainBytes (a - 1#16) (n + 1)) : st.PlainBytes a n :=
  fun k hk => by
    have := h (k + 1) (by omega)
    rwa [show k + 1 = 1 + k by omega, BitVec.ofNat_add, ← BitVec.add_assoc, BitVec.sub_add_cancel] at this

/-- A write does not look at the registers. -/
theorem memWrite_with_regs (a : Word) (v : Byte) (r : Regs) (st : State) :
    memWrite a v { st with regs := r } = { memWrite a v st with regs := r } := by
  unfold memWrite
  split
  · unfold asicWrite
    generalize asicReg a = g
    cases g <;> rfl
  · split <;> rfl

/-- One more byte below an image. -/
theorem memWrite_of_image {a : Word} {v : Byte} {m t : State} {r : Regs} (h : t = { m with regs := t.regs }) :
    memWrite a v { t with regs := r } = { memWrite a v m with regs := r } := by
  rw [h]
  exact memWrite_with_regs a v r m

/-- Stores do not look at the registers. -/
theorem storeImage_with_regs (a : Word) (bs : List Byte) (r : Regs) (st : State) :
    storeImage a bs { st with regs := r } = { storeImage a bs st with regs := r } := by
  induction bs generalizing a with
  | nil => rfl
  | cons v rest ih => rw [storeImage, storeImage, ih, memWrite_with_regs]

/-- Stores change no register, no counter and no fault. -/
theorem storeImage_keeps (a : Word) (bs : List Byte) (st : State) :
    (storeImage a bs st).regs = st.regs ∧ (storeImage a bs st).counters = st.counters ∧
      (storeImage a bs st).fault = st.fault := by
  induction bs generalizing a with
  | nil => exact ⟨rfl, rfl, rfl⟩
  | cons v rest ih => simp [storeImage, ih]

/-- One push extends the image downward. -/
theorem Pushed.push8 {sp : StackReg} {bs : List Byte} {st t : State} (v : Byte) (h : Pushed sp bs st t) :
    Pushed sp (v :: bs) st (push8 sp v t) := by
  have hval : sp.val t = sp.val st - BitVec.ofNat 16 bs.length := val_of_put h.regs
  have hsub := sub_length_succ (sp.val st) bs.length
  refine ⟨?_, ?_, ?_, ?_, ?_, ?_, ?_, ?_⟩
  · rw [push8_regs, hval, h.regs, put_put, List.length_cons, hsub]
  · rw [push8_eq, memWrite_fault, setReg16_fault, h.fault]
  · rw [push8_eq, memWrite_counters, setReg16_counters, h.counters]
  · intro hw
    rw [push8_eq]
    exact memWrite_wf _ _ (by rw [setReg16_board]; exact h.wf hw)
  · rw [List.length_cons, hsub, push8_eq, hval, storeImage, BitVec.sub_add_cancel, memWrite_regs, setReg16_eq]
    exact memWrite_of_image h.image
  · rw [push8_eq, List.length_cons, hsub, hval]
    refine h.frame.trans (t := t) (b := sp.val st - BitVec.ofNat 16 bs.length - 1#16) (m := 1) ?_
      (fun x hx => (outside_below.1 hx).2) (fun x hx k hk => ?_)
    · exact StoreFrame.of_reads (setReg16_board sp.reg _ t) (.refl _) (storeFrame_memWrite _ _ _)
    · obtain rfl : k = 0 := by omega
      simpa using (outside_below.1 hx).1
  · intro hp
    rw [List.length_cons, hsub] at hp
    have hs := h.plain (plainBytes_above hp)
    have hp0 : st.PlainRam (sp.val st - BitVec.ofNat 16 bs.length - 1#16) := by simpa using hp 0 (by omega)
    have hpt : (setReg16 sp.reg (sp.val t - 1#16) t).PlainRam (sp.val st - BitVec.ofNat 16 bs.length - 1#16) := by
      refine PlainRam.congr ?_ hp0
      rw [setReg16_board, hs]
    rw [push8_eq, hval] at *
    rw [memWrite_plain v hpt, setReg16_board]
    rw [setReg16_eq]
    exact same_but_regs_ram hs _ _
  · intro hw hlen hp
    rw [List.length_cons, hsub] at hp ⊢
    rw [List.length_cons] at hlen
    have hs := h.stored hw (by omega) (plainBytes_above hp)
    have hp0 : st.PlainRam (sp.val st - BitVec.ofNat 16 bs.length - 1#16) := by simpa using hp 0 (by omega)
    have hpt : (setReg16 sp.reg (sp.val t - 1#16) t).PlainRam (sp.val st - BitVec.ofNat 16 bs.length - 1#16) := by
      refine PlainRam.congr ?_ hp0
      rw [setReg16_board, hs.state]
    rw [push8_eq, hval] at *
    rw [memWrite_plain v hpt, setReg16_board]
    have := hs.below v (setReg16 sp.reg (sp.val st - BitVec.ofNat 16 bs.length - 1#16) t).regs (by omega) hp0 (h.wf hw)
    rw [setReg16_eq]
    exact this

theorem Pushed.push16 {sp : StackReg} {bs : List Byte} {st t : State} (v : Word) (h : Pushed sp bs st t) :
    Pushed sp (wordBytes v ++ bs) st (push16 sp v t) := (h.push8 (lo v)).push8 (hi v)

/-- A pushed register holds its value of before the pushes. -/
theorem Pushed.pushReg8 {sp : StackReg} {bs : List Byte} {st t : State} (r : Reg8) (h : Pushed sp bs st t) :
    Pushed sp (getReg8 r st :: bs) st (pushReg8 sp r t) := by
  have : getReg8 r t = getReg8 r st := by cases r <;> cases sp <;> simp [h.regs, StackReg.put]
  rw [Machine.pushReg8, this]; exact h.push8 _

theorem Pushed.pushReg16 {sp : StackReg} {bs : List Byte} {st t : State} (r : Reg16) (hr : r ≠ sp.reg)
    (h : Pushed sp bs st t) : Pushed sp (wordBytes (getReg16 r st) ++ bs) st (pushReg16 sp r t) := by
  have : getReg16 r t = getReg16 r st := by
    cases r <;> cases sp <;> first | exact absurd rfl hr | simp [h.regs, StackReg.put]
  rw [Machine.pushReg16, this]; exact h.push16 _

/-- `PushEntire` stacks the entire frame (40_addressing.md R164). -/
theorem pushed_pushEntire (st : State) : Pushed .s (entireFrame st.regs) st (pushEntire st) :=
  ((((((((Pushed.nil .s st).pushReg16 .pc (by decide)).pushReg16 .u (by decide)).pushReg16 .y (by decide)).pushReg16 .x (by decide)).pushReg8
    .dp).pushReg8 .b).pushReg8 .a).pushReg8 .cc

/-- `PushFast` stacks the fast frame (R165). -/
theorem pushed_pushFast (st : State) : Pushed .s (fastFrame st.regs) st (pushFast st) :=
  ((Pushed.nil .s st).pushReg16 .pc (by decide)).pushReg8 .cc

theorem Pushed.ifListed8 {sp : StackReg} {bs : List Byte} {st t : State} (list : Byte) (k : Nat) (r : Reg8)
    (h : Pushed sp bs st t) :
    Pushed sp ((if list.getLsbD k then [getReg8 r st] else []) ++ bs) st (ifListed list k (Machine.pushReg8 sp r) t) := by
  unfold ifListed; split
  · exact h.pushReg8 r
  · exact h

theorem Pushed.ifListed16 {sp : StackReg} {bs : List Byte} {st t : State} (list : Byte) (k : Nat) (r : Reg16)
    (hr : r ≠ sp.reg) (h : Pushed sp bs st t) :
    Pushed sp ((if list.getLsbD k then wordBytes (getReg16 r st) else []) ++ bs) st
      (ifListed list k (Machine.pushReg16 sp r) t) := by
  unfold ifListed; split
  · exact h.pushReg16 r hr
  · exact h

/-- A push of a register list stacks its image (41_load_store_transfer.md R190, R191). -/
theorem pushed_pushList {sp : StackReg} {other : Reg16} (hx : .x ≠ sp.reg) (hy : .y ≠ sp.reg) (hpc : .pc ≠ sp.reg)
    (ho : other ≠ sp.reg) (list : Byte) (st : State) :
    Pushed sp (listImage list st.regs (getReg16 other st)) st (pushList sp other list st) := by
  have h := ((((((((Pushed.nil sp st).ifListed16 list 7 .pc hpc).ifListed16 list 6 other ho).ifListed16 list 5 .y hy).ifListed16
    list 4 .x hx).ifListed8 list 3 .dp).ifListed8 list 2 .b).ifListed8 list 1 .a).ifListed8 list 0 .cc
  simpa only [listImage, List.append_nil, List.append_assoc, getReg8_cc, getReg8_a, getReg8_b, getReg8_dp, getReg16_x,
    getReg16_y, getReg16_pc, pushList] using h

/-- A word store of a call: two bytes below S. -/
theorem pushed_pushReg16 (st : State) : Pushed .s (wordBytes st.regs.pc) st (pushReg16 .s .pc st) :=
  (Pushed.nil .s st).pushReg16 .pc (by decide)

/-! ### Pulling -/

/-- A pull outside the I/O window reads the byte and moves the pointer. -/
theorem pull8_of_not_io {sp : StackReg} {st : State} (h : isIo (sp.val st) = false) :
    pull8 sp st = (peek st (sp.val st), setReg16 sp.reg (sp.val st + 1#16) st) := by
  have e := readEffect_of_not_io h st
  simp only [pull8, StackReg.val, memRead_fst, memRead_snd] at e ⊢
  rw [e]

/-- What a pull may change: the pointer, and the side effects of the read. -/
theorem sameButReads_pull8 (sp : StackReg) (st : State) :
    SameButReads (setReg16 sp.reg (sp.val st + 1#16) st) (pull8 sp st).2 := by
  have h := (sameButReads_readEffect (sp.val st) st)
  have e : getReg16 sp.reg (readEffect (sp.val st) st) = sp.val st := getReg16_congr _ h.regs
  simp only [pull8, memRead_snd]
  rw [show getReg16 sp.reg (readEffect (getReg16 sp.reg st) st) = sp.val st from e]
  exact h.setReg16 _ _

end Sys2Proof.Machine
end

