-- ==== Sys2Proof/Laws/Address.lean ====
section
/-! SUPPORT. Addresses and words: a sum modulo 65536 against the exact sum `IsSum`, sign-extended offsets, a word written to
plain RAM and read back, a word read from the fixed ROM. -/

namespace Sys2Proof.Machine

/-- A 16-bit addition is the exact sum modulo 65536. -/
theorem isSum_add (b n : Word) (k : Int) (h : (n.toNat : Int) % 65536 = k % 65536) : IsSum (b + n) b k := by
  unfold IsSum
  rw [BitVec.toNat_add]
  omega

/-- A 16-bit subtraction is the exact difference modulo 65536. -/
theorem isSum_sub (b n : Word) : IsSum (b - n) b (-(n.toNat : Int)) := by
  unfold IsSum
  rw [BitVec.toNat_sub]
  have := b.isLt
  have := n.isLt
  omega

/-- An 8-bit offset, sign-extended, is its signed value modulo 65536 (R13). -/
theorem sext8_mod (n : Byte) : ((sext8 n).toNat : Int) % 65536 = n.toInt % 65536 := by
  unfold sext8
  rw [← BitVec.toInt_signExtend_of_le (w := 8) (v := 16) (by decide), BitVec.toInt_eq_toNat_bmod]
  simp [Int.bmod]
  omega

/-- A 5-bit offset, sign-extended, is its signed value modulo 65536. -/
theorem sext5_mod (n : BitVec 5) : ((sext5 n).toNat : Int) % 65536 = n.toInt % 65536 := by
  unfold sext5
  rw [← BitVec.toInt_signExtend_of_le (w := 5) (v := 16) (by decide), BitVec.toInt_eq_toNat_bmod]
  simp [Int.bmod]
  omega

/-- A word is its signed value modulo 65536. -/
theorem int16_mod (n : Word) : (n.toNat : Int) % 65536 = n.toInt % 65536 := by
  rw [BitVec.toInt_eq_toNat_bmod]
  simp [Int.bmod]
  omega

/-- Neighbouring addresses differ. -/
theorem ne_add_one (a : Word) : a ≠ a + 1#16 := by
  intro h
  have := congrArg BitVec.toNat h
  rw [BitVec.toNat_add] at this
  have := a.isLt
  simp only [BitVec.toNat_ofNat] at *
  omega

/-- A word written to plain RAM is read back, high byte first. -/
theorem word_readback {st : State} {a v : Word} (hw : st.board.ram.wf = true) (hp : st.PlainBytes a 2) :
    join (peek (memWrite16 a v st) a) (peek (memWrite16 a v st) (a + 1#16)) = v := by
  have p0 : st.PlainRam a := by simpa using hp 0 (by decide)
  have p1 : st.PlainRam (a + 1#16) := by simpa using hp 1 (by decide)
  have e1 := memWrite_plain (hi v) p0
  have p1' : (memWrite a (hi v) st).PlainRam (a + 1#16) := PlainRam.congr (by rw [e1]) p1
  have w1 : (memWrite a (hi v) st).board.ram.wf = true := memWrite_wf _ _ hw
  rw [show memWrite16 a v st = memWrite (a + 1#16) (lo v) (memWrite a (hi v) st) from rfl,
    peek_memWrite_plain _ w1 p1', peek_ram p0.1, memWrite_ram_other _ _ _ (ne_add_one a), ← peek_ram p0.1,
    peek_memWrite_plain _ hw p0, join_hi_lo]

/-- The I/O window by its bounds, from outside. -/
theorem isIo_of_outside {a : Word} (h : a.toNat < 0x3FE0 ∨ 0x4000 ≤ a.toNat) : isIo a = false := by
  rw [← Bool.not_eq_true, isIo_iff]
  omega

/-- A byte of the fixed ROM. -/
theorem peek_rom (st : State) {a : Word} (h : 0x8000 ≤ a.toNat) :
    peek st a = st.board.systemRom.read (a.toNat - 0x8000) := by
  have h3 : ¬ a.toNat < 0x4000 := by omega
  have h4 : ¬ a.toNat < 0x8000 := by omega
  simp [peek, busRead, isIo_of_outside (.inr (by omega : 0x4000 ≤ a.toNat)), Params.bankBase, Params.fixedBase, h3, h4]

/-- A word of the fixed ROM, a vector for one: its two bytes, and nothing changes. -/
theorem memRead16_rom (v : Word) (o : Nat) (h1 : 0x8000 + o = v.toNat) (h2 : v.toNat < 0xFFFF) (st : State) :
    memRead16 v st = (romWord st.board o, st) := by
  have hn : (v + 1#16).toNat = v.toNat + 1 := by
    simp only [BitVec.toNat_add, BitVec.toNat_ofNat]
    omega
  have n1 : isIo v = false := isIo_of_outside (.inr (by omega))
  have n2 : isIo (v + 1#16) = false := isIo_of_outside (.inr (by omega))
  refine Prod.ext ?_ ?_
  · rw [memRead16_fst, readEffect_of_not_io n1, peek_rom _ (by omega), peek_rom _ (by omega), hn, romWord,
      show v.toNat - 0x8000 = o by omega, show v.toNat + 1 - 0x8000 = o + 1 by omega]
  · rw [memRead16_snd, readEffect_of_not_io n1, readEffect_of_not_io n2]

/-- A RAM write the protection hits is dropped and counted (20_memory.md R80). -/
theorem memWrite_protected {st : State} {a : Word} (v : Byte) (h : a.toNat < 0x3FE0)
    (hp : protectedWrite st.board a = true) :
    memWrite a v st = { st with board.violationCount := st.board.violationCount + 1 } := by
  have : a.toNat < 0x4000 := by omega
  simp [memWrite, isIo_of_outside (.inl h), Params.bankBase, this, ramWrite, hp]

end Sys2Proof.Machine
end

