-- ==== Sys2Proof/Laws/Asic.lean ====
section
/-! SUPPORT. The I/O window: reads and writes there are the ASIC's, a register without a read value of its own gives back the
byte written, and the small functions of the registers. -/

namespace Sys2Proof.Machine

/-- `LAMP_LIT ≠ 0` (00_scope.md R10). -/
theorem lampLit_ne_zero : Params.lampLit ≠ 0#8 := by
  intro h
  have := congrArg BitVec.toNat h
  simp only [Params.lampLit, BitVec.toNat_ofNat] at this
  have := Config.lampLitPred.isLt
  omega

theorem memWrite_of_io {a : Word} (h : isIo a = true) (v : Byte) (st : State) : memWrite a v st = asicWrite a v st := by
  simp [memWrite, h]

theorem peek_of_io {a : Word} (h : isIo a = true) (st : State) : peek st a = asicValue a st.board := by
  simp [peek, busRead, h]

/-- A register whose read value is its backing byte gives back the byte written. -/
theorem peek_memWrite_io {a : Word} (h : isIo a = true) (v : Byte) (st : State) (hw : st.board.ram.wf = true)
    (hr : ∀ bd, asicValue a bd = bd.ram.read a.toNat) : peek (memWrite a v st) a = v := by
  rw [peek_of_io h, hr, memWrite_of_io h, asicWrite_ram]
  exact Memory.read_write_same _ _ hw

theorem oneHot_toNat (v : Byte) : (oneHot v).toNat = 2 ^ (v.toNat % 8) := by revert v; decide

/-- The page mask takes a byte to a page number. -/
theorem and_pageMask_toNat (size : RomSize) (v : Byte) : (v &&& size.pageMask).toNat = v.toNat % size.pageCount := by
  cases size <;> revert v <;> decide

end Sys2Proof.Machine
end

