-- ==== Sys2Proof/Laws/Closure.lean ====
section
/-! SUPPORT. Everything a step can do, said once: an instruction is a sequence of register writes, byte writes, read effects and
wait changes; a step adds latches, counters, the fault and the tick accounting. A property closed under these holds after every
instruction and every step, so an invariant is proved by a handful of small goals. -/

namespace Sys2Proof.Machine

/-- A property kept by every primitive an instruction is made of. -/
structure ExecClosed (P : State → Prop) : Prop where
  reg8 : ∀ r v st, P st → P (setReg8 r v st)
  reg16 : ∀ r v st, P st → P (setReg16 r v st)
  write : ∀ a v st, P st → P (memWrite a v st)
  read : ∀ a st, P st → P (readEffect a st)
  wait : ∀ w st, P st → P { st with latches.wait := w }

namespace ExecClosed

variable {P : State → Prop} (hP : ExecClosed P) {st : State}
include hP

theorem write16 (a v : Word) (h : P st) : P (memWrite16 a v st) := hP.write _ _ _ (hP.write _ _ _ h)

theorem read16 (a : Word) (h : P st) : P (memRead16 a st).2 := hP.read _ _ (hP.read _ _ h)

theorem cc (v : Byte) (h : P st) : P (setCc v st) := hP.reg8 .cc v st h
theorem pc (v : Word) (h : P st) : P (setPc v st) := hP.reg16 .pc v st h

theorem fetch (h : P st) : P (fetch8 st).2 := hP.pc _ (hP.read _ _ h)

theorem deref (ind : Bool) {p : Word × State} (h : P p.2) : P (deref ind p).2 := by
  cases ind
  · exact h
  · exact hP.read16 _ h

theorem postInc (r : IdxReg) (n : Word) (h : P st) : P (postInc r n st).2 := hP.reg16 _ _ _ h
theorem preDec (r : IdxReg) (n : Word) (h : P st) : P (preDec r n st).2 := hP.reg16 _ _ _ h

theorem eaIndexed (ix : Indexed) (h : P st) : P (eaIndexed ix st).2 := by
  cases ix with
  | off5 => exact h
  | inc1 => exact hP.postInc _ _ h
  | inc2 => exact hP.deref _ (hP.postInc _ _ h)
  | dec1 => exact hP.preDec _ _ h
  | dec2 => exact hP.deref _ (hP.preDec _ _ h)
  | extInd => exact hP.read16 _ h
  | _ => exact hP.deref _ h

theorem ea (m : Mem) (h : P st) : P (ea m st).2 := by
  cases m with
  | idx ix => exact hP.eaIndexed ix h
  | _ => exact h

theorem operand8 (m : Src8) (h : P st) : P (operand8 m st).2 := by
  cases m with
  | imm => exact h
  | mem m => exact hP.read _ _ (hP.ea m h)

theorem operand16 (m : Src16) (h : P st) : P (operand16 m st).2 := by
  cases m with
  | imm => exact h
  | mem m => exact hP.read16 _ (hP.ea m h)

theorem alu8 (keep : Bool) (r : Reg8) (op : Byte → Byte → Byte → Byte × Byte) (m : Src8) (h : P st) :
    P (alu8 keep r op m st) := by
  cases keep
  · exact hP.cc _ (hP.operand8 m h)
  · exact hP.cc _ (hP.reg8 _ _ _ (hP.operand8 m h))

theorem alu16 (keep : Bool) (r : Reg16) (op : Word → Word → Byte → Word × Byte) (m : Src16) (h : P st) :
    P (alu16 keep r op m st) := by
  cases keep
  · exact hP.cc _ (hP.operand16 m h)
  · exact hP.cc _ (hP.reg16 _ _ _ (hP.operand16 m h))

theorem store8 (r : Reg8) (m : Mem) (h : P st) : P (store8 r m st) := hP.cc _ (hP.write _ _ _ (hP.ea m h))
theorem store16 (r : Reg16) (m : Mem) (h : P st) : P (store16 r m st) := hP.cc _ (hP.write16 _ _ (hP.ea m h))

theorem modify (op : Byte → Byte → Byte × Byte) (m : Mem) (h : P st) : P (modify op m st) :=
  hP.cc _ (hP.write _ _ _ (hP.read _ _ (hP.ea m h)))

theorem unary (op : Byte → Byte → Byte × Byte) (r : Reg8) (h : P st) : P (unary op r st) :=
  hP.cc _ (hP.reg8 _ _ _ h)

theorem flag (fl : Flag) (b : Bool) (h : P st) : P (writeFlag fl b st) := hP.cc _ h

theorem push8 (sp : StackReg) (v : Byte) (h : P st) : P (push8 sp v st) := hP.write _ _ _ (hP.reg16 _ _ _ h)
theorem push16 (sp : StackReg) (v : Word) (h : P st) : P (push16 sp v st) := hP.push8 _ _ (hP.push8 _ _ h)
theorem pushReg8 (sp : StackReg) (r : Reg8) (h : P st) : P (pushReg8 sp r st) := hP.push8 _ _ h
theorem pushReg16 (sp : StackReg) (r : Reg16) (h : P st) : P (pushReg16 sp r st) := hP.push16 _ _ h
theorem pull8 (sp : StackReg) (h : P st) : P (pull8 sp st).2 := hP.reg16 _ _ _ (hP.read _ _ h)
theorem pull16 (sp : StackReg) (h : P st) : P (pull16 sp st).2 := hP.pull8 _ (hP.pull8 _ h)
theorem pullReg8 (sp : StackReg) (r : Reg8) (h : P st) : P (pullReg8 sp r st) := hP.reg8 _ _ _ (hP.pull8 _ h)
theorem pullReg16 (sp : StackReg) (r : Reg16) (h : P st) : P (pullReg16 sp r st) := hP.reg16 _ _ _ (hP.pull16 _ h)

omit hP in
theorem ifListed (list : Byte) (k : Nat) {f : State → State} (hf : ∀ {s}, P s → P (f s)) (h : P st) :
    P (ifListed list k f st) := by
  unfold Machine.ifListed; split
  · exact hf h
  · exact h

theorem pushEntire (h : P st) : P (pushEntire st) :=
  hP.pushReg8 _ _ (hP.pushReg8 _ _ (hP.pushReg8 _ _ (hP.pushReg8 _ _ (hP.pushReg16 _ _ (hP.pushReg16 _ _
    (hP.pushReg16 _ _ (hP.pushReg16 _ _ h)))))))

theorem pushFast (h : P st) : P (pushFast st) := hP.pushReg8 _ _ (hP.pushReg16 _ _ h)

theorem stackFrame (f : Frame) (h : P st) : P (stackFrame f st) := by
  cases f
  · exact hP.pushEntire (hP.flag _ _ h)
  · exact hP.pushFast (hP.flag _ _ h)
  · exact h

theorem takeException (f : Frame) (mf mi : Bool) (v : Word) (h : P st) : P (takeException f mf mi v st) :=
  hP.pc _ (hP.read16 _ (hP.cc _ (hP.stackFrame f h)))

theorem returnFromException (h : P st) : P (returnFromException st) := by
  unfold Machine.returnFromException
  have h1 := hP.pullReg8 .s .cc h
  dsimp only
  split
  · exact hP.pullReg16 _ _ (hP.pullReg16 _ _ (hP.pullReg16 _ _ (hP.pullReg16 _ _ (hP.pullReg8 _ _ (hP.pullReg8 _ _
      (hP.pullReg8 _ _ h1))))))
  · exact hP.pullReg16 _ _ h1

theorem pushList (sp : StackReg) (o : Reg16) (list : Byte) (h : P st) : P (pushList sp o list st) :=
  ExecClosed.ifListed _ _ (hP.pushReg8 _ _) (ExecClosed.ifListed _ _ (hP.pushReg8 _ _) (ExecClosed.ifListed _ _ (hP.pushReg8 _ _)
    (ExecClosed.ifListed _ _ (hP.pushReg8 _ _) (ExecClosed.ifListed _ _ (hP.pushReg16 _ _) (ExecClosed.ifListed _ _ (hP.pushReg16 _ _)
      (ExecClosed.ifListed _ _ (hP.pushReg16 _ _) (ExecClosed.ifListed _ _ (hP.pushReg16 _ _) h)))))))

theorem pullList (sp : StackReg) (o : Reg16) (list : Byte) (h : P st) : P (pullList sp o list st) :=
  ExecClosed.ifListed _ _ (hP.pullReg16 _ _) (ExecClosed.ifListed _ _ (hP.pullReg16 _ _) (ExecClosed.ifListed _ _ (hP.pullReg16 _ _)
    (ExecClosed.ifListed _ _ (hP.pullReg16 _ _) (ExecClosed.ifListed _ _ (hP.pullReg8 _ _) (ExecClosed.ifListed _ _ (hP.pullReg8 _ _)
      (ExecClosed.ifListed _ _ (hP.pullReg8 _ _) (ExecClosed.ifListed _ _ (hP.pullReg8 _ _) h)))))))

theorem branchIf (k : Cond) (t : Word) (h : P st) : P (branchIf k t st) := by
  unfold Machine.branchIf; split
  · exact hP.pc _ h
  · exact h

theorem call (t : Word) (h : P st) : P (call t st) := hP.pc _ (hP.pushReg16 _ _ h)

theorem leaZ (r : Reg16) (ix : Indexed) (h : P st) : P (leaZ r ix st) :=
  hP.flag _ _ (hP.reg16 _ _ _ (hP.eaIndexed ix h))
theorem leaNoFlags (r : Reg16) (ix : Indexed) (h : P st) : P (leaNoFlags r ix st) := hP.reg16 _ _ _ (hP.eaIndexed ix h)

theorem tfr {r1 r2 : TfrReg} {t : State} (h : P st) (e : execTfr r1 r2 st = .next t) : P t := by
  cases r1 <;> cases r2 <;> simp only [execTfr, illegalPair, reduceCtorEq, Host.Outcome.next.injEq] at e
  · subst e; exact hP.reg16 _ _ _ h
  · subst e; exact hP.reg8 _ _ _ h

theorem exg {r1 r2 : TfrReg} {t : State} (h : P st) (e : execExg r1 r2 st = .next t) : P t := by
  cases r1 <;> cases r2 <;> simp only [execExg, illegalPair, reduceCtorEq, Host.Outcome.next.injEq] at e
  · subst e; exact hP.reg16 _ _ _ (hP.reg16 _ _ _ h)
  · subst e; exact hP.reg8 _ _ _ (hP.reg8 _ _ _ h)

/-- Every instruction keeps a closed property. -/
theorem exec {i : Instr} {t : State} (h : P st) (e : exec i st = .next t) : P t := by
  cases i with
  | tfr => exact hP.tfr h e
  | exg => exact hP.exg h e
  | lda | ldb | adda | addb | adca | adcb | suba | subb | sbca | sbcb | cmpa | cmpb | anda | andb | ora | orb
  | eora | eorb | bita | bitb | tst => cases e; exact hP.alu8 _ _ _ _ h
  | ldd | ldx | ldy | ldu | lds | addd | subd | cmpd | cmpx | cmpy | cmpu | cmps => cases e; exact hP.alu16 _ _ _ _ h
  | sta | stb => cases e; exact hP.store8 _ _ h
  | std | stx | sty | stu | sts => cases e; exact hP.store16 _ _ h
  | leax | leay => cases e; exact hP.leaZ _ _ h
  | leas | leau => cases e; exact hP.leaNoFlags _ _ h
  | pshs | pshu => cases e; exact hP.pushList _ _ _ h
  | puls | pulu => cases e; exact hP.pullList _ _ _ h
  | mul => cases e; exact hP.cc _ (hP.reg16 _ _ _ h)
  | daa | nega | negb | coma | comb | lsra | lsrb | rora | rorb | asra | asrb | asla | aslb | rola | rolb
  | deca | decb | inca | incb | tsta | tstb | clra | clrb => cases e; exact hP.unary _ _ h
  | sex => cases e; exact hP.cc _ (hP.reg8 _ _ _ h)
  | abx => cases e; exact hP.reg16 _ _ _ h
  | neg | com | lsr | ror | asr | asl | rol | dec | inc | clr => cases e; exact hP.modify _ _ h
  | bra | brn | bhi | bls | bcc | bcs | bne | beq | bvc | bvs | bpl | bmi | bge | blt | bgt | ble | lbra
  | lbrn | lbhi | lbls | lbcc | lbcs | lbne | lbeq | lbvc | lbvs | lbpl | lbmi | lbge | lblt | lbgt | lble => cases e; exact hP.branchIf _ _ h
  | bsr | lbsr => cases e; exact hP.call _ h
  | jmp => cases e; exact hP.pc _ (hP.ea _ h)
  | jsr => cases e; exact hP.call _ (hP.ea _ h)
  | rts => cases e; exact hP.pullReg16 _ _ h
  | nop => cases e; exact h
  | swi => injection e with e; exact e ▸ hP.takeException .entire true true 0xFFFA#16 h
  | swi2 => injection e with e; exact e ▸ hP.takeException .entire false false 0xFFF4#16 h
  | swi3 => injection e with e; exact e ▸ hP.takeException .entire false false 0xFFF2#16 h
  | rti => cases e; exact hP.returnFromException h
  | sync => cases e; exact hP.wait _ _ h
  | cwai ii => injection e with e; exact e ▸ hP.wait .cwai _ (hP.stackFrame .entire (hP.cc (getReg8 .cc st &&& ii) h))
  | andcc | orcc => cases e; exact hP.cc _ h

end ExecClosed

/-- A property kept by every primitive a step is made of. -/
structure StepClosed (P : State → Prop) : Prop extends ExecClosed P where
  latches : ∀ l st, P st → P { st with latches := l }
  counters : ∀ c st, P st → P { st with counters := c }
  fault : ∀ f st, P st → P { st with fault := f }
  zeroCross : ∀ f n st, P st → P { st with board.zcFlag := f, board.zcAccum := n }
  irqAccum : ∀ n st, P st → P { st with board.irqAccum := n }

namespace StepClosed

variable {P : State → Prop} (hP : StepClosed P) {st : State}
include hP

theorem requestIrqIf (b : Bool) (h : P st) : P (requestIrqIf b st) :=
  hP.latches _ { st with counters := (Machine.requestIrqIf b st).counters } (hP.counters _ st h)

theorem enterNmi (h : P st) : P (enterNmi st) :=
  have h1 := hP.toExecClosed.takeException (entryFrame st .entire) true true 0xFFFC#16 h
  hP.latches _ { Machine.takeException (entryFrame st .entire) true true 0xFFFC#16 st with
    counters := (Machine.enterNmi st).counters } (hP.counters _ _ h1)

theorem enterFirq (h : P st) : P (enterFirq st) :=
  have h1 := hP.toExecClosed.takeException (entryFrame st .fast) true true 0xFFF6#16 h
  hP.latches _ { Machine.takeException (entryFrame st .fast) true true 0xFFF6#16 st with
    counters := (Machine.enterFirq st).counters } (hP.counters _ _ h1)

theorem enterIrq (h : P st) : P (enterIrq st) :=
  have h1 := hP.toExecClosed.takeException (entryFrame st .entire) false true 0xFFF8#16 h
  hP.latches _ { Machine.takeException (entryFrame st .entire) false true 0xFFF8#16 st with
    counters := (Machine.enterIrq st).counters } (hP.counters _ _ h1)

theorem enter (c : IntClass) (h : P st) : P (enter c st) := by
  cases c
  · exact hP.enterNmi h
  · exact hP.enterFirq h
  · exact hP.enterIrq h

theorem wake (h : P st) : P (wake st) := by
  unfold Machine.wake; split
  · exact hP.wait _ _ h
  · exact h
  · exact h

theorem countTicks (t : Nat) (h : P st) : P (countTicks t st) := hP.counters _ _ h

theorem asicExecuteCycle (t : Nat) (h : P st) : P (asicExecuteCycle t st) := hP.zeroCross _ _ _ h

theorem periodicIrq (t : Nat) (h : P st) : P (periodicIrq t st) := hP.requestIrqIf _ (hP.irqAccum _ _ h)

theorem boardTicks (t : Nat) (h : P st) : P (boardTicks t st) := hP.periodicIrq t (hP.asicExecuteCycle t h)

/-- The state a fetch leaves. -/
theorem fetchFrom {address : Word} {fuel : Nat} {bs : List Byte} {t : State} (h : P st)
    (e : (∃ i, fetchFrom address fuel bs st = .ok i t) ∨ ∃ f, fetchFrom address fuel bs st = .bad f t) : P t := by
  induction fuel generalizing bs st with
  | zero => obtain ⟨_, e⟩ | ⟨_, e⟩ := e <;> cases e; exact h
  | succ n ih =>
    have hf := hP.toExecClosed.fetch h
    simp only [Machine.fetchFrom] at e
    split at e
    · obtain ⟨_, e⟩ | ⟨_, e⟩ := e <;> cases e; exact hf
    · obtain ⟨_, e⟩ | ⟨_, e⟩ := e <;> cases e; exact hf
    · obtain ⟨_, e⟩ | ⟨_, e⟩ := e <;> cases e; exact hf
    · obtain ⟨_, e⟩ | ⟨_, e⟩ := e <;> cases e; exact hf
    · exact ih hf e

theorem runInstr {n : Nat} {t : State} (h : P st) (e : (runInstr n st).Leaves t) : P t := by
  unfold Machine.runInstr at e
  split at e
  · rename_i f s hf
    have hs := hP.fetchFrom h (.inr ⟨_, hf⟩)
    obtain ⟨_, e⟩ | ⟨_, e⟩ | ⟨_, e⟩ := e <;> cases e
    exact hP.fault _ _ hs
  · rename_i i s hf
    have hs := hP.fetchFrom h (.inl ⟨_, hf⟩)
    split at e
    · obtain ⟨_, e⟩ | ⟨_, e⟩ | ⟨_, e⟩ := e <;> cases e
      exact hP.fault _ _ hs
    · obtain ⟨_, e⟩ | ⟨_, e⟩ | ⟨_, e⟩ := e <;> cases e
    · rename_i s2 he
      have h2 := hP.countTicks (n + Params.cycles i) (hP.toExecClosed.exec hs he)
      dsimp only at e
      split at e <;> obtain ⟨_, e⟩ | ⟨_, e⟩ | ⟨_, e⟩ := e <;> cases e <;> exact h2

/-- Every CPU step, whatever its outcome, keeps a closed property. -/
theorem cpuStep {t : State} (h : P st) (e : (cpuStep st).Leaves t) : P t := by
  unfold Machine.cpuStep at e
  split at e
  · obtain ⟨_, e⟩ | ⟨_, e⟩ | ⟨_, e⟩ := e <;> cases e
    exact h
  · split at e
    · obtain ⟨_, e⟩ | ⟨_, e⟩ | ⟨_, e⟩ := e <;> cases e
      exact hP.countTicks _ h
    · split at e
      · exact hP.runInstr (hP.wake h) e
      · exact hP.runInstr (hP.enter _ (hP.wake h)) e

/-- Every step keeps a closed property. -/
theorem step {t : State} (h : P st) (e : step st = .next t) : P t := by
  simp only [Machine.step, Machine.boardStep] at e
  split at e <;> simp only [Host.Outcome.next.injEq, reduceCtorEq] at e
  · subst e; exact hP.boardTicks _ (hP.cpuStep h (.inl ⟨_, ‹_›⟩))
  · subst e; exact hP.boardTicks _ (hP.cpuStep h (.inr (.inl ⟨_, ‹_›⟩)))

end StepClosed
end Sys2Proof.Machine
end

