-- ==== Sys2Proof/Laws/Commute.lean ====
section
/-! SUPPORT. What an instruction does not look at: a change of state that leaves registers and board alone and commutes with the
primitives an instruction is made of commutes with every instruction. -/

namespace Sys2Proof.Machine

/-- A change `h` of state that an instruction neither sees nor undoes. -/
structure ExecBlind (h : State → State) : Prop where
  regs : ∀ st, (h st).regs = st.regs
  board : ∀ st, (h st).board = st.board
  reg8 : ∀ r v st, setReg8 r v (h st) = h (setReg8 r v st)
  reg16 : ∀ r v st, setReg16 r v (h st) = h (setReg16 r v st)
  write : ∀ a v st, memWrite a v (h st) = h (memWrite a v st)
  read : ∀ a st, readEffect a (h st) = h (readEffect a st)
  wait : ∀ w st, { h st with latches.wait := w } = h { st with latches.wait := w }

/-- The outcome of an instruction, with its next state changed. -/
def Result.map (h : State → State) (r : Result) : Result :=
  match r with
  | .next st => .next (h st)
  | .fault f => .fault f
  | .refused r => .refused r

theorem ifListed_commutes {h : State → State} (list : Byte) (k : Nat) {f : State → State} (hf : ∀ s, f (h s) = h (f s))
    (st : State) : ifListed list k f (h st) = h (ifListed list k f st) := by
  unfold ifListed; split
  · exact hf st
  · rfl

namespace ExecBlind

variable {h : State → State} (hb : ExecBlind h) (st : State)
include hb

theorem get8 (r : Reg8) : getReg8 r (h st) = getReg8 r st := getReg8_congr r (hb.regs st)
theorem get16 (r : Reg16) : getReg16 r (h st) = getReg16 r st := getReg16_congr r (hb.regs st)
theorem peek (a : Word) : peek (h st) a = Machine.peek st a := peek_congr (hb.board st) a

theorem memRead (a : Word) : memRead a (h st) = ((memRead a st).1, h (memRead a st).2) :=
  Prod.ext (hb.peek st a) (hb.read a st)

theorem memRead16 (a : Word) : memRead16 a (h st) = ((memRead16 a st).1, h (memRead16 a st).2) := by
  simp only [Machine.memRead16, hb.memRead]

theorem memWrite16 (a v : Word) : memWrite16 a v (h st) = h (memWrite16 a v st) := by
  simp only [Machine.memWrite16, hb.write]

theorem deref (ind : Bool) (p : Word × State) : deref ind (p.1, h p.2) = ((deref ind p).1, h (deref ind p).2) := by
  cases ind
  · rfl
  · exact hb.memRead16 _ _

theorem eaIndexed (ix : Indexed) : eaIndexed ix (h st) = ((eaIndexed ix st).1, h (eaIndexed ix st).2) := by
  have off (r : IdxReg) (n : Word) : offsetBy r n (h st) = ((offsetBy r n st).1, h (offsetBy r n st).2) := by
    simp only [offsetBy, hb.get16]
  have inc (r : IdxReg) (n : Word) : postInc r n (h st) = ((postInc r n st).1, h (postInc r n st).2) := by
    simp only [postInc, hb.get16, hb.reg16]
  have dec (r : IdxReg) (n : Word) : preDec r n (h st) = ((preDec r n st).1, h (preDec r n st).2) := by
    simp only [preDec, hb.get16, hb.reg16]
  cases ix <;> simp only [Machine.eaIndexed, off, inc, dec, hb.deref, hb.get8, hb.get16, hb.memRead16]
  · exact hb.deref _ (_, st)
  · exact hb.deref _ (_, st)

theorem ea (m : Mem) : ea m (h st) = ((ea m st).1, h (ea m st).2) := by
  cases m with
  | dir => simp only [Machine.ea, hb.get8]
  | ext => rfl
  | idx ix => exact hb.eaIndexed st ix

theorem operand8 (m : Src8) : operand8 m (h st) = ((operand8 m st).1, h (operand8 m st).2) := by
  cases m with
  | imm => rfl
  | mem m => simp only [Machine.operand8, hb.ea, hb.memRead]

theorem operand16 (m : Src16) : operand16 m (h st) = ((operand16 m st).1, h (operand16 m st).2) := by
  cases m with
  | imm => rfl
  | mem m => simp only [Machine.operand16, hb.ea, hb.memRead16]

theorem cc (v : Byte) : setCc v (h st) = h (setCc v st) := hb.reg8 .cc v st
theorem pc (v : Word) : setPc v (h st) = h (setPc v st) := hb.reg16 .pc v st

theorem alu8 (keep : Bool) (r : Reg8) (op : Byte → Byte → Byte → Byte × Byte) (m : Src8) :
    alu8 keep r op m (h st) = h (alu8 keep r op m st) := by
  cases keep <;> simp only [Machine.alu8, hb.operand8, hb.get8, hb.cc, hb.reg8, if_true, if_false, Bool.false_eq_true]

theorem alu16 (keep : Bool) (r : Reg16) (op : Word → Word → Byte → Word × Byte) (m : Src16) :
    alu16 keep r op m (h st) = h (alu16 keep r op m st) := by
  cases keep <;>
    simp only [Machine.alu16, hb.operand16, hb.get8, hb.get16, hb.cc, hb.reg16, if_true, if_false, Bool.false_eq_true]

theorem store8 (r : Reg8) (m : Mem) : store8 r m (h st) = h (store8 r m st) := by
  simp only [Machine.store8, hb.ea, hb.get8, hb.write, hb.cc]
theorem store16 (r : Reg16) (m : Mem) : store16 r m (h st) = h (store16 r m st) := by
  simp only [Machine.store16, hb.ea, hb.get8, hb.get16, hb.memWrite16, hb.cc]
theorem modify (op : Byte → Byte → Byte × Byte) (m : Mem) : modify op m (h st) = h (modify op m st) := by
  simp only [Machine.modify, hb.ea, hb.memRead, hb.get8, hb.write, hb.cc]
theorem unary (op : Byte → Byte → Byte × Byte) (r : Reg8) : unary op r (h st) = h (unary op r st) := by
  simp only [Machine.unary, hb.get8, hb.reg8, hb.cc]
theorem flag (fl : Flag) (b : Bool) : writeFlag fl b (h st) = h (writeFlag fl b st) := by
  simp only [writeFlag, hb.get8, hb.cc]
theorem leaZ (r : Reg16) (ix : Indexed) : leaZ r ix (h st) = h (leaZ r ix st) := by
  simp only [Machine.leaZ, hb.eaIndexed, hb.reg16, hb.flag]
theorem leaNoFlags (r : Reg16) (ix : Indexed) : leaNoFlags r ix (h st) = h (leaNoFlags r ix st) := by
  simp only [Machine.leaNoFlags, hb.eaIndexed, hb.reg16]

theorem push8 (sp : StackReg) (v : Byte) : push8 sp v (h st) = h (push8 sp v st) := by
  simp only [Machine.push8, hb.get16, hb.reg16, hb.write]
theorem pushReg8 (sp : StackReg) (r : Reg8) : pushReg8 sp r (h st) = h (pushReg8 sp r st) := by
  simp only [Machine.pushReg8, hb.get8, hb.push8]
theorem pushReg16 (sp : StackReg) (r : Reg16) : pushReg16 sp r (h st) = h (pushReg16 sp r st) := by
  simp only [Machine.pushReg16, push16, hb.get16, hb.push8]
theorem pull8 (sp : StackReg) : pull8 sp (h st) = ((pull8 sp st).1, h (pull8 sp st).2) := by
  simp only [Machine.pull8, hb.get16, hb.memRead, hb.reg16]
theorem pullReg8 (sp : StackReg) (r : Reg8) : pullReg8 sp r (h st) = h (pullReg8 sp r st) := by
  simp only [Machine.pullReg8, hb.pull8, hb.reg8]
theorem pullReg16 (sp : StackReg) (r : Reg16) : pullReg16 sp r (h st) = h (pullReg16 sp r st) := by
  simp only [Machine.pullReg16, pull16, hb.pull8, hb.reg16]

theorem pushList (sp : StackReg) (o : Reg16) (list : Byte) : pushList sp o list (h st) = h (pushList sp o list st) := by
  simp only [Machine.pushList, ifListed_commutes _ _ fun s => hb.pushReg8 s _ _, ifListed_commutes _ _ fun s => hb.pushReg16 s _ _]
theorem pullList (sp : StackReg) (o : Reg16) (list : Byte) : pullList sp o list (h st) = h (pullList sp o list st) := by
  simp only [Machine.pullList, ifListed_commutes _ _ fun s => hb.pullReg8 s _ _, ifListed_commutes _ _ fun s => hb.pullReg16 s _ _]

theorem stackFrame (f : Frame) : stackFrame f (h st) = h (stackFrame f st) := by
  cases f <;> simp only [Machine.stackFrame, pushEntire, pushFast, hb.flag, hb.pushReg8, hb.pushReg16]
theorem setMasks (f i : Bool) : setMasks f i (h st) = h (setMasks f i st) := by
  simp only [Machine.setMasks, hb.get8, hb.cc]
theorem takeException (f : Frame) (mf mi : Bool) (v : Word) :
    takeException f mf mi v (h st) = h (takeException f mf mi v st) := by
  simp only [Machine.takeException, hb.stackFrame, hb.setMasks, hb.memRead16, hb.pc]
theorem returnFromException : returnFromException (h st) = h (returnFromException st) := by
  simp only [Machine.returnFromException, hb.pullReg8, hb.pullReg16, hb.get8]
  split <;> rfl

theorem branchIf (k : Cond) (t : Word) : branchIf k t (h st) = h (branchIf k t st) := by
  unfold Machine.branchIf; rw [hb.get8]; split
  · exact hb.pc st t
  · rfl
theorem call (t : Word) : call t (h st) = h (call t st) := by
  simp only [Machine.call, hb.pushReg16, hb.pc]

theorem tfr (r1 r2 : TfrReg) : execTfr r1 r2 (h st) = Result.map h (execTfr r1 r2 st) := by
  cases r1 <;> cases r2 <;> simp only [execTfr, illegalPair, hb.get8, hb.get16, hb.reg8, hb.reg16] <;> rfl
theorem exg (r1 r2 : TfrReg) : execExg r1 r2 (h st) = Result.map h (execExg r1 r2 st) := by
  cases r1 <;> cases r2 <;> simp only [execExg, illegalPair, hb.get8, hb.get16, hb.reg8, hb.reg16] <;> rfl

/-- Every instruction commutes with a change it is blind to. -/
theorem exec (i : Instr) : exec i (h st) = Result.map h (exec i st) := by
  cases i with
  | tfr => exact hb.tfr _ _ _
  | exg => exact hb.exg _ _ _
  | lda | ldb | adda | addb | adca | adcb | suba | subb | sbca | sbcb | cmpa | cmpb | anda | andb | ora | orb
  | eora | eorb | bita | bitb | tst => exact congrArg Host.Outcome.next (hb.alu8 _ _ _ _ _)
  | ldd | ldx | ldy | ldu | lds | addd | subd | cmpd | cmpx | cmpy | cmpu | cmps =>
    exact congrArg Host.Outcome.next (hb.alu16 _ _ _ _ _)
  | sta | stb => exact congrArg Host.Outcome.next (hb.store8 _ _ _)
  | std | stx | sty | stu | sts => exact congrArg Host.Outcome.next (hb.store16 _ _ _)
  | leax | leay => exact congrArg Host.Outcome.next (hb.leaZ _ _ _)
  | leas | leau => exact congrArg Host.Outcome.next (hb.leaNoFlags _ _ _)
  | pshs | pshu => exact congrArg Host.Outcome.next (hb.pushList _ _ _ _)
  | puls | pulu => exact congrArg Host.Outcome.next (hb.pullList _ _ _ _)
  | daa | nega | negb | coma | comb | lsra | lsrb | rora | rorb | asra | asrb | asla | aslb | rola | rolb
  | deca | decb | inca | incb | tsta | tstb | clra | clrb => exact congrArg Host.Outcome.next (hb.unary _ _ _)
  | mul => simp only [Machine.exec, execMul, hb.get8, hb.reg16, hb.cc]; rfl
  | sex => simp only [Machine.exec, execSex, hb.get8, hb.get16, hb.reg8, hb.cc]; rfl
  | abx => simp only [Machine.exec, execAbx, hb.get8, hb.get16, hb.reg16]; rfl
  | neg | com | lsr | ror | asr | asl | rol | dec | inc | clr => exact congrArg Host.Outcome.next (hb.modify _ _ _)
  | bra rr | brn rr | bhi rr | bls rr | bcc rr | bcs rr | bne rr | beq rr | bvc rr | bvs rr | bpl rr | bmi rr | bge rr
  | blt rr | bgt rr | ble rr =>
    refine congrArg Host.Outcome.next ?_
    rw [show target8 rr (h st) = target8 rr st by simp only [target8, hb.get16]]
    exact hb.branchIf _ _ _
  | lbra rr | lbrn rr | lbhi rr | lbls rr | lbcc rr | lbcs rr | lbne rr | lbeq rr | lbvc rr | lbvs rr | lbpl rr | lbmi rr
  | lbge rr | lblt rr | lbgt rr | lble rr =>
    refine congrArg Host.Outcome.next ?_
    rw [show target16 rr (h st) = target16 rr st by simp only [target16, hb.get16]]
    exact hb.branchIf _ _ _
  | bsr | lbsr => simp only [Machine.exec, execBsr, execLbsr, target8, target16, hb.get16, hb.call]; rfl
  | jmp => simp only [Machine.exec, execJmp, hb.ea, hb.pc]; rfl
  | jsr => simp only [Machine.exec, execJsr, hb.ea, hb.call]; rfl
  | rts => exact congrArg Host.Outcome.next (hb.pullReg16 _ _ _)
  | nop => rfl
  | swi | swi2 | swi3 => exact congrArg Host.Outcome.next (hb.takeException _ _ _ _ _)
  | rti => exact congrArg Host.Outcome.next (hb.returnFromException _)
  | sync => exact congrArg Host.Outcome.next (hb.wait _ _)
  | cwai => simp only [Machine.exec, execCwai, hb.get8, hb.cc, hb.stackFrame, hb.wait]; rfl
  | andcc | orcc => simp only [Machine.exec, execAndcc, execOrcc, hb.get8, hb.cc]; rfl

/-- A fetch commutes too. -/
theorem fetch8 : fetch8 (h st) = ((fetch8 st).1, h (fetch8 st).2) := by
  simp only [Machine.fetch8, hb.regs, hb.memRead, hb.pc]

theorem fetchFrom (address : Word) (fuel : Nat) (bs : List Byte) : fetchFrom address fuel bs (h st) =
    match fetchFrom address fuel bs st with
    | .ok i s => .ok i (h s)
    | .bad f s => .bad f (h s) := by
  induction fuel generalizing bs st with
  | zero => rfl
  | succ n ih =>
    simp only [Machine.fetchFrom, hb.fetch8]
    split <;> first | rfl | exact ih _ _

end ExecBlind
end Sys2Proof.Machine
end

