-- ==== Sys2Proof/Laws/Fetch.lean ====
section
/-! SUPPORT. Fetching: bytes that stand at PC outside the I/O window are read one by one, until the decoder has an answer. -/

namespace Sys2Proof.Machine

/-- What a fetch that has read the bytes `bs` from address `a` on ends in, by the decoder's answer. -/
def Fetched.of (a : Word) (bs : List Byte) (d : Decoded) (st : State) : Fetched :=
  match d with
  | .ok i _ => .ok i st
  | .undefinedOpcode => .bad (.undefinedOpcode a bs) st
  | .illegalPostbyte pb => .bad (.illegalPostbyte a bs.dropLast pb) st
  | .illegalRegisterCode pb => .bad (.illegalRegisterCode a bs.dropLast pb) st
  | .more => .bad (.undefinedOpcode a bs) st

/-- One more byte of code. -/
theorem fetch8_code {st : State} {a : Word} {bs : List Byte} {n : Nat} (hc : st.CodeAt a bs) (hn : n < bs.length) :
    fetch8 (setReg16 .pc (a + BitVec.ofNat 16 n) st) = (bs.getD n 0#8, setReg16 .pc (a + BitVec.ofNat 16 (n + 1)) st) := by
  obtain ⟨hio, hp⟩ := hc n hn
  have hpeek : peek (setReg16 .pc (a + BitVec.ofNat 16 n) st) (a + BitVec.ofNat 16 n) = bs.getD n 0#8 := by
    rw [peek_congr (st := st) (setReg16_board _ _ _), hp]
  simp only [fetch8, setReg16_pc_regs, memRead_fst, memRead_snd, readEffect_of_not_io hio, setPc_eq, hpeek]
  rw [BitVec.add_assoc, BitVec.ofNat_add]
  rfl

/-- A fetch of `suf` after `pre` was read: no proper extension of `pre` inside the code is complete, the whole is. -/
theorem fetchFrom_code (st : State) (a address : Word) (suf : List Byte) : ∀ (pre : List Byte) (fuel : Nat),
    st.CodeAt a (pre ++ suf) → suf.length ≤ fuel → suf ≠ [] → decode (pre ++ suf) ≠ .more →
    (∀ n, pre.length < n → n < (pre ++ suf).length → decode ((pre ++ suf).take n) = .more) →
    fetchFrom address fuel pre (setReg16 .pc (a + BitVec.ofNat 16 pre.length) st) =
      .of address (pre ++ suf) (decode (pre ++ suf))
        (setReg16 .pc (a + BitVec.ofNat 16 (pre ++ suf).length) st) := by
  induction suf with
  | nil => intro _ _ _ _ h; exact absurd rfl h
  | cons b suf ih =>
    intro pre fuel hc hf _ hd hm
    obtain _ | fuel := fuel
    · simp at hf
    have h8 : fetch8 (setReg16 .pc (a + BitVec.ofNat 16 pre.length) st) =
        (b, setReg16 .pc (a + BitVec.ofNat 16 (pre ++ [b]).length) st) := by
      rw [fetch8_code hc (by simp)]; simp
    unfold fetchFrom
    simp only [h8]
    have split : pre ++ b :: suf = (pre ++ [b]) ++ suf := by simp
    by_cases hs : suf = []
    · subst hs
      cases hx : decode (pre ++ [b]) <;> simp [Fetched.of]
      exact absurd hx hd
    · have := hm (pre.length + 1) (by omega) (by simp; exact List.length_pos_iff.mpr hs)
      rw [split, List.take_append_of_le_length (by simp), List.take_of_length_le (by simp)] at this
      simp only [this]
      rw [split] at hc hd hm ⊢
      exact ih (pre ++ [b]) fuel hc (by simpa using hf) hs hd (fun n h1 h2 => hm n (by simp at h1; omega) h2)

/-- A fetch at PC of bytes no proper part of which is complete. -/
theorem fetchInstr_code {st : State} {bs : List Byte} (hc : st.CodeAt st.regs.pc bs) (hl : bs.length ≤ 5) (h0 : bs ≠ [])
    (hd : decode bs ≠ .more) (hm : ∀ n, n < bs.length → decode (bs.take n) = .more) :
    fetchInstr st =
      .of st.regs.pc bs (decode bs) (setReg16 .pc (st.regs.pc + BitVec.ofNat 16 bs.length) st) := by
  have := fetchFrom_code st st.regs.pc st.regs.pc bs [] 5 hc hl h0 hd (fun n _ => hm n)
  simpa [fetchInstr, setReg16] using this

/-- Every well-formed instruction completes, in every state. -/
theorem exec_of_wf {i : Instr} (h : i.wf = true) (st : State) : ∃ t, exec i st = .next t := by
  cases i <;> first
    | exact ⟨_, rfl⟩
    | (rename_i r1 r2; cases r1 <;> cases r2 <;> first | exact ⟨_, rfl⟩ | exact Bool.noConfusion h)

/-- A runnable state goes straight to its instruction. -/
theorem cpuStep_of_runnable {st : State} (h : st.Runnable) : cpuStep st = runInstr 0 st := by
  obtain ⟨h1, h2, h3⟩ := h
  simp [cpuStep, h1, staysWaiting, h2, h3, wake]

end Sys2Proof.Machine
end

