-- ==== Sys2Proof/Laws/Cpu.lean ====
section
/-! SUPPORT. The CPU step: which counters it moves, where a fault leaves the state, that it never refuses and always takes a
tick. -/

namespace Sys2Proof.Machine

/-- An instruction leaves the counters alone. -/
theorem closedCounters (c : Counters) : ExecClosed (fun st => st.counters = c) where
  reg8 _ _ _ h := by simpa using h
  reg16 _ _ _ h := by simpa using h
  write _ _ _ h := by simpa using h
  read _ _ h := by simpa using h
  wait _ _ h := h

/-- An instruction leaves the fault state alone. -/
theorem closedFault (f : Option Fault) : ExecClosed (fun st => st.fault = f) where
  reg8 _ _ _ h := by simpa using h
  reg16 _ _ _ h := by simpa using h
  write _ _ _ h := by simpa using h
  read _ _ h := by simpa using h
  wait _ _ h := h

theorem fetchFrom_bad_counters {a : Word} {fuel : Nat} {bs : List Byte} {st t : State} {f : Fault}
    (h : fetchFrom a fuel bs st = .bad f t) : t.counters = st.counters := by
  induction fuel generalizing bs st with
  | zero => cases h; rfl
  | succ n ih =>
    have e : (fetch8 st).2.counters = st.counters := by simp [fetch8]
    simp only [fetchFrom] at h
    split at h <;> first
      | (cases h; done)
      | (cases h; exact e)
      | rw [ih h, e]

theorem fetchFrom_ok_counters {a : Word} {fuel : Nat} {bs : List Byte} {st t : State} {i : Instr}
    (h : fetchFrom a fuel bs st = .ok i t) : t.counters = st.counters := by
  induction fuel generalizing bs st with
  | zero => cases h
  | succ n ih =>
    have e : (fetch8 st).2.counters = st.counters := by simp [fetch8]
    simp only [fetchFrom] at h
    split at h <;> first
      | (cases h; done)
      | (cases h; exact e)
      | rw [ih h, e]

/-- Each entry counts itself and nothing else (60_exceptions.md R362–R364). -/
theorem enter_counters (st : State) :
    (enter .irq st).counters = { st.counters with irqCount := st.counters.irqCount + 1 } ∧
    (enter .firq st).counters = { st.counters with firqCount := st.counters.firqCount + 1 } ∧
    (enter .nmi st).counters = { st.counters with nmiCount := st.counters.nmiCount + 1 } := by
  have h := fun f mf mi v => (closedCounters st.counters).takeException (st := st) f mf mi v rfl
  refine ⟨?_, ?_, ?_⟩ <;> simp only [enter, enterIrq, enterFirq, enterNmi, h]

/-- Waking changes the wait state only. -/
theorem wake_keeps (st : State) :
    (wake st).counters = st.counters ∧ (wake st).regs = st.regs ∧ (wake st).board = st.board ∧
      (wake st).fault = st.fault := by
  unfold wake
  split <;> simp

/-- A fault of `runInstr` is recorded in the state it leaves (R350). -/
theorem runInstr_fault {t : Nat} {st s : State} {f : Fault} (h : runInstr t st = .fault f s) : s.fault = some f := by
  unfold runInstr at h
  split at h
  · cases h; rfl
  · split at h
    · cases h; rfl
    · cases h
    · dsimp only at h
      split at h <;> cases h

/-- No meaning refuses. -/
theorem exec_ne_refused (i : Instr) (st : State) (r : Refusal) : exec i st ≠ .refused r := by
  intro h
  cases i with
  | tfr r1 r2 => cases r1 <;> cases r2 <;> cases h
  | exg r1 r2 => cases r1 <;> cases r2 <;> cases h
  | _ => cases h

/-- A well-formed instruction does not fault. -/
theorem exec_ne_fault {i : Instr} {st : State} {f : Fault} (hw : i.wf = true) : exec i st ≠ .fault f := by
  obtain ⟨t, ht⟩ := exec_of_wf hw st
  rw [ht]
  intro h
  cases h

/-- `runInstr` does not refuse, and where it runs an instruction it takes a tick at least. -/
theorem runInstr_progress {n : Nat} {st : State} :
    (∀ r, runInstr n st ≠ .refused r) ∧ (∀ t k, runInstr n st = .next t k → 1 ≤ k) ∧
      (∀ t k, runInstr n st = .wait t k → 1 ≤ k) := by
  unfold runInstr
  split
  · exact ⟨by simp, by simp, by simp⟩
  · split
    · exact ⟨by simp, by simp, by simp⟩
    · rename_i h
      exact absurd h (exec_ne_refused _ _ _)
    · dsimp only
      split
      · refine ⟨by simp, by simp, fun t k h => ?_⟩
        injection h with _ h
        rw [← h, Params.cycles]
        omega
      · refine ⟨by simp, fun t k h => ?_, by simp⟩
        injection h with _ h
        rw [← h, Params.cycles]
        omega

/-- A CPU step does not refuse and takes a tick at least (R393). -/
theorem cpuStep_progress {st : State} :
    (∀ r, cpuStep st ≠ .refused r) ∧ (∀ t k, cpuStep st = .next t k → 1 ≤ k) ∧
      (∀ t k, cpuStep st = .wait t k → 1 ≤ k) := by
  unfold cpuStep
  split
  · exact ⟨by simp, by simp, by simp⟩
  · split
    · refine ⟨by simp, by simp, fun t k h => ?_⟩
      injection h with _ h
      rw [← h]
      decide
    · split <;> exact runInstr_progress

/-- Where a class is selected, the step enters it and runs the handler's first instruction (R368). -/
theorem cpuStep_of_selected {st : State} {c : IntClass} (hf : st.fault = none) (hs : select st = some c) :
    cpuStep st = runInstr (Params.intEntryTicks c) (enter c (wake st)) := by
  have : staysWaiting st = false := by
    unfold staysWaiting
    split
    · rfl
    · have : anyPending st = true := by
        unfold select at hs
        unfold anyPending
        cases hN : st.latches.nmiPending <;> cases hF : st.latches.firqPending <;>
          cases hI : st.latches.irqPending <;> simp_all
      simp [this]
    · simp [hs]
  simp [cpuStep, hf, this, hs]

end Sys2Proof.Machine
end

