-- ==== Sys2Proof/Laws/Decode.lean ====
section
/-! SUPPORT. The decoder, part by part: each reader of operand bytes takes a bounded number of bytes and the same ones whatever
follows, gives back what the encoder wrote, and rejects exactly the postbytes of 30_encoding.md R126 and R127. -/

namespace Sys2Proof

open Machine

/-! ### Readers give back what the encoder wrote -/

theorem postbyteForm_off5 (r : IdxReg) (n : BitVec 5) :
    postbyteForm ((0#1 ++ idxRegCode r) ++ n) = some (.done (.off5 r n)) := by
  have h7 : ∀ n : BitVec 5, ((0#1 ++ idxRegCode r) ++ n : BitVec 8).getLsbD 7 = false := by cases r <;> decide
  have hr : ∀ n : BitVec 5, idxRegOf ((0#1 ++ idxRegCode r) ++ n) = r := by cases r <;> decide
  have hn : ∀ n : BitVec 5, ((0#1 ++ idxRegCode r) ++ n : BitVec 8).extractLsb' 0 5 = n := by cases r <;> decide
  unfold postbyteForm
  simp only [h7, hr, hn]
  rfl

/-- An indexed operand's bytes are read back (R117). -/
theorem takeIndexed_encodeIndexed (ix : Indexed) (rest : List Byte) (k : Indexed → Instr) :
    takeIndexed (encodeIndexed ix ++ rest) k = .ok (k ix) rest := by
  cases ix with
  | off5 r n => simp [encodeIndexed, takeIndexed, postbyteForm_off5]
  | inc1 r => cases r <;> rfl
  | dec1 r => cases r <;> rfl
  | inc2 r i => cases r <;> cases i <;> rfl
  | dec2 r i => cases r <;> cases i <;> rfl
  | zero r i => cases r <;> cases i <;> rfl
  | accA r i => cases r <;> cases i <;> rfl
  | accB r i => cases r <;> cases i <;> rfl
  | accD r i => cases r <;> cases i <;> rfl
  | off8 r n i => cases r <;> cases i <;> rfl
  | off16 r n i =>
    cases r <;> cases i <;> simp [encodeIndexed, takeIndexed, postbyte, postbyteForm, take16, idxRegOf, idxRegCode]
  | pcr8 n i => cases i <;> rfl
  | pcr16 n i => cases i <;> simp [encodeIndexed, takeIndexed, postbyte, postbyteForm, take16]
  | extInd n => simp [encodeIndexed, takeIndexed, postbyte, postbyteForm, take16]

/-- A register pair's byte is read back (R118). -/
theorem takePair_encodePair (r1 r2 : TfrReg) (rest : List Byte) (k : TfrReg → TfrReg → Instr)
    (h : r1.sameSize r2 = true) : takePair (encodePair r1 r2 :: rest) k = .ok (k r1 r2) rest := by
  rcases r1 with r1 | r1 <;> rcases r2 with r2 | r2 <;> cases r1 <;> cases r2 <;> first | rfl | cases h

/-! ### What is rejected -/

/-- The postbytes without a form are the 36 of R126. -/
theorem postbyteForm_isNone : ∀ pb : Byte, (postbyteForm pb).isNone = true ↔ pb ∈ illegalPostbytes := by decide

theorem takeIndexed_of_illegal {pb : Byte} (h : pb ∈ illegalPostbytes) (rest : List Byte) (k : Indexed → Instr) :
    takeIndexed (pb :: rest) k = .illegalPostbyte pb := by
  rw [← postbyteForm_isNone, Option.isNone_iff_eq_none] at h
  simp only [takeIndexed, h]

/-- A pair byte is accepted where it is not one of R127's. -/
theorem pair_accepted : ∀ pb : Byte,
    (match tfrRegOf (pb.toNat / 16), tfrRegOf (pb.toNat % 16) with
      | some r1, some r2 => r1.sameSize r2
      | _, _ => false) = true ↔ ¬ IllegalPair pb := by
  unfold IllegalPair; decide

/-- The holes of the three maps (R121–R125). -/
theorem lookup1_isNone : ∀ b : Byte, (lookup1 b).isNone = true ↔ b ∈ undefinedPage1 ∨ b = 0x10#8 ∨ b = 0x11#8 := by decide
theorem lookupIn_page2_isNone : ∀ b : Byte, (lookupIn page2 b).isNone = true ↔ b ∉ definedPage2 := by decide
theorem lookupIn_page3_isNone : ∀ b : Byte, (lookupIn page3 b).isNone = true ↔ b ∉ definedPage3 := by decide

/-! ### How much is read -/

/-- A reader that takes at most `n` bytes: an instruction it answers is well-formed, is read from the same bytes whatever
follows, and from fewer it asks for more; on `n` bytes it answers. -/
structure Reads (f : List Byte → Decoded) (n : Nat) : Prop where
  ok : ∀ bs rest i, f bs = .ok i rest → ∃ used, bs = used ++ rest ∧ used.length ≤ n ∧ i.wf = true ∧
    (∀ rest', f (used ++ rest') = .ok i rest') ∧ ∀ k, k < used.length → f (used.take k) = .more
  enough : ∀ bs, n ≤ bs.length → f bs ≠ .more

namespace Reads

theorem mono {f : List Byte → Decoded} {m n : Nat} (h : Reads f m) (hmn : m ≤ n) : Reads f n :=
  ⟨fun bs rest i e => have ⟨u, a, b, c⟩ := h.ok bs rest i e; ⟨u, a, by omega, c⟩, fun bs hb => h.enough bs (by omega)⟩

/-- One byte, then a reader that may depend on it. -/
theorem cons {f : List Byte → Decoded} {g : Byte → List Byte → Decoded} {n : Nat} (h0 : f [] = .more)
    (h1 : ∀ b r, f (b :: r) = g b r) (hg : ∀ b, Reads (g b) n) : Reads f (n + 1) where
  ok bs rest i h := by
    cases bs with
    | nil => rw [h0] at h; cases h
    | cons b r =>
      rw [h1] at h
      obtain ⟨u, rfl, hu, hw, hr, ht⟩ := (hg b).ok r rest i h
      refine ⟨b :: u, rfl, by simpa using hu, hw, fun r' => ?_, fun k hk => ?_⟩
      · rw [List.cons_append, h1]; exact hr r'
      · cases k with
        | zero => exact h0
        | succ k => rw [List.take_succ_cons, h1]; exact ht k (by simpa using hk)
  enough bs hb := by
    cases bs with
    | nil => simp at hb
    | cons b r => rw [h1]; exact (hg b).enough r (by simpa using hb)

theorem rejects {d : List Byte → Decoded} (h : ∀ bs, (∀ i r, d bs ≠ .ok i r) ∧ d bs ≠ .more) : Reads d 0 :=
  ⟨fun bs rest i e => absurd e ((h bs).1 i rest), fun bs _ => (h bs).2⟩

theorem answers (i : Instr) (hi : i.wf = true) : Reads (fun bs => .ok i bs) 0 where
  ok bs rest j e := by
    cases e
    exact ⟨[], rfl, by simp, hi, fun _ => rfl, fun k hk => by simp at hk⟩
  enough bs _ := by simp

theorem take8 {k : Byte → Instr} (hk : ∀ v, (k v).wf = true) : Reads (Sys2Proof.take8 · k) 1 :=
  cons rfl (fun _ _ => rfl) fun b => answers (k b) (hk b)

theorem take16 {k : Word → Instr} (hk : ∀ v, (k v).wf = true) : Reads (Sys2Proof.take16 · k) 2 :=
  cons (g := fun h r => Sys2Proof.take8 r fun l => k (join h l)) rfl (fun h r => by cases r <;> rfl)
    fun _ => take8 fun _ => hk _

theorem takeIndexed {k : Indexed → Instr} (hk : ∀ v, (k v).wf = true) : Reads (Sys2Proof.takeIndexed · k) 3 := by
  refine cons (g := fun pb rest => match postbyteForm pb with
    | none => .illegalPostbyte pb
    | some (.done ix) => .ok (k ix) rest
    | some (.offset8 f) => Sys2Proof.take8 rest (fun n => k (f n))
    | some (.offset16 f) => Sys2Proof.take16 rest (fun n => k (f n))) rfl (fun _ _ => rfl) fun b => ?_
  split
  · exact (rejects fun _ => ⟨by simp, by simp⟩).mono (by omega)
  · exact (answers _ (hk _)).mono (by omega)
  · exact (take8 fun v => hk _).mono (by omega)
  · exact (take16 fun v => hk _).mono (by omega)

theorem takePair {k : TfrReg → TfrReg → Instr} (hk : ∀ r1 r2, r1.sameSize r2 = true → (k r1 r2).wf = true) :
    Reads (Sys2Proof.takePair · k) 1 := by
  refine cons (g := fun pb rest => match tfrRegOf (pb.toNat / 16), tfrRegOf (pb.toNat % 16) with
    | some r1, some r2 => if r1.sameSize r2 then .ok (k r1 r2) rest else .illegalRegisterCode pb
    | _, _ => .illegalRegisterCode pb) rfl (fun _ _ => rfl) fun b => ?_
  split
  · split
    · exact answers _ (hk _ _ ‹_›)
    · exact rejects fun _ => ⟨by simp, by simp⟩
  · exact rejects fun _ => ⟨by simp, by simp⟩

end Reads

/-- Every instruction an entry of a map can answer is well-formed. -/
def Template.Wf (t : Template) : Prop :=
  match t with
  | .inh i => i.wf = true
  | .imm8 k => ∀ v, (k v).wf = true
  | .imm16 k => ∀ v, (k v).wf = true
  | .dir k => ∀ v, (k v).wf = true
  | .ext k => ∀ v, (k v).wf = true
  | .idx k => ∀ v, (k v).wf = true
  | .lea k => ∀ v, (k v).wf = true
  | .rel8 k => ∀ v, (k v).wf = true
  | .rel16 k => ∀ v, (k v).wf = true
  | .pair k => ∀ r1 r2, r1.sameSize r2 = true → (k r1 r2).wf = true
  | .list k => ∀ v, (k v).wf = true

theorem page1_wf : ∀ row ∈ page1, ∀ t ∈ row, ∀ u, t = some u → u.Wf := by
  simp [page1, page1Row0, page1Row1, page1Row2, page1Row3, page1Row4, page1Row5, page1Row6, page1Row7, page1Row8,
    page1Row9, page1RowA, page1RowB, page1RowC, page1RowD, page1RowE, page1RowF, Template.Wf, Instr.wf]

theorem lookup1_wf {op : Byte} {t : Template} (h : lookup1 op = some t) : t.Wf := by
  unfold lookup1 at h
  rw [List.getD_eq_getElem?_getD, List.getD_eq_getElem?_getD] at h
  cases h1 : page1[op.toNat / 16]? with
  | none => simp [h1] at h
  | some row =>
    simp only [h1, Option.getD_some] at h
    cases h2 : row[op.toNat % 16]? with
    | none => simp [h2] at h
    | some x =>
      simp only [h2, Option.getD_some] at h
      exact page1_wf row (List.mem_of_getElem? h1) x (List.mem_of_getElem? h2) t h

theorem lookupIn_mem {page : List (Nat × Template)} {op : Byte} {t : Template} (h : lookupIn page op = some t) :
    ∃ n, (n, t) ∈ page := by
  induction page with
  | nil => cases h
  | cons r rest ih =>
    unfold lookupIn at h
    split at h
    · cases h; exact ⟨r.1, by simp⟩
    · obtain ⟨n, hn⟩ := ih h; exact ⟨n, by simp [hn]⟩

theorem page2_wf : ∀ x ∈ page2, x.2.Wf := by simp [page2, page2Branches, page2Words, Template.Wf, Instr.wf]
theorem page3_wf : ∀ x ∈ page3, x.2.Wf := by simp [page3, page3Rows, Template.Wf, Instr.wf]

/-- Operand bytes: at most three (R129). -/
theorem Reads.operands {t : Option Template} (ht : ∀ u, t = some u → u.Wf) : Reads (Sys2Proof.operands t) 3 := by
  cases t with
  | none => exact (rejects fun _ => ⟨by simp [Sys2Proof.operands], by simp [Sys2Proof.operands]⟩).mono (by omega)
  | some t =>
    have hu := ht t rfl
    cases t with
    | inh i => exact (answers _ hu).mono (by omega)
    | imm8 k => exact (take8 hu).mono (by omega)
    | imm16 k => exact (take16 hu).mono (by omega)
    | dir k => exact (take8 fun v => hu _).mono (by omega)
    | ext k => exact (take16 fun v => hu _).mono (by omega)
    | idx k => exact takeIndexed fun v => hu _
    | lea k => exact takeIndexed hu
    | rel8 k => exact (take8 hu).mono (by omega)
    | rel16 k => exact (take16 hu).mono (by omega)
    | pair k => exact (takePair hu).mono (by omega)
    | list k => exact (take8 hu).mono (by omega)

end Sys2Proof
end

