-- ==== Sys2Proof/Laws/Encoding.lean ====
section
/-! SUPPORT. The encoding shapes of Safety.lean from the decoder's equations: where a page's opcodes lead to the readers of
operand bytes, each addressing mode has the bytes the spec gives it and illegal postbytes are rejected. -/

namespace Sys2Proof

open Machine

/-- A postbyte has no indexed form exactly where it is listed as illegal (30_encoding.md R126). -/
theorem postbyteForm_isNone_iff : ∀ pb : Byte, (postbyteForm pb).isNone = true ↔ pb ∈ illegalPostbytes := by decide

/-- The reader of an indexed operand rejects exactly the illegal postbytes. -/
theorem takeIndexed_illegal_iff (bs : List Byte) (k : Indexed → Instr) (pb : Byte) :
    takeIndexed bs k = .illegalPostbyte pb ↔ ∃ r, bs = pb :: r ∧ pb ∈ illegalPostbytes := by
  cases bs with
  | nil => simp [takeIndexed]
  | cons b r =>
    have h8 : ∀ bs k, take8 bs k ≠ .illegalPostbyte pb := by
      intro bs k
      unfold take8
      split <;> simp
    have h16 : ∀ bs k, take16 bs k ≠ .illegalPostbyte pb := by
      intro bs k
      unfold take16
      split <;> simp
    rw [← postbyteForm_isNone_iff]
    simp only [takeIndexed]
    split <;> simp [*]
    all_goals
      rintro rfl
      simp [*]

/-- An illegal postbyte, whatever follows it. -/
theorem takeIndexed_illegal {pb : Byte} {rest : List Byte} {k : Indexed → Instr} (h : pb ∈ illegalPostbytes) :
    takeIndexed (pb :: rest) k = .illegalPostbyte pb :=
  (takeIndexed_illegal_iff _ _ _).2 ⟨rest, rfl, h⟩

theorem encIndexed_of {p : List Byte} {op : Byte} {k : Indexed → Instr}
    (h : ∀ bs, decode (p ++ op :: bs) = takeIndexed bs k) : EncIndexed p op k :=
  ⟨fun ix rest => by rw [h, takeIndexed_encodeIndexed], fun pb rest hp => by rw [h, takeIndexed_illegal hp]⟩

theorem encMem_of {p : List Byte} {d x e : Byte} {k : Mem → Instr}
    (h1 : ∀ bs, decode (p ++ d :: bs) = take8 bs (fun dd => k (.dir dd)))
    (h2 : ∀ bs, decode (p ++ x :: bs) = takeIndexed bs (fun ix => k (.idx ix)))
    (h3 : ∀ bs, decode (p ++ e :: bs) = take16 bs (fun dd => k (.ext dd))) : EncMem p d x e k :=
  ⟨fun _ _ => by rw [h1]; rfl, encIndexed_of h2, fun _ _ _ => by rw [h3]; rfl⟩

theorem encSrc8_of {i d x e : Byte} {k : Src8 → Instr}
    (h0 : ∀ bs, decode (i :: bs) = take8 bs (fun dd => k (.imm dd)))
    (h1 : ∀ bs, decode (d :: bs) = take8 bs (fun dd => k (.mem (.dir dd))))
    (h2 : ∀ bs, decode (x :: bs) = takeIndexed bs (fun ix => k (.mem (.idx ix))))
    (h3 : ∀ bs, decode (e :: bs) = take16 bs (fun dd => k (.mem (.ext dd)))) : EncSrc8 i d x e k :=
  ⟨fun _ _ => by rw [h0]; rfl, encMem_of h1 h2 h3⟩

theorem encSrc16_of {p : List Byte} {i d x e : Byte} {k : Src16 → Instr}
    (h0 : ∀ bs, decode (p ++ i :: bs) = take16 bs (fun dd => k (.imm dd)))
    (h1 : ∀ bs, decode (p ++ d :: bs) = take8 bs (fun dd => k (.mem (.dir dd))))
    (h2 : ∀ bs, decode (p ++ x :: bs) = takeIndexed bs (fun ix => k (.mem (.idx ix))))
    (h3 : ∀ bs, decode (p ++ e :: bs) = take16 bs (fun dd => k (.mem (.ext dd)))) : EncSrc16 p i d x e k :=
  ⟨fun _ _ _ => by rw [h0]; rfl, encMem_of h1 h2 h3⟩

end Sys2Proof
end

