-- ==== Sys2Proof/Laws/Flags.lean ====
section
/-! SUPPORT. What the flag helpers write, flag by flag, and the arithmetic primitives against the formulas of
40_addressing.md R156–R159. -/

namespace Sys2Proof.Machine

theorem msb8 (r : Byte) : r.msb = r.getLsbD 7 := by simp [BitVec.msb_eq_getLsbD_last]
theorem msb16 (r : Word) : r.msb = r.getLsbD 15 := by simp [BitVec.msb_eq_getLsbD_last]

theorem beq_zero8 (r : Byte) : (r == 0#8) = decide (r.toNat = 0) := by
  rw [Bool.eq_iff_iff, beq_iff_eq, decide_eq_true_eq]
  exact ⟨fun h => by rw [h]; rfl, fun h => BitVec.eq_of_toNat_eq h⟩

theorem beq_zero16 (r : Word) : (r == 0#16) = decide (r.toNat = 0) := by
  rw [Bool.eq_iff_iff, beq_iff_eq, decide_eq_true_eq]
  exact ⟨fun h => by rw [h]; rfl, fun h => BitVec.eq_of_toNat_eq h⟩

/-- `nz8` writes N and Z. -/
@[simp] theorem getFlag_nz8 (r cc : Byte) (fl : Flag) :
    getFlag (nz8 r cc) fl = if fl = .z then decide (r.toNat = 0) else if fl = .n then r.getLsbD 7 else getFlag cc fl := by
  simp [nz8, msb8, beq_zero8]

/-- `nz16` writes N and Z. -/
@[simp] theorem getFlag_nz16 (r : Word) (cc : Byte) (fl : Flag) :
    getFlag (nz16 r cc) fl =
      if fl = .z then decide (r.toNat = 0) else if fl = .n then r.getLsbD 15 else getFlag cc fl := by
  simp [nz16, msb16, beq_zero16]

@[simp] theorem getFlag_nz8v0 (r cc : Byte) (fl : Flag) :
    getFlag (nz8v0 r cc) fl = if fl = .v then false else getFlag (nz8 r cc) fl := by
  simp [nz8v0]

@[simp] theorem getFlag_nz16v0 (r : Word) (cc : Byte) (fl : Flag) :
    getFlag (nz16v0 r cc) fl = if fl = .v then false else getFlag (nz16 r cc) fl := by
  simp [nz16v0]

/-- A byte result with V cleared. -/
theorem flagsBecome_nz8v0 (r cc : Byte) : FlagsBecome (nzvc8 r (some false) none) cc (nz8v0 r cc) := by
  intro fl; cases fl <;> simp [nzvc8, flagUpdate]

/-- A word result with V cleared. -/
theorem flagsBecome_nz16v0 (r : Word) (cc : Byte) : FlagsBecome (nzvc16 r (some false) none) cc (nz16v0 r cc) := by
  intro fl; cases fl <;> simp [nzvc16, flagUpdate]

theorem and_low (n : Nat) : n &&& 15 = n % 16 := Nat.and_two_pow_sub_one_eq_mod n 4

/-- `add8` is R156. -/
theorem add8_rule (a m : Byte) (cin : Bool) (cc : Byte) : Add8Rule a m cin cc (add8 a m cin cc).1 (add8 a m cin cc).2 := by
  refine ⟨by simp [add8], fun fl => ?_⟩
  cases fl <;> simp [add8, flagUpdate, msb8, and_low, Bool.beq_eq_decide_eq, bne]

/-- `sub8` is R157. -/
theorem sub8_rule (a m : Byte) (cin : Bool) (cc : Byte) : Sub8Rule a m cin cc (sub8 a m cin cc).1 (sub8 a m cin cc).2 := by
  refine ⟨?_, fun fl => ?_⟩
  · simp only [sub8, BitVec.toNat_ofInt]; omega
  · cases fl <;> simp [sub8, nzvc8, flagUpdate, msb8, Bool.beq_eq_decide_eq, bne]

/-- `add16` is R158. -/
theorem add16_rule (a m : Word) (cc : Byte) : Add16Rule a m cc (add16 a m cc).1 (add16 a m cc).2 := by
  refine ⟨by simp [add16], fun fl => ?_⟩
  cases fl <;> simp [add16, nzvc16, flagUpdate, msb16, Bool.beq_eq_decide_eq, bne]

/-- `sub16` is R159. -/
theorem sub16_rule (a m : Word) (cc : Byte) : Sub16Rule a m cc (sub16 a m cc).1 (sub16 a m cc).2 := by
  refine ⟨?_, fun fl => ?_⟩
  · simp only [sub16, BitVec.toNat_ofInt]; omega
  · cases fl <;> simp [sub16, nzvc16, flagUpdate, msb16, Bool.beq_eq_decide_eq, bne]

end Sys2Proof.Machine
end

