-- ==== Sys2Proof/Laws/Interrupt.lean ====
section
/-! SUPPORT. Taking an exception: the frame, the masks and the vector, said once for interrupts and software interrupts. -/

namespace Sys2Proof.Machine

/-- A mask an entry sets, as an update of a flag. -/
abbrev maskUpdate (b : Bool) : Option Bool := if b then some true else none

/-- `setMasks` writes F and I where asked, and nothing else. -/
theorem setMasks_eq (f i : Bool) (st : State) : ∃ cc', FlagsBecome (entryUpdate none (maskUpdate f) (maskUpdate i)) st.regs.cc cc' ∧
    setMasks f i st = setReg8 .cc cc' st :=
  ⟨_, fun fl => by cases f <;> cases i <;> cases fl <;> simp [entryUpdate, maskUpdate], rfl⟩

/-- A frame pushed, then the masks, then the vector: an entry. -/
theorem entered_of_pushed {frame : Regs → List Byte} (hfr : ∀ r cc, (frame { r with cc := cc }).length = (frame r).length)
    (hlen : ∀ r, (frame r).length ≤ 0x10000) (e f i : Bool) {v : Word} {o : Nat} (h1 : 0x8000 + o = v.toNat)
    (h2 : v.toNat < 0xFFFF) {st s : State} (hp : Pushed .s (frame (writeFlag .e e st).regs) (writeFlag .e e st) s) :
    Entered frame e (maskUpdate f) (maskUpdate i) o id st
      (setPc (memRead16 v (setMasks f i s)).1 (memRead16 v (setMasks f i s)).2) := by
  obtain ⟨cc', hcc, hm⟩ := setMasks_eq f i s
  rw [hm, memRead16_rom _ _ h1 h2]
  have hb (w : Word) : (setPc w (setReg8 .cc cc' s)).board = s.board := by simp
  have hwb : (writeFlag .e e st).board = st.board := by simp [writeFlag]
  have hwr : (writeFlag .e e st).regs = { st.regs with cc := setFlag .e e st.regs.cc } := by simp [writeFlag]
  have hl : (frame (writeFlag .e e st).regs).length = (frame st.regs).length := by rw [hwr, hfr]
  have hv : StackReg.val .s (writeFlag .e e st) = st.regs.s := by simp [StackReg.val, StackReg.reg, hwr]
  obtain ⟨hr, hfa, -, -, him, hframe, -, hst⟩ := hp
  rw [hv, hl] at hr him hframe hst
  have hws : writeFlag .e e st = { st with regs := (writeFlag .e e st).regs } := by
    simp only [writeFlag, setCc_eq]
    exact setReg8_eq _ _ _
  have him' : s = { storeImage (st.regs.s - BitVec.ofNat 16 (frame st.regs).length)
      (frame { st.regs with cc := setFlag .e e st.regs.cc }) st with regs := s.regs } := by
    refine him.trans ?_
    conv => lhs; rw [hws, storeImage_with_regs, hwr]
  refine ⟨⟨setFlag .e e st.regs.cc, cc', ?_, ?_, ?_, ?_, ?_, fun hw hpl => ?_⟩, ?_, ?_⟩
  · intro fl; cases fl <;> simp [entryUpdate]
  · have : s.regs.cc = setFlag .e e st.regs.cc := by rw [hr, hwr]; rfl
    rw [← this]; exact hcc
  · have hrom : romWord (setReg8 .cc cc' s).board o = romWord st.board o := by
      rw [setReg8_board]; unfold romWord; rw [hframe.systemRom, hwb]
    simp only [setPc_eq, setReg16_pc_regs, setReg8_cc_regs, hr, hwr, hrom]
    rfl
  · rw [hb, him']
  · simp only [setPc_eq, setReg16_latches, setReg8_latches, id]
    rw [him']
  · have hs := hst (by rw [hwb]; exact hw) (hlen _) fun k hk => PlainRam.congr (by rw [hwb]) (hpl k hk)
    refine ⟨fun k hk => ?_, fun b hb' => ?_, ?_⟩
    · rw [peek_congr (hb _), hs.bytes k (by rw [hl, ← hfr st.regs (setFlag .e e st.regs.cc)]; exact hk), hwr]
    · rw [peek_congr (hb _), hs.others b (by rw [hl]; exact hb'), peek_congr hwb]
    · have := hs.state
      rw [hb, this]; simp only [hwb]
  · exact StoreFrame.of_reads (s' := writeFlag .e e st) hwb (.refl _) (StoreFrame.of_board hframe (hb _))
  · simp [hfa, writeFlag]

/-- An entry that stacks the entire frame. -/
theorem entered_entire (f i : Bool) {v : Word} {o : Nat} (h1 : 0x8000 + o = v.toNat) (h2 : v.toNat < 0xFFFF) (st : State) :
    Entered entireFrame true (maskUpdate f) (maskUpdate i) o id st (takeException .entire f i v st) :=
  entered_of_pushed (fun _ _ => rfl) (fun _ => by rw [show ∀ r, (entireFrame r).length = 12 from fun _ => rfl]; omega) true f i
    h1 h2 (pushed_pushEntire _)

/-- An entry that stacks the fast frame. -/
theorem entered_fast (f i : Bool) {v : Word} {o : Nat} (h1 : 0x8000 + o = v.toNat) (h2 : v.toNat < 0xFFFF) (st : State) :
    Entered fastFrame false (maskUpdate f) (maskUpdate i) o id st (takeException .fast f i v st) :=
  entered_of_pushed (fun _ _ => rfl) (fun _ => by rw [show ∀ r, (fastFrame r).length = 3 from fun _ => rfl]; omega) false f i
    h1 h2 (pushed_pushFast _)

/-- What an entry says does not speak of counters; what is done to the latches after it is told in `lat'`. -/
theorem Entered.congr {frame : Regs → List Byte} {e : Bool} {f i : Option Bool} {o : Nat} {lat lat' : Latches → Latches}
    {s t t' : State} (h : Entered frame e f i o lat s t) (hr : t'.regs = t.regs) (hb : t'.board = t.board)
    (hf : t'.fault = t.fault) (hl : ∀ l, t.latches = lat l → t'.latches = lat' l) :
    Entered frame e f i o lat' s t' := by
  obtain ⟨⟨c, c', h1, h2, h3, hm, hl', h4⟩, h5, h6⟩ := h
  refine ⟨⟨c, c', h1, h2, by rw [hr, h3], by rw [hb, hm], hl _ hl', fun a b => ?_⟩, h5.of_board hb, by rw [hf, h6]⟩
  obtain ⟨p, q, r⟩ := h4 a b
  exact ⟨fun k hk => by rw [peek_congr hb]; exact p k hk, fun x hx => by rw [peek_congr hb]; exact q x hx, by rw [hb]; exact r⟩

/-- An entry over a plain stack leaves the latches alone. -/
theorem takeException_latches {fr : Frame} {frame : Regs → List Byte} {e : Bool} (f i : Bool) {v : Word} {o n : Nat}
    (h1 : 0x8000 + o = v.toNat) (h2 : v.toNat < 0xFFFF) {st : State}
    (hs : Pushed .s (frame (writeFlag .e e st).regs) (writeFlag .e e st) (stackFrame fr st)) (hn : ∀ r, (frame r).length = n)
    (hp : st.PlainBytes (st.regs.s - BitVec.ofNat 16 n) n) : (takeException fr f i v st).latches = st.latches := by
  have h := hs.plain
  rw [hn] at h
  have := h fun k hk => PlainRam.congr (by simp [writeFlag])
    (show st.PlainRam _ by simpa [StackReg.val, StackReg.reg, writeFlag] using hp k hk)
  simp only [takeException, memRead16_rom _ _ h1 h2, setMasks, setCc_eq, setPc_eq, setReg16_latches, setReg8_latches]
  rw [this]
  simp [writeFlag]

theorem takeException_entire_latches (f i : Bool) {v : Word} {o : Nat} (h1 : 0x8000 + o = v.toNat) (h2 : v.toNat < 0xFFFF)
    {st : State} (hp : st.PlainBytes (st.regs.s - 12#16) 12) : (takeException .entire f i v st).latches = st.latches :=
  takeException_latches (frame := entireFrame) f i h1 h2 (pushed_pushEntire _) (fun _ => rfl) hp

theorem takeException_fast_latches (f i : Bool) {v : Word} {o : Nat} (h1 : 0x8000 + o = v.toNat) (h2 : v.toNat < 0xFFFF)
    {st : State} (hp : st.PlainBytes (st.regs.s - 3#16) 3) : (takeException .fast f i v st).latches = st.latches :=
  takeException_latches (frame := fastFrame) f i h1 h2 (pushed_pushFast _) (fun _ => rfl) hp

end Sys2Proof.Machine
end

