-- ==== Sys2Proof/Laws/Invariant.lean ====
section
/-! SUPPORT. A byte write, wherever it goes, keeps the invariant of Safety.lean. -/

namespace Sys2Proof.Machine

/-- RAM keeps its form, ROM is not written, the bank stays legal (60_exceptions.md R380), a lamp stays off or lit (R373), and a
violation is counted only where protection is enabled (20_memory.md R79, R80). -/
theorem State.Inv.memWrite {a : Word} {v : Byte} {st : State} (h : st.Inv) : (Machine.memWrite a v st).Inv := by
  have hram : (Machine.memWrite a v st).board.ram.Ok 0x4000 := by
    rcases memWrite_ram a v st with e | ⟨hl, e⟩ <;> rw [e]
    · exact h.ram
    · exact h.ram.write v hl
  have hs := memWrite_systemRom a v st
  have hg := memWrite_gameRom a v st
  have rest : (Machine.memWrite a v st).board.romSize = st.board.romSize ∧
      (Machine.memWrite a v st).board.BankLegal ∧ (Machine.memWrite a v st).board.LampsLegal ∧
      ((Machine.memWrite a v st).board.protMask = none → (Machine.memWrite a v st).board.violationCount = 0) := by
    unfold Machine.memWrite
    split
    · unfold asicWrite
      generalize asicReg a = g
      have hb := h.bank; have hl := h.lamps; have hv := h.violations
      cases g with
      | romBank =>
        refine ⟨rfl, ?_, hl, hv⟩
        show _ < _ ∨ _ ∨ _
        simp only [selectBank]
        by_cases hvv : v = 62#8 ∨ v = 63#8
        · rw [if_pos hvv]; right; exact hvv
        · rw [if_neg hvv]; left
          rw [and_pageMask_toNat]
          exact Nat.mod_lt _ (by cases st.board.romSize <;> decide)
      | lampCol =>
        refine ⟨rfl, hb, ?_, hv⟩
        intro k
        simp only [commitLamps, Fin.getElem_fin, Vector.getElem_ofFn]
        split
        · split <;> simp
        · exact hl k
      | ramLockSize =>
        refine ⟨rfl, hb, hl, ?_⟩
        dsimp only
        split
        · intro h; cases h
        · exact hv
      | _ => exact ⟨rfl, hb, hl, hv⟩
    · split
      · refine ⟨rfl, h.bank, h.lamps, ?_⟩
        intro hn
        have hn' : st.board.protMask = none := hn
        simp only [ramWrite, protectedWrite, hn']
        exact h.violations hn'
      · exact ⟨rfl, h.bank, h.lamps, h.violations⟩
  exact ⟨hram, by rw [hs]; exact h.systemRom, by rw [hg, rest.1]; exact h.gameRom, rest.2.1, rest.2.2.1, rest.2.2.2⟩

end Sys2Proof.Machine
end

