-- ==== Sys2Proof/Laws/PerInstr.lean ====
section
/-! SUPPORT. Statements made of every instruction as syntax, one lemma per constructor. `Encoding`: an encoding has one to five
bytes (30_encoding.md R110). -/

namespace Sys2Proof.Laws

/-- An indexed operand has one to three bytes (R117). -/
theorem encodeIndexed_length (ix : Indexed) : 1 ≤ (encodeIndexed ix).length ∧ (encodeIndexed ix).length ≤ 3 := by
  cases ix <;> simp [encodeIndexed]

/-- A memory form: page bytes, opcode, one to three bytes. -/
theorem encodeMem_length (p : List Byte) (d x e : Byte) (m : Mem) :
    1 ≤ (encodeMem p d x e m).length ∧ (encodeMem p d x e m).length ≤ p.length + 4 := by
  cases m with
  | dir dd => simp [encodeMem]
  | idx ix => have := encodeIndexed_length ix; simp [encodeMem]; omega
  | ext a => simp [encodeMem]

/-- A form of a byte operand. -/
theorem encodeSrc8_length (i d x e : Byte) (m : Src8) :
    1 ≤ (encodeSrc8 i d x e m).length ∧ (encodeSrc8 i d x e m).length ≤ 4 := by
  cases m with
  | imm v => simp [encodeSrc8]
  | mem m => exact encodeMem_length [] d x e m

/-- A form of a word operand. -/
theorem encodeSrc16_length (p : List Byte) (i d x e : Byte) (m : Src16) :
    1 ≤ (encodeSrc16 p i d x e m).length ∧ (encodeSrc16 p i d x e m).length ≤ p.length + 4 := by
  cases m with
  | imm v => simp [encodeSrc16]
  | mem m => exact encodeMem_length p d x e m

/-- The encoding of `i` has one to five bytes (R110). -/
def Encoding.Statement (i : Instr) : Prop := 1 ≤ (encode i).length ∧ (encode i).length ≤ 5

/-- A bound of four is enough. -/
theorem Encoding.of_four {i : Instr} (h : 1 ≤ (encode i).length ∧ (encode i).length ≤ 4) : Encoding.Statement i :=
  ⟨h.1, Nat.le_succ_of_le h.2⟩

/-- The bounds by evaluation. -/
theorem Encoding.of_ble {i : Instr} (h : (Nat.ble 1 (encode i).length && Nat.ble (encode i).length 5) = true) :
    Encoding.Statement i := by
  simpa [Encoding.Statement, Nat.ble_eq] using h

/-- An opcode byte and an indexed operand. -/
theorem Encoding.of_lea {i : Instr} {op : Byte} {ix : Indexed} (h : encode i = op :: encodeIndexed ix) :
    Encoding.Statement i := by
  have := encodeIndexed_length ix
  simp [Encoding.Statement, h]; omega

theorem Encoding.lda (m : Src8) : Encoding.Statement (.lda m) := Encoding.of_four (encodeSrc8_length ..)
theorem Encoding.ldb (m : Src8) : Encoding.Statement (.ldb m) := Encoding.of_four (encodeSrc8_length ..)
theorem Encoding.ldd (m : Src16) : Encoding.Statement (.ldd m) := Encoding.of_four (encodeSrc16_length ..)
theorem Encoding.ldx (m : Src16) : Encoding.Statement (.ldx m) := Encoding.of_four (encodeSrc16_length ..)
theorem Encoding.ldy (m : Src16) : Encoding.Statement (.ldy m) := encodeSrc16_length ..
theorem Encoding.ldu (m : Src16) : Encoding.Statement (.ldu m) := Encoding.of_four (encodeSrc16_length ..)
theorem Encoding.lds (m : Src16) : Encoding.Statement (.lds m) := encodeSrc16_length ..
theorem Encoding.sta (m : Mem) : Encoding.Statement (.sta m) := Encoding.of_four (encodeMem_length ..)
theorem Encoding.stb (m : Mem) : Encoding.Statement (.stb m) := Encoding.of_four (encodeMem_length ..)
theorem Encoding.std (m : Mem) : Encoding.Statement (.std m) := Encoding.of_four (encodeMem_length ..)
theorem Encoding.stx (m : Mem) : Encoding.Statement (.stx m) := Encoding.of_four (encodeMem_length ..)
theorem Encoding.sty (m : Mem) : Encoding.Statement (.sty m) := encodeMem_length ..
theorem Encoding.stu (m : Mem) : Encoding.Statement (.stu m) := Encoding.of_four (encodeMem_length ..)
theorem Encoding.sts (m : Mem) : Encoding.Statement (.sts m) := encodeMem_length ..
theorem Encoding.leax (ix : Indexed) : Encoding.Statement (.leax ix) := Encoding.of_lea rfl
theorem Encoding.leay (ix : Indexed) : Encoding.Statement (.leay ix) := Encoding.of_lea rfl
theorem Encoding.leas (ix : Indexed) : Encoding.Statement (.leas ix) := Encoding.of_lea rfl
theorem Encoding.leau (ix : Indexed) : Encoding.Statement (.leau ix) := Encoding.of_lea rfl
theorem Encoding.tfr (r1 r2 : TfrReg) : Encoding.Statement (.tfr r1 r2) := Encoding.of_ble rfl
theorem Encoding.exg (r1 r2 : TfrReg) : Encoding.Statement (.exg r1 r2) := Encoding.of_ble rfl
theorem Encoding.pshs (list : Byte) : Encoding.Statement (.pshs list) := Encoding.of_ble rfl
theorem Encoding.pshu (list : Byte) : Encoding.Statement (.pshu list) := Encoding.of_ble rfl
theorem Encoding.puls (list : Byte) : Encoding.Statement (.puls list) := Encoding.of_ble rfl
theorem Encoding.pulu (list : Byte) : Encoding.Statement (.pulu list) := Encoding.of_ble rfl
theorem Encoding.adda (m : Src8) : Encoding.Statement (.adda m) := Encoding.of_four (encodeSrc8_length ..)
theorem Encoding.addb (m : Src8) : Encoding.Statement (.addb m) := Encoding.of_four (encodeSrc8_length ..)
theorem Encoding.adca (m : Src8) : Encoding.Statement (.adca m) := Encoding.of_four (encodeSrc8_length ..)
theorem Encoding.adcb (m : Src8) : Encoding.Statement (.adcb m) := Encoding.of_four (encodeSrc8_length ..)
theorem Encoding.addd (m : Src16) : Encoding.Statement (.addd m) := Encoding.of_four (encodeSrc16_length ..)
theorem Encoding.suba (m : Src8) : Encoding.Statement (.suba m) := Encoding.of_four (encodeSrc8_length ..)
theorem Encoding.subb (m : Src8) : Encoding.Statement (.subb m) := Encoding.of_four (encodeSrc8_length ..)
theorem Encoding.sbca (m : Src8) : Encoding.Statement (.sbca m) := Encoding.of_four (encodeSrc8_length ..)
theorem Encoding.sbcb (m : Src8) : Encoding.Statement (.sbcb m) := Encoding.of_four (encodeSrc8_length ..)
theorem Encoding.subd (m : Src16) : Encoding.Statement (.subd m) := Encoding.of_four (encodeSrc16_length ..)
theorem Encoding.cmpa (m : Src8) : Encoding.Statement (.cmpa m) := Encoding.of_four (encodeSrc8_length ..)
theorem Encoding.cmpb (m : Src8) : Encoding.Statement (.cmpb m) := Encoding.of_four (encodeSrc8_length ..)
theorem Encoding.cmpd (m : Src16) : Encoding.Statement (.cmpd m) := encodeSrc16_length ..
theorem Encoding.cmpx (m : Src16) : Encoding.Statement (.cmpx m) := Encoding.of_four (encodeSrc16_length ..)
theorem Encoding.cmpy (m : Src16) : Encoding.Statement (.cmpy m) := encodeSrc16_length ..
theorem Encoding.cmpu (m : Src16) : Encoding.Statement (.cmpu m) := encodeSrc16_length ..
theorem Encoding.cmps (m : Src16) : Encoding.Statement (.cmps m) := encodeSrc16_length ..
theorem Encoding.anda (m : Src8) : Encoding.Statement (.anda m) := Encoding.of_four (encodeSrc8_length ..)
theorem Encoding.andb (m : Src8) : Encoding.Statement (.andb m) := Encoding.of_four (encodeSrc8_length ..)
theorem Encoding.ora (m : Src8) : Encoding.Statement (.ora m) := Encoding.of_four (encodeSrc8_length ..)
theorem Encoding.orb (m : Src8) : Encoding.Statement (.orb m) := Encoding.of_four (encodeSrc8_length ..)
theorem Encoding.eora (m : Src8) : Encoding.Statement (.eora m) := Encoding.of_four (encodeSrc8_length ..)
theorem Encoding.eorb (m : Src8) : Encoding.Statement (.eorb m) := Encoding.of_four (encodeSrc8_length ..)
theorem Encoding.bita (m : Src8) : Encoding.Statement (.bita m) := Encoding.of_four (encodeSrc8_length ..)
theorem Encoding.bitb (m : Src8) : Encoding.Statement (.bitb m) := Encoding.of_four (encodeSrc8_length ..)
theorem Encoding.mul : Encoding.Statement .mul := Encoding.of_ble rfl
theorem Encoding.daa : Encoding.Statement .daa := Encoding.of_ble rfl
theorem Encoding.sex : Encoding.Statement .sex := Encoding.of_ble rfl
theorem Encoding.abx : Encoding.Statement .abx := Encoding.of_ble rfl
theorem Encoding.neg (m : Mem) : Encoding.Statement (.neg m) := Encoding.of_four (encodeMem_length ..)
theorem Encoding.nega : Encoding.Statement .nega := Encoding.of_ble rfl
theorem Encoding.negb : Encoding.Statement .negb := Encoding.of_ble rfl
theorem Encoding.com (m : Mem) : Encoding.Statement (.com m) := Encoding.of_four (encodeMem_length ..)
theorem Encoding.coma : Encoding.Statement .coma := Encoding.of_ble rfl
theorem Encoding.comb : Encoding.Statement .comb := Encoding.of_ble rfl
theorem Encoding.lsr (m : Mem) : Encoding.Statement (.lsr m) := Encoding.of_four (encodeMem_length ..)
theorem Encoding.lsra : Encoding.Statement .lsra := Encoding.of_ble rfl
theorem Encoding.lsrb : Encoding.Statement .lsrb := Encoding.of_ble rfl
theorem Encoding.ror (m : Mem) : Encoding.Statement (.ror m) := Encoding.of_four (encodeMem_length ..)
theorem Encoding.rora : Encoding.Statement .rora := Encoding.of_ble rfl
theorem Encoding.rorb : Encoding.Statement .rorb := Encoding.of_ble rfl
theorem Encoding.asr (m : Mem) : Encoding.Statement (.asr m) := Encoding.of_four (encodeMem_length ..)
theorem Encoding.asra : Encoding.Statement .asra := Encoding.of_ble rfl
theorem Encoding.asrb : Encoding.Statement .asrb := Encoding.of_ble rfl
theorem Encoding.asl (m : Mem) : Encoding.Statement (.asl m) := Encoding.of_four (encodeMem_length ..)
theorem Encoding.asla : Encoding.Statement .asla := Encoding.of_ble rfl
theorem Encoding.aslb : Encoding.Statement .aslb := Encoding.of_ble rfl
theorem Encoding.rol (m : Mem) : Encoding.Statement (.rol m) := Encoding.of_four (encodeMem_length ..)
theorem Encoding.rola : Encoding.Statement .rola := Encoding.of_ble rfl
theorem Encoding.rolb : Encoding.Statement .rolb := Encoding.of_ble rfl
theorem Encoding.dec (m : Mem) : Encoding.Statement (.dec m) := Encoding.of_four (encodeMem_length ..)
theorem Encoding.deca : Encoding.Statement .deca := Encoding.of_ble rfl
theorem Encoding.decb : Encoding.Statement .decb := Encoding.of_ble rfl
theorem Encoding.inc (m : Mem) : Encoding.Statement (.inc m) := Encoding.of_four (encodeMem_length ..)
theorem Encoding.inca : Encoding.Statement .inca := Encoding.of_ble rfl
theorem Encoding.incb : Encoding.Statement .incb := Encoding.of_ble rfl
theorem Encoding.tst (m : Mem) : Encoding.Statement (.tst m) := Encoding.of_four (encodeMem_length ..)
theorem Encoding.tsta : Encoding.Statement .tsta := Encoding.of_ble rfl
theorem Encoding.tstb : Encoding.Statement .tstb := Encoding.of_ble rfl
theorem Encoding.clr (m : Mem) : Encoding.Statement (.clr m) := Encoding.of_four (encodeMem_length ..)
theorem Encoding.clra : Encoding.Statement .clra := Encoding.of_ble rfl
theorem Encoding.clrb : Encoding.Statement .clrb := Encoding.of_ble rfl
theorem Encoding.bra (rr : Byte) : Encoding.Statement (.bra rr) := Encoding.of_ble rfl
theorem Encoding.brn (rr : Byte) : Encoding.Statement (.brn rr) := Encoding.of_ble rfl
theorem Encoding.bhi (rr : Byte) : Encoding.Statement (.bhi rr) := Encoding.of_ble rfl
theorem Encoding.bls (rr : Byte) : Encoding.Statement (.bls rr) := Encoding.of_ble rfl
theorem Encoding.bcc (rr : Byte) : Encoding.Statement (.bcc rr) := Encoding.of_ble rfl
theorem Encoding.bcs (rr : Byte) : Encoding.Statement (.bcs rr) := Encoding.of_ble rfl
theorem Encoding.bne (rr : Byte) : Encoding.Statement (.bne rr) := Encoding.of_ble rfl
theorem Encoding.beq (rr : Byte) : Encoding.Statement (.beq rr) := Encoding.of_ble rfl
theorem Encoding.bvc (rr : Byte) : Encoding.Statement (.bvc rr) := Encoding.of_ble rfl
theorem Encoding.bvs (rr : Byte) : Encoding.Statement (.bvs rr) := Encoding.of_ble rfl
theorem Encoding.bpl (rr : Byte) : Encoding.Statement (.bpl rr) := Encoding.of_ble rfl
theorem Encoding.bmi (rr : Byte) : Encoding.Statement (.bmi rr) := Encoding.of_ble rfl
theorem Encoding.bge (rr : Byte) : Encoding.Statement (.bge rr) := Encoding.of_ble rfl
theorem Encoding.blt (rr : Byte) : Encoding.Statement (.blt rr) := Encoding.of_ble rfl
theorem Encoding.bgt (rr : Byte) : Encoding.Statement (.bgt rr) := Encoding.of_ble rfl
theorem Encoding.ble (rr : Byte) : Encoding.Statement (.ble rr) := Encoding.of_ble rfl
theorem Encoding.lbra (rr : Word) : Encoding.Statement (.lbra rr) := Encoding.of_ble rfl
theorem Encoding.lbrn (rr : Word) : Encoding.Statement (.lbrn rr) := Encoding.of_ble rfl
theorem Encoding.lbhi (rr : Word) : Encoding.Statement (.lbhi rr) := Encoding.of_ble rfl
theorem Encoding.lbls (rr : Word) : Encoding.Statement (.lbls rr) := Encoding.of_ble rfl
theorem Encoding.lbcc (rr : Word) : Encoding.Statement (.lbcc rr) := Encoding.of_ble rfl
theorem Encoding.lbcs (rr : Word) : Encoding.Statement (.lbcs rr) := Encoding.of_ble rfl
theorem Encoding.lbne (rr : Word) : Encoding.Statement (.lbne rr) := Encoding.of_ble rfl
theorem Encoding.lbeq (rr : Word) : Encoding.Statement (.lbeq rr) := Encoding.of_ble rfl
theorem Encoding.lbvc (rr : Word) : Encoding.Statement (.lbvc rr) := Encoding.of_ble rfl
theorem Encoding.lbvs (rr : Word) : Encoding.Statement (.lbvs rr) := Encoding.of_ble rfl
theorem Encoding.lbpl (rr : Word) : Encoding.Statement (.lbpl rr) := Encoding.of_ble rfl
theorem Encoding.lbmi (rr : Word) : Encoding.Statement (.lbmi rr) := Encoding.of_ble rfl
theorem Encoding.lbge (rr : Word) : Encoding.Statement (.lbge rr) := Encoding.of_ble rfl
theorem Encoding.lblt (rr : Word) : Encoding.Statement (.lblt rr) := Encoding.of_ble rfl
theorem Encoding.lbgt (rr : Word) : Encoding.Statement (.lbgt rr) := Encoding.of_ble rfl
theorem Encoding.lble (rr : Word) : Encoding.Statement (.lble rr) := Encoding.of_ble rfl
theorem Encoding.bsr (rr : Byte) : Encoding.Statement (.bsr rr) := Encoding.of_ble rfl
theorem Encoding.lbsr (rr : Word) : Encoding.Statement (.lbsr rr) := Encoding.of_ble rfl
theorem Encoding.jmp (m : Mem) : Encoding.Statement (.jmp m) := Encoding.of_four (encodeMem_length ..)
theorem Encoding.jsr (m : Mem) : Encoding.Statement (.jsr m) := Encoding.of_four (encodeMem_length ..)
theorem Encoding.rts : Encoding.Statement .rts := Encoding.of_ble rfl
theorem Encoding.nop : Encoding.Statement .nop := Encoding.of_ble rfl
theorem Encoding.swi : Encoding.Statement .swi := Encoding.of_ble rfl
theorem Encoding.swi2 : Encoding.Statement .swi2 := Encoding.of_ble rfl
theorem Encoding.swi3 : Encoding.Statement .swi3 := Encoding.of_ble rfl
theorem Encoding.rti : Encoding.Statement .rti := Encoding.of_ble rfl
theorem Encoding.sync : Encoding.Statement .sync := Encoding.of_ble rfl
theorem Encoding.cwai (ii : Byte) : Encoding.Statement (.cwai ii) := Encoding.of_ble rfl
theorem Encoding.andcc (ii : Byte) : Encoding.Statement (.andcc ii) := Encoding.of_ble rfl
theorem Encoding.orcc (ii : Byte) : Encoding.Statement (.orcc ii) := Encoding.of_ble rfl

end Sys2Proof.Laws
end

