-- ==== Sys2Proof/Laws/Pull.lean ====
section
/-! SUPPORT. Pulls and the return from an exception: only registers change, apart from the side effects of the reads, and
outside the I/O window each pull is a register write of the byte or word on the stack. -/

namespace Sys2Proof.Machine

/-! ### Bytes read one after another -/

/-- A read does not look at the registers. -/
theorem readEffect_with_regs (a : Word) (r : Regs) (st : State) :
    readEffect a { st with regs := r } = { readEffect a st with regs := r } := by
  unfold readEffect
  split
  · unfold asicReadEffect
    generalize asicReg a = g
    cases g <;> rfl
  · rfl

/-- Reads do not look at the registers. -/
theorem readAll_with_regs (a : Word) (n : Nat) (r : Regs) (st : State) :
    readAll a n { st with regs := r } = { readAll a n st with regs := r } := by
  induction n with
  | zero => rfl
  | succ n ih => rw [readAll, ih, readEffect_with_regs, readAll]

/-- The first read, then the others. -/
theorem readAll_succ_left (a : Word) (n : Nat) (st : State) :
    readAll (a + 1#16) n (readEffect a st) = readAll a (n + 1) st := by
  induction n with
  | zero => simp [readAll]
  | succ n ih =>
    have e : a + 1#16 + BitVec.ofNat 16 n = a + BitVec.ofNat 16 (n + 1) := by
      rw [BitVec.add_assoc, Nat.add_comm n 1, BitVec.ofNat_add]
    rw [readAll, ih, e]
    rfl

theorem sameButReads_readAll (a : Word) (n : Nat) (st : State) : SameButReads st (readAll a n st) := by
  induction n with
  | zero => rfl
  | succ n ih => exact ih.trans (sameButReads_readEffect _ _)

/-- Outside the I/O window reads have no side effect. -/
theorem readAll_of_noIo {a : Word} {n : Nat} (h : NoIo a n) (st : State) : readAll a n st = st := by
  induction n with
  | zero => rfl
  | succ n ih => rw [readAll, ih fun k hk => h k (by omega), readEffect_of_not_io (h n (by omega))]

theorem readByte_of_noIo {a : Word} {n k : Nat} (h : NoIo a n) (hk : k < n) (st : State) :
    readByte st a k = peek st (a + BitVec.ofNat 16 k) := by
  rw [readByte, readAll_of_noIo fun j hj => h j (by omega)]

theorem readByte_zero (st : State) (a : Word) : readByte st a 0 = peek st a := by
  rw [readByte, readAll, show BitVec.ofNat 16 0 = 0#16 from rfl, BitVec.add_zero]

/-- `n` bytes have been pulled since `st`: their reads' side effects, and registers. -/
structure Reading (sp : StackReg) (n : Nat) (st t : State) : Prop where
  state : t = { readAll (sp.val st) n st with regs := t.regs }
  pointer : sp.val t = sp.val st + BitVec.ofNat 16 n

namespace Reading

theorem start (sp : StackReg) (st : State) : Reading sp 0 st st := ⟨rfl, by simp⟩

/-- The byte at the pointer is the next one. -/
theorem peek_eq {sp : StackReg} {n : Nat} {st t : State} (h : Reading sp n st t) :
    peek t (sp.val t) = readByte st (sp.val st) n := by
  rw [h.pointer, readByte]
  exact peek_congr (by rw [h.state]) _

theorem pull8 {sp : StackReg} {n : Nat} {st t : State} (h : Reading sp n st t) :
    Reading sp (n + 1) st (Machine.pull8 sp t).2 ∧ (Machine.pull8 sp t).1 = readByte st (sp.val st) n ∧
      (Machine.pull8 sp t).2.regs = sp.put (sp.val st + BitVec.ofNat 16 (n + 1)) t.regs := by
  have hp : sp.val t + 1#16 = sp.val st + BitVec.ofNat 16 (n + 1) := by
    rw [h.pointer, BitVec.add_assoc, BitVec.ofNat_add]
  have hr : (Machine.pull8 sp t).2.regs = sp.put (sp.val st + BitVec.ofNat 16 (n + 1)) t.regs := by
    rw [(sameButReads_pull8 sp t).regs, hp]
    cases sp <;> rfl
  refine ⟨⟨?_, val_of_put hr⟩, h.peek_eq, hr⟩
  have e : (Machine.pull8 sp t).2 = { readEffect (sp.val t) t with regs := (Machine.pull8 sp t).2.regs } := by
    cases sp <;> rfl
  have e' : readEffect (sp.val t) t = { readAll (sp.val st) (n + 1) st with regs := t.regs } := by
    rw [readAll, ← h.pointer, ← readEffect_with_regs, ← h.state]
  exact e.trans (by rw [e'])

theorem withRegs {sp : StackReg} {n : Nat} {st t u : State} (h : Reading sp n st t) (hu : u = { t with regs := u.regs })
    (hp : sp.val u = sp.val t) : Reading sp n st u where
  state := hu.trans (by rw [h.state])
  pointer := hp.trans h.pointer

theorem setReg8 {sp : StackReg} {n : Nat} {st t : State} (h : Reading sp n st t) (r : Reg8) (v : Byte) :
    Reading sp n st (Machine.setReg8 r v t) :=
  h.withRegs (setReg8_eq r v t) (by cases sp <;> cases r <;> rfl)

theorem setReg16 {sp : StackReg} {n : Nat} {st t : State} (h : Reading sp n st t) (r : Reg16) (hr : r ≠ sp.reg) (v : Word) :
    Reading sp n st (Machine.setReg16 r v t) :=
  h.withRegs (setReg16_eq r v t) (by cases sp <;> cases r <;> first | rfl | exact absurd rfl hr)

/-- A byte pulled into a register. -/
theorem pullReg8 {sp : StackReg} {n : Nat} {st t : State} (h : Reading sp n st t) (r : Reg8) :
    Reading sp (n + 1) st (Machine.pullReg8 sp r t) ∧
      (Machine.pullReg8 sp r t).regs =
        (Machine.setReg8 r (readByte st (sp.val st) n)
          { t with regs := sp.put (sp.val st + BitVec.ofNat 16 (n + 1)) t.regs }).regs := by
  obtain ⟨h1, h2, h3⟩ := h.pull8
  refine ⟨h1.setReg8 r _, ?_⟩
  rw [Machine.pullReg8, h2]
  cases r <;> simp [h3]

/-- A word pulled into a register. -/
theorem pullReg16 {sp : StackReg} {n : Nat} {st t : State} (h : Reading sp n st t) (r : Reg16) (hr : r ≠ sp.reg)
    (hd : r ≠ .d) :
    Reading sp (n + 2) st (Machine.pullReg16 sp r t) ∧
      (Machine.pullReg16 sp r t).regs =
        (Machine.setReg16 r (wordOf (readByte st (sp.val st)) n)
          { t with regs := sp.put (sp.val st + BitVec.ofNat 16 (n + 2)) t.regs }).regs := by
  obtain ⟨h1, h2, h3⟩ := h.pull8
  obtain ⟨k1, k2, k3⟩ := h1.pull8
  refine ⟨k1.setReg16 r hr _, ?_⟩
  rw [Machine.pullReg16, pull16, h2, k2, wordOf]
  cases r <;> first | exact absurd rfl hd | simp [k3, h3]

end Reading

/-! ### Pulls -/

/-- Only registers change, apart from the side effects of reads. -/
def PullsOnly (st t : State) : Prop := SameButReads { st with regs := t.regs } t

namespace PullsOnly

theorem refl (st : State) : PullsOnly st st := rfl

theorem trans {s t u : State} (h : PullsOnly s t) (h' : PullsOnly t u) : PullsOnly s u := by
  unfold PullsOnly SameButReads at *
  rw [h', h]

theorem pull8 (sp : StackReg) (st : State) : PullsOnly st (pull8 sp st).2 := by
  have := sameButReads_pull8 sp st
  unfold PullsOnly SameButReads at *
  rw [this]
  cases sp <;> rfl

theorem setReg8 (r : Reg8) (v : Byte) (st : State) : PullsOnly st (setReg8 r v st) := by
  unfold PullsOnly SameButReads
  cases r <;> rfl

theorem setReg16 (r : Reg16) (v : Word) (st : State) : PullsOnly st (setReg16 r v st) := by
  unfold PullsOnly SameButReads
  cases r <;> rfl

theorem pullReg8 (sp : StackReg) (r : Reg8) (st : State) : PullsOnly st (pullReg8 sp r st) :=
  (pull8 sp st).trans (setReg8 _ _ _)

theorem pullReg16 (sp : StackReg) (r : Reg16) (st : State) : PullsOnly st (pullReg16 sp r st) :=
  ((pull8 sp st).trans (pull8 sp _)).trans (setReg16 _ _ _)

/-- The return from an exception changes registers only (45_system.md R333). -/
theorem returnFromException (st : State) : PullsOnly st (returnFromException st) := by
  unfold Machine.returnFromException
  dsimp only
  split
  · refine PullsOnly.trans ?_ (pullReg16 _ _ _)
    refine PullsOnly.trans ?_ (pullReg16 _ _ _)
    refine PullsOnly.trans ?_ (pullReg16 _ _ _)
    refine PullsOnly.trans ?_ (pullReg16 _ _ _)
    refine PullsOnly.trans ?_ (pullReg8 _ _ _)
    refine PullsOnly.trans ?_ (pullReg8 _ _ _)
    refine PullsOnly.trans ?_ (pullReg8 _ _ _)
    exact pullReg8 _ _ _
  · exact PullsOnly.trans (pullReg8 _ _ _) (pullReg16 _ _ _)

end PullsOnly

/-- The byte a pull answers. -/
theorem pull8_fst (sp : StackReg) (st : State) : (pull8 sp st).1 = peek st (sp.val st) := rfl

/-- The registers after a pulled byte: the stack pointer is one higher. -/
theorem pull8_regs (sp : StackReg) (st : State) : (pull8 sp st).2.regs = sp.put (sp.val st + 1#16) st.regs := by
  rw [(sameButReads_pull8 sp st).regs]
  cases sp <;> rfl

/-- CC after it was pulled: the byte at S. -/
theorem pullReg8_cc (st : State) : (pullReg8 .s .cc st).regs.cc = peek st st.regs.s := by
  rw [pullReg8, setReg8_cc_regs]
  exact pull8_fst _ _

/-- A stacked CC with E set: the whole frame is pulled. -/
theorem returnFromException_entire {st : State} (he : getFlag (peek st st.regs.s) .e = true) :
    returnFromException st =
      pullReg16 .s .pc (pullReg16 .s .u (pullReg16 .s .y (pullReg16 .s .x
        (pullReg8 .s .dp (pullReg8 .s .b (pullReg8 .s .a (pullReg8 .s .cc st))))))) := by
  rw [returnFromException, getReg8_cc, pullReg8_cc, he, if_pos rfl]

/-- A stacked CC with E clear: only PC follows CC. -/
theorem returnFromException_fast {st : State} (he : getFlag (peek st st.regs.s) .e = false) :
    returnFromException st = pullReg16 .s .pc (pullReg8 .s .cc st) := by
  rw [returnFromException, getReg8_cc, pullReg8_cc, he, if_neg (by decide)]

/-- RTI of an entire frame: twelve reads upward from S, and the registers they give (45_system.md R333). -/
theorem reading_entire {st : State} (he : getFlag (peek st st.regs.s) .e = true) :
    Reading .s 12 st (returnFromException st) ∧
      (returnFromException st).regs = entireRegs (readByte st st.regs.s) st.regs := by
  rw [returnFromException_entire he]
  obtain ⟨r1, e1⟩ := (Reading.start .s st).pullReg8 .cc
  generalize pullReg8 .s .cc st = x1 at *
  obtain ⟨r2, e2⟩ := r1.pullReg8 .a
  generalize pullReg8 .s .a x1 = x2 at *
  obtain ⟨r3, e3⟩ := r2.pullReg8 .b
  generalize pullReg8 .s .b x2 = x3 at *
  obtain ⟨r4, e4⟩ := r3.pullReg8 .dp
  generalize pullReg8 .s .dp x3 = x4 at *
  obtain ⟨r5, e5⟩ := r4.pullReg16 .x (by decide) (by decide)
  generalize pullReg16 .s .x x4 = x5 at *
  obtain ⟨r6, e6⟩ := r5.pullReg16 .y (by decide) (by decide)
  generalize pullReg16 .s .y x5 = x6 at *
  obtain ⟨r7, e7⟩ := r6.pullReg16 .u (by decide) (by decide)
  generalize pullReg16 .s .u x6 = x7 at *
  obtain ⟨r8, e8⟩ := r7.pullReg16 .pc (by decide) (by decide)
  refine ⟨r8, ?_⟩
  rw [e8, setReg16_pc_regs, e7, setReg16_u_regs, e6, setReg16_y_regs, e5, setReg16_x_regs, e4, setReg8_dp_regs, e3,
    setReg8_b_regs, e2, setReg8_a_regs, e1, setReg8_cc_regs]
  rfl

/-- RTI of a fast frame: three reads upward from S, and the registers they give (R333). -/
theorem reading_fast {st : State} (he : getFlag (peek st st.regs.s) .e = false) :
    Reading .s 3 st (returnFromException st) ∧
      (returnFromException st).regs = fastRegs (readByte st st.regs.s) st.regs := by
  rw [returnFromException_fast he]
  obtain ⟨r1, e1⟩ := (Reading.start .s st).pullReg8 .cc
  generalize pullReg8 .s .cc st = x1 at *
  obtain ⟨r2, e2⟩ := r1.pullReg16 .pc (by decide) (by decide)
  refine ⟨r2, ?_⟩
  rw [e2, setReg16_pc_regs, e1, setReg8_cc_regs]
  rfl

/-! ### Register lists -/

theorem listOffset_succ (list : Byte) (k : Nat) : listOffset list (k + 1) = listOffset list k + listedSize list k := by
  simp [listOffset, List.range_succ]

theorem listOffset_le (list : Byte) {k m : Nat} (h : k ≤ m) : listOffset list k ≤ listOffset list m := by
  induction h with
  | refl => exact Nat.le_refl _
  | step _ ih => exact Nat.le_trans ih (by rw [listOffset_succ]; omega)

/-- A listed register's bytes lie within those of the whole list. -/
theorem listOffset_add_size (list : Byte) {k : Nat} (hk : k < 8) :
    listOffset list k + listedSize list k ≤ listOffset list 8 := by
  rw [← listOffset_succ]
  exact listOffset_le list hk

/-- The next listed 8-bit register; `p` is where the pointer is then. -/
theorem Reading.ifListed8 {sp : StackReg} {list : Byte} {k : Nat} {st t : State} (h : Reading sp (listOffset list k) st t)
    (hk : k < 4) (r : Reg8) :
    Reading sp (listOffset list (k + 1)) st (ifListed list k (Machine.pullReg8 sp r) t) ∧
      ∃ p, (ifListed list k (Machine.pullReg8 sp r) t).regs =
        (if list.getLsbD k then
          Machine.setReg8 r (readByte st (sp.val st) (listOffset list k)) { t with regs := sp.put p t.regs }
        else { t with regs := sp.put p t.regs }).regs := by
  rw [listOffset_succ]
  unfold ifListed listedSize
  cases hb : list.getLsbD k
  · exact ⟨by simpa using h, sp.val t, by cases sp <;> simp [StackReg.put, StackReg.val, StackReg.reg]⟩
  · obtain ⟨h1, h2⟩ := h.pullReg8 r
    exact ⟨by simpa [hk] using h1, _, by simpa using h2⟩

/-- The next listed 16-bit register. -/
theorem Reading.ifListed16 {sp : StackReg} {list : Byte} {k : Nat} {st t : State} (h : Reading sp (listOffset list k) st t)
    (hk : 4 ≤ k) (r : Reg16) (hr : r ≠ sp.reg) (hd : r ≠ .d) :
    Reading sp (listOffset list (k + 1)) st (ifListed list k (Machine.pullReg16 sp r) t) ∧
      ∃ p, (ifListed list k (Machine.pullReg16 sp r) t).regs =
        (if list.getLsbD k then
          Machine.setReg16 r (wordOf (readByte st (sp.val st)) (listOffset list k)) { t with regs := sp.put p t.regs }
        else { t with regs := sp.put p t.regs }).regs := by
  rw [listOffset_succ]
  unfold ifListed listedSize
  cases hb : list.getLsbD k
  · exact ⟨by simpa using h, sp.val t, by cases sp <;> simp [StackReg.put, StackReg.val, StackReg.reg]⟩
  · obtain ⟨h1, h2⟩ := h.pullReg16 r hr hd
    exact ⟨by simpa [show ¬ k < 4 by omega] using h1, _, by simpa using h2⟩

/-! A register written or not: one lemma per register. -/

theorem ite_setReg8_cc (c : Bool) (v : Byte) (q : State) :
    (if c then setReg8 .cc v q else q).regs = { q.regs with cc := if c then v else q.regs.cc } := by
  cases c <;> rfl

theorem ite_setReg8_a (c : Bool) (v : Byte) (q : State) :
    (if c then setReg8 .a v q else q).regs = { q.regs with a := if c then v else q.regs.a } := by
  cases c <;> rfl

theorem ite_setReg8_b (c : Bool) (v : Byte) (q : State) :
    (if c then setReg8 .b v q else q).regs = { q.regs with b := if c then v else q.regs.b } := by
  cases c <;> rfl

theorem ite_setReg8_dp (c : Bool) (v : Byte) (q : State) :
    (if c then setReg8 .dp v q else q).regs = { q.regs with dp := if c then v else q.regs.dp } := by
  cases c <;> rfl

theorem ite_setReg16_x (c : Bool) (v : Word) (q : State) :
    (if c then setReg16 .x v q else q).regs = { q.regs with x := if c then v else q.regs.x } := by
  cases c <;> rfl

theorem ite_setReg16_y (c : Bool) (v : Word) (q : State) :
    (if c then setReg16 .y v q else q).regs = { q.regs with y := if c then v else q.regs.y } := by
  cases c <;> rfl

theorem ite_setReg16_u (c : Bool) (v : Word) (q : State) :
    (if c then setReg16 .u v q else q).regs = { q.regs with u := if c then v else q.regs.u } := by
  cases c <;> rfl

theorem ite_setReg16_s (c : Bool) (v : Word) (q : State) :
    (if c then setReg16 .s v q else q).regs = { q.regs with s := if c then v else q.regs.s } := by
  cases c <;> rfl

theorem ite_setReg16_pc (c : Bool) (v : Word) (q : State) :
    (if c then setReg16 .pc v q else q).regs = { q.regs with pc := if c then v else q.regs.pc } := by
  cases c <;> rfl

/-- A pull of a register list: its bytes read upward from the pointer, and the registers they give
(41_load_store_transfer.md R192, R193). -/
theorem reading_pullList {sp : StackReg} {other : Reg16} (ho : (sp = .s ∧ other = .u) ∨ (sp = .u ∧ other = .s))
    (list : Byte) (st : State) :
    Reading sp (listOffset list 8) st (pullList sp other list st) ∧
      (pullList sp other list st).regs = pulledRegs sp list (readByte st (sp.val st)) st := by
  have hr (r : Reg16) (h : r = .x ∨ r = .y ∨ r = .pc) : r ≠ sp.reg ∧ r ≠ .d := by
    rcases h with rfl | rfl | rfl <;> cases sp <;> decide
  have ho' : other ≠ sp.reg ∧ other ≠ .d := by rcases ho with ⟨rfl, rfl⟩ | ⟨rfl, rfl⟩ <;> decide
  rw [pullList]
  obtain ⟨s1, p1, t1⟩ := Reading.ifListed8 (list := list) (k := 0) (Reading.start sp st) (by decide) .cc
  generalize ifListed list 0 (pullReg8 sp .cc) st = x1 at *
  obtain ⟨s2, p2, t2⟩ := s1.ifListed8 (by decide) .a
  generalize ifListed list 1 (pullReg8 sp .a) x1 = x2 at *
  obtain ⟨s3, p3, t3⟩ := s2.ifListed8 (by decide) .b
  generalize ifListed list 2 (pullReg8 sp .b) x2 = x3 at *
  obtain ⟨s4, p4, t4⟩ := s3.ifListed8 (by decide) .dp
  generalize ifListed list 3 (pullReg8 sp .dp) x3 = x4 at *
  obtain ⟨s5, p5, t5⟩ := s4.ifListed16 (by decide) .x (hr .x (by simp)).1 (by decide)
  generalize ifListed list 4 (pullReg16 sp .x) x4 = x5 at *
  obtain ⟨s6, p6, t6⟩ := s5.ifListed16 (by decide) .y (hr .y (by simp)).1 (by decide)
  generalize ifListed list 5 (pullReg16 sp .y) x5 = x6 at *
  obtain ⟨s7, p7, t7⟩ := s6.ifListed16 (by decide) other ho'.1 ho'.2
  generalize ifListed list 6 (pullReg16 sp other) x6 = x7 at *
  obtain ⟨s8, p8, t8⟩ := s7.ifListed16 (by decide) .pc (hr .pc (by simp)).1 (by decide)
  generalize ifListed list 7 (pullReg16 sp .pc) x7 = x8 at *
  refine ⟨s8, ?_⟩
  have hp := s8.pointer
  clear s1 s2 s3 s4 s5 s6 s7 s8
  rcases ho with ⟨rfl, rfl⟩ | ⟨rfl, rfl⟩
  · have e : x8.regs = { pulledRegs .s list (readByte st (StackReg.val .s st)) st with s := x8.regs.s } := by
      rw [t8, t7, t6, t5, t4, t3, t2, t1]
      simp only [pulledRegs, ite_setReg8_cc, ite_setReg8_a, ite_setReg8_b, ite_setReg8_dp, ite_setReg16_x, ite_setReg16_y,
        ite_setReg16_u, ite_setReg16_pc, StackReg.put]
    rw [e, show x8.regs.s = _ from hp]
    rfl
  · have e : x8.regs = { pulledRegs .u list (readByte st (StackReg.val .u st)) st with u := x8.regs.u } := by
      rw [t8, t7, t6, t5, t4, t3, t2, t1]
      simp only [pulledRegs, ite_setReg8_cc, ite_setReg8_a, ite_setReg8_b, ite_setReg8_dp, ite_setReg16_x, ite_setReg16_y,
        ite_setReg16_s, ite_setReg16_pc, StackReg.put]
    rw [e, show x8.regs.u = _ from hp]
    rfl

/-- With no byte in the I/O window the registers come from the bytes as they stand. -/
theorem pulledRegs_of_noIo {sp : StackReg} {list : Byte} {st : State} {a : Word} (h : NoIo a (listOffset list 8)) :
    pulledRegs sp list (readByte st a) st = pulledRegs sp list (fun k => peek st (a + BitVec.ofNat 16 k)) st := by
  have b8 (k : Nat) (hk : k < 4) (o : Byte) :
      (if list.getLsbD k then readByte st a (listOffset list k) else o) =
        if list.getLsbD k then peek st (a + BitVec.ofNat 16 (listOffset list k)) else o := by
    have := listOffset_add_size list (show k < 8 by omega)
    cases hb : list.getLsbD k
    · rfl
    · simp only [listedSize, hb, hk, if_true] at this ⊢
      exact readByte_of_noIo h (by omega) st
  have b16 (k : Nat) (hk : 4 ≤ k) (hk' : k < 8) (o : Word) :
      (if list.getLsbD k then wordOf (readByte st a) (listOffset list k) else o) =
        if list.getLsbD k then wordOf (fun k => peek st (a + BitVec.ofNat 16 k)) (listOffset list k) else o := by
    have := listOffset_add_size list hk'
    cases hb : list.getLsbD k
    · rfl
    · simp only [listedSize, hb, show ¬ k < 4 by omega, if_true, if_false, wordOf] at this ⊢
      rw [readByte_of_noIo h (by omega), readByte_of_noIo h (by omega)]
  simp only [pulledRegs, b8 0 (by decide), b8 1 (by decide), b8 2 (by decide), b8 3 (by decide),
    b16 4 (by decide) (by decide), b16 5 (by decide) (by decide), b16 6 (by decide) (by decide),
    b16 7 (by decide) (by decide)]

end Sys2Proof.Machine
end

