-- ==== Sys2Proof/Tests/Slice0.lean ====
section
/-! SUPPORT. Tests. The words are written out from spec/opcode_table.json and spec/30_encoding.md; the step vectors carry their
number in spec/95_test_vectors.md, or "by hand" where they are computed from the rule named. Witnesses of the statements'
hypotheses stand at the end. -/

namespace Sys2Proof.Tests

set_option maxRecDepth 8192

open Machine

/-! ### Well-formedness: the one check of WellFormed.lean -/

theorem test_wf_refuses_mixed_tfr : (Instr.tfr (.r8 .a) (.r16 .x)).wf = false := by decide

theorem test_wf_refuses_mixed_exg : (Instr.exg (.r16 .d) (.r8 .cc)).wf = false := by decide

theorem test_wf_accepts_pairs : (Instr.tfr (.r16 .pc) (.r16 .pc)).wf = true ∧ (Instr.exg (.r8 .dp) (.r8 .a)).wf = true := by
  decide

/-! ### Decoding -/

/-- What the decoder reads where it uses all the bytes. -/
def reads (bs : List Byte) : Option Instr :=
  match decode bs with
  | .ok i [] => some i
  | _ => none

/-- Every word of a list decodes to the instruction beside it. -/
def allRead (l : List (List Byte × Instr)) : Bool := l.all fun p => reads p.1 = some p.2

theorem test_decode_page1_row_0 : allRead [
    ([0x00, 0x5A], .neg (.dir 0x5A#8)),
    ([0x03, 0x5A], .com (.dir 0x5A#8)),
    ([0x04, 0x5A], .lsr (.dir 0x5A#8)),
    ([0x06, 0x5A], .ror (.dir 0x5A#8)),
    ([0x07, 0x5A], .asr (.dir 0x5A#8)),
    ([0x08, 0x5A], .asl (.dir 0x5A#8)),
    ([0x09, 0x5A], .rol (.dir 0x5A#8)),
    ([0x0A, 0x5A], .dec (.dir 0x5A#8)),
    ([0x0C, 0x5A], .inc (.dir 0x5A#8)),
    ([0x0D, 0x5A], .tst (.dir 0x5A#8)),
    ([0x0E, 0x5A], .jmp (.dir 0x5A#8)),
    ([0x0F, 0x5A], .clr (.dir 0x5A#8))] = true := by decide

theorem test_decode_page1_row_1 : allRead [
    ([0x12], .nop),
    ([0x13], .sync),
    ([0x16, 0x85, 0x12], .lbra 0x8512#16),
    ([0x17, 0x85, 0x12], .lbsr 0x8512#16),
    ([0x19], .daa),
    ([0x1A, 0x5A], .orcc 0x5A#8),
    ([0x1C, 0x5A], .andcc 0x5A#8),
    ([0x1D], .sex),
    ([0x1E, 0x89], .exg (.r8 .a) (.r8 .b)),
    ([0x1F, 0x89], .tfr (.r8 .a) (.r8 .b))] = true := by decide

theorem test_decode_page1_row_2 : allRead [
    ([0x20, 0x85], .bra 0x85#8),
    ([0x21, 0x85], .brn 0x85#8),
    ([0x22, 0x85], .bhi 0x85#8),
    ([0x23, 0x85], .bls 0x85#8),
    ([0x24, 0x85], .bcc 0x85#8),
    ([0x25, 0x85], .bcs 0x85#8),
    ([0x26, 0x85], .bne 0x85#8),
    ([0x27, 0x85], .beq 0x85#8),
    ([0x28, 0x85], .bvc 0x85#8),
    ([0x29, 0x85], .bvs 0x85#8),
    ([0x2A, 0x85], .bpl 0x85#8),
    ([0x2B, 0x85], .bmi 0x85#8),
    ([0x2C, 0x85], .bge 0x85#8),
    ([0x2D, 0x85], .blt 0x85#8),
    ([0x2E, 0x85], .bgt 0x85#8),
    ([0x2F, 0x85], .ble 0x85#8)] = true := by decide

theorem test_decode_page1_row_3 : allRead [
    ([0x30, 0x30], .leax (.off5 .y 0x10#5)),
    ([0x31, 0x80], .leay (.inc1 .x)),
    ([0x32, 0xD1], .leas (.inc2 .u true)),
    ([0x33, 0xA4], .leau (.zero .y false)),
    ([0x34, 0xC6], .pshs 0xC6#8),
    ([0x35, 0xC6], .puls 0xC6#8),
    ([0x36, 0xC6], .pshu 0xC6#8),
    ([0x37, 0xC6], .pulu 0xC6#8),
    ([0x39], .rts),
    ([0x3A], .abx),
    ([0x3B], .rti),
    ([0x3C, 0x5A], .cwai 0x5A#8),
    ([0x3D], .mul),
    ([0x3F], .swi)] = true := by decide

theorem test_decode_page1_row_4 : allRead [
    ([0x40], .nega),
    ([0x43], .coma),
    ([0x44], .lsra),
    ([0x46], .rora),
    ([0x47], .asra),
    ([0x48], .asla),
    ([0x49], .rola),
    ([0x4A], .deca),
    ([0x4C], .inca),
    ([0x4D], .tsta),
    ([0x4F], .clra)] = true := by decide

theorem test_decode_page1_row_5 : allRead [
    ([0x50], .negb),
    ([0x53], .comb),
    ([0x54], .lsrb),
    ([0x56], .rorb),
    ([0x57], .asrb),
    ([0x58], .aslb),
    ([0x59], .rolb),
    ([0x5A], .decb),
    ([0x5C], .incb),
    ([0x5D], .tstb),
    ([0x5F], .clrb)] = true := by decide

theorem test_decode_page1_row_6 : allRead [
    ([0x60, 0xE5], .neg (.idx (.accB .s false))),
    ([0x63, 0x8B], .com (.idx (.accD .x false))),
    ([0x64, 0xC8, 0x7F], .lsr (.idx (.off8 .u 0x7F#8 false))),
    ([0x66, 0x99, 0x12, 0x34], .ror (.idx (.off16 .x 0x1234#16 true))),
    ([0x67, 0x30], .asr (.idx (.off5 .y 0x10#5))),
    ([0x68, 0x80], .asl (.idx (.inc1 .x))),
    ([0x69, 0xD1], .rol (.idx (.inc2 .u true))),
    ([0x6A, 0xA4], .dec (.idx (.zero .y false))),
    ([0x6C, 0xE5], .inc (.idx (.accB .s false))),
    ([0x6D, 0x8B], .tst (.idx (.accD .x false))),
    ([0x6E, 0xC8, 0x7F], .jmp (.idx (.off8 .u 0x7F#8 false))),
    ([0x6F, 0x99, 0x12, 0x34], .clr (.idx (.off16 .x 0x1234#16 true)))] = true := by decide

theorem test_decode_page1_row_7 : allRead [
    ([0x70, 0x12, 0x34], .neg (.ext 0x1234#16)),
    ([0x73, 0x12, 0x34], .com (.ext 0x1234#16)),
    ([0x74, 0x12, 0x34], .lsr (.ext 0x1234#16)),
    ([0x76, 0x12, 0x34], .ror (.ext 0x1234#16)),
    ([0x77, 0x12, 0x34], .asr (.ext 0x1234#16)),
    ([0x78, 0x12, 0x34], .asl (.ext 0x1234#16)),
    ([0x79, 0x12, 0x34], .rol (.ext 0x1234#16)),
    ([0x7A, 0x12, 0x34], .dec (.ext 0x1234#16)),
    ([0x7C, 0x12, 0x34], .inc (.ext 0x1234#16)),
    ([0x7D, 0x12, 0x34], .tst (.ext 0x1234#16)),
    ([0x7E, 0x12, 0x34], .jmp (.ext 0x1234#16)),
    ([0x7F, 0x12, 0x34], .clr (.ext 0x1234#16))] = true := by decide

theorem test_decode_page1_row_8 : allRead [
    ([0x80, 0x5A], .suba (.imm 0x5A#8)),
    ([0x81, 0x5A], .cmpa (.imm 0x5A#8)),
    ([0x82, 0x5A], .sbca (.imm 0x5A#8)),
    ([0x83, 0x12, 0x34], .subd (.imm 0x1234#16)),
    ([0x84, 0x5A], .anda (.imm 0x5A#8)),
    ([0x85, 0x5A], .bita (.imm 0x5A#8)),
    ([0x86, 0x5A], .lda (.imm 0x5A#8)),
    ([0x88, 0x5A], .eora (.imm 0x5A#8)),
    ([0x89, 0x5A], .adca (.imm 0x5A#8)),
    ([0x8A, 0x5A], .ora (.imm 0x5A#8)),
    ([0x8B, 0x5A], .adda (.imm 0x5A#8)),
    ([0x8C, 0x12, 0x34], .cmpx (.imm 0x1234#16)),
    ([0x8D, 0x85], .bsr 0x85#8),
    ([0x8E, 0x12, 0x34], .ldx (.imm 0x1234#16))] = true := by decide

theorem test_decode_page1_row_9 : allRead [
    ([0x90, 0x5A], .suba (.mem (.dir 0x5A#8))),
    ([0x91, 0x5A], .cmpa (.mem (.dir 0x5A#8))),
    ([0x92, 0x5A], .sbca (.mem (.dir 0x5A#8))),
    ([0x93, 0x5A], .subd (.mem (.dir 0x5A#8))),
    ([0x94, 0x5A], .anda (.mem (.dir 0x5A#8))),
    ([0x95, 0x5A], .bita (.mem (.dir 0x5A#8))),
    ([0x96, 0x5A], .lda (.mem (.dir 0x5A#8))),
    ([0x97, 0x5A], .sta (.dir 0x5A#8)),
    ([0x98, 0x5A], .eora (.mem (.dir 0x5A#8))),
    ([0x99, 0x5A], .adca (.mem (.dir 0x5A#8))),
    ([0x9A, 0x5A], .ora (.mem (.dir 0x5A#8))),
    ([0x9B, 0x5A], .adda (.mem (.dir 0x5A#8))),
    ([0x9C, 0x5A], .cmpx (.mem (.dir 0x5A#8))),
    ([0x9D, 0x5A], .jsr (.dir 0x5A#8)),
    ([0x9E, 0x5A], .ldx (.mem (.dir 0x5A#8))),
    ([0x9F, 0x5A], .stx (.dir 0x5A#8))] = true := by decide

theorem test_decode_page1_row_A : allRead [
    ([0xA0, 0x30], .suba (.mem (.idx (.off5 .y 0x10#5)))),
    ([0xA1, 0x80], .cmpa (.mem (.idx (.inc1 .x)))),
    ([0xA2, 0xD1], .sbca (.mem (.idx (.inc2 .u true)))),
    ([0xA3, 0xA4], .subd (.mem (.idx (.zero .y false)))),
    ([0xA4, 0xE5], .anda (.mem (.idx (.accB .s false)))),
    ([0xA5, 0x8B], .bita (.mem (.idx (.accD .x false)))),
    ([0xA6, 0xC8, 0x7F], .lda (.mem (.idx (.off8 .u 0x7F#8 false)))),
    ([0xA7, 0x99, 0x12, 0x34], .sta (.idx (.off16 .x 0x1234#16 true))),
    ([0xA8, 0x30], .eora (.mem (.idx (.off5 .y 0x10#5)))),
    ([0xA9, 0x80], .adca (.mem (.idx (.inc1 .x)))),
    ([0xAA, 0xD1], .ora (.mem (.idx (.inc2 .u true)))),
    ([0xAB, 0xA4], .adda (.mem (.idx (.zero .y false)))),
    ([0xAC, 0xE5], .cmpx (.mem (.idx (.accB .s false)))),
    ([0xAD, 0x8B], .jsr (.idx (.accD .x false))),
    ([0xAE, 0xC8, 0x7F], .ldx (.mem (.idx (.off8 .u 0x7F#8 false)))),
    ([0xAF, 0x99, 0x12, 0x34], .stx (.idx (.off16 .x 0x1234#16 true)))] = true := by decide

theorem test_decode_page1_row_B : allRead [
    ([0xB0, 0x12, 0x34], .suba (.mem (.ext 0x1234#16))),
    ([0xB1, 0x12, 0x34], .cmpa (.mem (.ext 0x1234#16))),
    ([0xB2, 0x12, 0x34], .sbca (.mem (.ext 0x1234#16))),
    ([0xB3, 0x12, 0x34], .subd (.mem (.ext 0x1234#16))),
    ([0xB4, 0x12, 0x34], .anda (.mem (.ext 0x1234#16))),
    ([0xB5, 0x12, 0x34], .bita (.mem (.ext 0x1234#16))),
    ([0xB6, 0x12, 0x34], .lda (.mem (.ext 0x1234#16))),
    ([0xB7, 0x12, 0x34], .sta (.ext 0x1234#16)),
    ([0xB8, 0x12, 0x34], .eora (.mem (.ext 0x1234#16))),
    ([0xB9, 0x12, 0x34], .adca (.mem (.ext 0x1234#16))),
    ([0xBA, 0x12, 0x34], .ora (.mem (.ext 0x1234#16))),
    ([0xBB, 0x12, 0x34], .adda (.mem (.ext 0x1234#16))),
    ([0xBC, 0x12, 0x34], .cmpx (.mem (.ext 0x1234#16))),
    ([0xBD, 0x12, 0x34], .jsr (.ext 0x1234#16)),
    ([0xBE, 0x12, 0x34], .ldx (.mem (.ext 0x1234#16))),
    ([0xBF, 0x12, 0x34], .stx (.ext 0x1234#16))] = true := by decide

theorem test_decode_page1_row_C : allRead [
    ([0xC0, 0x5A], .subb (.imm 0x5A#8)),
    ([0xC1, 0x5A], .cmpb (.imm 0x5A#8)),
    ([0xC2, 0x5A], .sbcb (.imm 0x5A#8)),
    ([0xC3, 0x12, 0x34], .addd (.imm 0x1234#16)),
    ([0xC4, 0x5A], .andb (.imm 0x5A#8)),
    ([0xC5, 0x5A], .bitb (.imm 0x5A#8)),
    ([0xC6, 0x5A], .ldb (.imm 0x5A#8)),
    ([0xC8, 0x5A], .eorb (.imm 0x5A#8)),
    ([0xC9, 0x5A], .adcb (.imm 0x5A#8)),
    ([0xCA, 0x5A], .orb (.imm 0x5A#8)),
    ([0xCB, 0x5A], .addb (.imm 0x5A#8)),
    ([0xCC, 0x12, 0x34], .ldd (.imm 0x1234#16)),
    ([0xCE, 0x12, 0x34], .ldu (.imm 0x1234#16))] = true := by decide

theorem test_decode_page1_row_D : allRead [
    ([0xD0, 0x5A], .subb (.mem (.dir 0x5A#8))),
    ([0xD1, 0x5A], .cmpb (.mem (.dir 0x5A#8))),
    ([0xD2, 0x5A], .sbcb (.mem (.dir 0x5A#8))),
    ([0xD3, 0x5A], .addd (.mem (.dir 0x5A#8))),
    ([0xD4, 0x5A], .andb (.mem (.dir 0x5A#8))),
    ([0xD5, 0x5A], .bitb (.mem (.dir 0x5A#8))),
    ([0xD6, 0x5A], .ldb (.mem (.dir 0x5A#8))),
    ([0xD7, 0x5A], .stb (.dir 0x5A#8)),
    ([0xD8, 0x5A], .eorb (.mem (.dir 0x5A#8))),
    ([0xD9, 0x5A], .adcb (.mem (.dir 0x5A#8))),
    ([0xDA, 0x5A], .orb (.mem (.dir 0x5A#8))),
    ([0xDB, 0x5A], .addb (.mem (.dir 0x5A#8))),
    ([0xDC, 0x5A], .ldd (.mem (.dir 0x5A#8))),
    ([0xDD, 0x5A], .std (.dir 0x5A#8)),
    ([0xDE, 0x5A], .ldu (.mem (.dir 0x5A#8))),
    ([0xDF, 0x5A], .stu (.dir 0x5A#8))] = true := by decide

theorem test_decode_page1_row_E : allRead [
    ([0xE0, 0x30], .subb (.mem (.idx (.off5 .y 0x10#5)))),
    ([0xE1, 0x80], .cmpb (.mem (.idx (.inc1 .x)))),
    ([0xE2, 0xD1], .sbcb (.mem (.idx (.inc2 .u true)))),
    ([0xE3, 0xA4], .addd (.mem (.idx (.zero .y false)))),
    ([0xE4, 0xE5], .andb (.mem (.idx (.accB .s false)))),
    ([0xE5, 0x8B], .bitb (.mem (.idx (.accD .x false)))),
    ([0xE6, 0xC8, 0x7F], .ldb (.mem (.idx (.off8 .u 0x7F#8 false)))),
    ([0xE7, 0x99, 0x12, 0x34], .stb (.idx (.off16 .x 0x1234#16 true))),
    ([0xE8, 0x30], .eorb (.mem (.idx (.off5 .y 0x10#5)))),
    ([0xE9, 0x80], .adcb (.mem (.idx (.inc1 .x)))),
    ([0xEA, 0xD1], .orb (.mem (.idx (.inc2 .u true)))),
    ([0xEB, 0xA4], .addb (.mem (.idx (.zero .y false)))),
    ([0xEC, 0xE5], .ldd (.mem (.idx (.accB .s false)))),
    ([0xED, 0x8B], .std (.idx (.accD .x false))),
    ([0xEE, 0xC8, 0x7F], .ldu (.mem (.idx (.off8 .u 0x7F#8 false)))),
    ([0xEF, 0x99, 0x12, 0x34], .stu (.idx (.off16 .x 0x1234#16 true)))] = true := by decide

theorem test_decode_page1_row_F : allRead [
    ([0xF0, 0x12, 0x34], .subb (.mem (.ext 0x1234#16))),
    ([0xF1, 0x12, 0x34], .cmpb (.mem (.ext 0x1234#16))),
    ([0xF2, 0x12, 0x34], .sbcb (.mem (.ext 0x1234#16))),
    ([0xF3, 0x12, 0x34], .addd (.mem (.ext 0x1234#16))),
    ([0xF4, 0x12, 0x34], .andb (.mem (.ext 0x1234#16))),
    ([0xF5, 0x12, 0x34], .bitb (.mem (.ext 0x1234#16))),
    ([0xF6, 0x12, 0x34], .ldb (.mem (.ext 0x1234#16))),
    ([0xF7, 0x12, 0x34], .stb (.ext 0x1234#16)),
    ([0xF8, 0x12, 0x34], .eorb (.mem (.ext 0x1234#16))),
    ([0xF9, 0x12, 0x34], .adcb (.mem (.ext 0x1234#16))),
    ([0xFA, 0x12, 0x34], .orb (.mem (.ext 0x1234#16))),
    ([0xFB, 0x12, 0x34], .addb (.mem (.ext 0x1234#16))),
    ([0xFC, 0x12, 0x34], .ldd (.mem (.ext 0x1234#16))),
    ([0xFD, 0x12, 0x34], .std (.ext 0x1234#16)),
    ([0xFE, 0x12, 0x34], .ldu (.mem (.ext 0x1234#16))),
    ([0xFF, 0x12, 0x34], .stu (.ext 0x1234#16))] = true := by decide

theorem test_decode_page2_branches : allRead [
    ([0x10, 0x21, 0x85, 0x12], .lbrn 0x8512#16),
    ([0x10, 0x22, 0x85, 0x12], .lbhi 0x8512#16),
    ([0x10, 0x23, 0x85, 0x12], .lbls 0x8512#16),
    ([0x10, 0x24, 0x85, 0x12], .lbcc 0x8512#16),
    ([0x10, 0x25, 0x85, 0x12], .lbcs 0x8512#16),
    ([0x10, 0x26, 0x85, 0x12], .lbne 0x8512#16),
    ([0x10, 0x27, 0x85, 0x12], .lbeq 0x8512#16),
    ([0x10, 0x28, 0x85, 0x12], .lbvc 0x8512#16),
    ([0x10, 0x29, 0x85, 0x12], .lbvs 0x8512#16),
    ([0x10, 0x2A, 0x85, 0x12], .lbpl 0x8512#16),
    ([0x10, 0x2B, 0x85, 0x12], .lbmi 0x8512#16),
    ([0x10, 0x2C, 0x85, 0x12], .lbge 0x8512#16),
    ([0x10, 0x2D, 0x85, 0x12], .lblt 0x8512#16),
    ([0x10, 0x2E, 0x85, 0x12], .lbgt 0x8512#16),
    ([0x10, 0x2F, 0x85, 0x12], .lble 0x8512#16),
    ([0x10, 0x3F], .swi2)] = true := by decide

theorem test_decode_page2_words : allRead [
    ([0x10, 0x83, 0x12, 0x34], .cmpd (.imm 0x1234#16)),
    ([0x10, 0x8C, 0x12, 0x34], .cmpy (.imm 0x1234#16)),
    ([0x10, 0x8E, 0x12, 0x34], .ldy (.imm 0x1234#16)),
    ([0x10, 0x93, 0x5A], .cmpd (.mem (.dir 0x5A#8))),
    ([0x10, 0x9C, 0x5A], .cmpy (.mem (.dir 0x5A#8))),
    ([0x10, 0x9E, 0x5A], .ldy (.mem (.dir 0x5A#8))),
    ([0x10, 0x9F, 0x5A], .sty (.dir 0x5A#8)),
    ([0x10, 0xA3, 0x30], .cmpd (.mem (.idx (.off5 .y 0x10#5)))),
    ([0x10, 0xAC, 0x80], .cmpy (.mem (.idx (.inc1 .x)))),
    ([0x10, 0xAE, 0xD1], .ldy (.mem (.idx (.inc2 .u true)))),
    ([0x10, 0xAF, 0xA4], .sty (.idx (.zero .y false))),
    ([0x10, 0xB3, 0x12, 0x34], .cmpd (.mem (.ext 0x1234#16))),
    ([0x10, 0xBC, 0x12, 0x34], .cmpy (.mem (.ext 0x1234#16))),
    ([0x10, 0xBE, 0x12, 0x34], .ldy (.mem (.ext 0x1234#16))),
    ([0x10, 0xBF, 0x12, 0x34], .sty (.ext 0x1234#16)),
    ([0x10, 0xCE, 0x12, 0x34], .lds (.imm 0x1234#16)),
    ([0x10, 0xDE, 0x5A], .lds (.mem (.dir 0x5A#8))),
    ([0x10, 0xDF, 0x5A], .sts (.dir 0x5A#8)),
    ([0x10, 0xEE, 0xE5], .lds (.mem (.idx (.accB .s false)))),
    ([0x10, 0xEF, 0x8B], .sts (.idx (.accD .x false))),
    ([0x10, 0xFE, 0x12, 0x34], .lds (.mem (.ext 0x1234#16))),
    ([0x10, 0xFF, 0x12, 0x34], .sts (.ext 0x1234#16))] = true := by decide

theorem test_decode_page3 : allRead [
    ([0x11, 0x3F], .swi3),
    ([0x11, 0x83, 0x12, 0x34], .cmpu (.imm 0x1234#16)),
    ([0x11, 0x8C, 0x12, 0x34], .cmps (.imm 0x1234#16)),
    ([0x11, 0x93, 0x5A], .cmpu (.mem (.dir 0x5A#8))),
    ([0x11, 0x9C, 0x5A], .cmps (.mem (.dir 0x5A#8))),
    ([0x11, 0xA3, 0xC8, 0x7F], .cmpu (.mem (.idx (.off8 .u 0x7F#8 false)))),
    ([0x11, 0xAC, 0x99, 0x12, 0x34], .cmps (.mem (.idx (.off16 .x 0x1234#16 true)))),
    ([0x11, 0xB3, 0x12, 0x34], .cmpu (.mem (.ext 0x1234#16))),
    ([0x11, 0xBC, 0x12, 0x34], .cmps (.mem (.ext 0x1234#16)))] = true := by decide

/-- The postbytes of R117, form by form, each over another base register. -/
theorem test_decode_postbytes : allRead [
    ([0x30, 0x1F], .leax (.off5 .x 0x1F#5)), ([0x30, 0x6F], .leax (.off5 .s 0x0F#5)),
    ([0x30, 0xA0], .leax (.inc1 .y)), ([0x30, 0xC1], .leax (.inc2 .u false)), ([0x30, 0xF1], .leax (.inc2 .s true)),
    ([0x30, 0x82], .leax (.dec1 .x)), ([0x30, 0xA3], .leax (.dec2 .y false)), ([0x30, 0xD3], .leax (.dec2 .u true)),
    ([0x30, 0xE4], .leax (.zero .s false)), ([0x30, 0x94], .leax (.zero .x true)),
    ([0x30, 0xA5], .leax (.accB .y false)), ([0x30, 0xD5], .leax (.accB .u true)),
    ([0x30, 0xE6], .leax (.accA .s false)), ([0x30, 0x96], .leax (.accA .x true)),
    ([0x30, 0xAB], .leax (.accD .y false)), ([0x30, 0xDB], .leax (.accD .u true))] = true := by decide

theorem test_decode_postbytes_with_offset : allRead [
    ([0x30, 0xE8, 0x80], .leax (.off8 .s 0x80#8 false)), ([0x30, 0x98, 0x80], .leax (.off8 .x 0x80#8 true)),
    ([0x30, 0xA9, 0x10, 0x01], .leax (.off16 .y 0x1001#16 false)), ([0x30, 0xD9, 0x10, 0x01], .leax (.off16 .u 0x1001#16 true)),
    ([0x30, 0x8C, 0x10], .leax (.pcr8 0x10#8 false)), ([0x30, 0xFC, 0x10], .leax (.pcr8 0x10#8 true)),
    ([0x30, 0xAD, 0x10, 0x01], .leax (.pcr16 0x1001#16 false)), ([0x30, 0x9D, 0x10, 0x01], .leax (.pcr16 0x1001#16 true)),
    ([0x30, 0x9F, 0x10, 0x01], .leax (.extInd 0x1001#16)), ([0x30, 0xFF, 0x10, 0x01], .leax (.extInd 0x1001#16))] = true := by
  decide

/-- The register codes of R118. -/
theorem test_decode_pairs : allRead [
    ([0x1F, 0x01], .tfr (.r16 .d) (.r16 .x)), ([0x1F, 0x23], .tfr (.r16 .y) (.r16 .u)), ([0x1F, 0x45], .tfr (.r16 .s) (.r16 .pc)),
    ([0x1E, 0x89], .exg (.r8 .a) (.r8 .b)), ([0x1E, 0xAB], .exg (.r8 .cc) (.r8 .dp))] = true := by decide

/-- The fatal encodings and unfinished ones (R124–R127, R129). -/
theorem test_decode_rejects :
    decode [0x01] = .undefinedOpcode ∧ decode [0x10, 0x10] = .undefinedOpcode ∧ decode [0x11, 0x8E] = .undefinedOpcode ∧
    decode [0xA6, 0x87] = .illegalPostbyte 0x87 ∧ decode [0x10, 0xAE, 0x8F] = .illegalPostbyte 0x8F ∧
    decode [0x1F, 0x81] = .illegalRegisterCode 0x81 ∧ decode [0x1E, 0x60] = .illegalRegisterCode 0x60 ∧
    decode [] = .more ∧ decode [0x10] = .more ∧ decode [0xCC, 0x12] = .more ∧ decode [0xA6, 0x99, 0x12] = .more := by decide

/-- The opcode table numbers a page-2 word with the page byte in bits 15..8 (log 11). -/
theorem test_decode_table_words :
    decodeTableWord 8 0x3D = some .mul ∧ decodeTableWord 16 0x103F = some .swi2 ∧ decodeTableWord 16 0x113F = some .swi3 ∧
    decodeTableWord 16 0x108E = some (.ldy (.imm 0)) ∧ decodeTableWord 8 0x01 = none := by decide

/-! ### Single steps -/

/-- The register file at the start of a vector: after reset with the vector 0x8000 (spec/95 section 0). -/
def r0 : Regs := Regs.afterReset 0x8000

/-- The vectors of spec/95 section 0, and nothing else, over State.reset; the periodic IRQ is off (its period is open). -/
def board0 : State :=
  placeBytes 0xFFF2 [0x93, 0x00, 0x92, 0x00, 0x95, 0x00, 0x94, 0x00, 0x91, 0x00, 0x96, 0x00, 0x80, 0x00]
    { State.reset with board.periodicIrqEnabled := false }

/-- Bytes placed at addresses. -/
def place (l : List (Word × List Byte)) (st : State) : State := l.foldl (fun s p => placeBytes p.1 p.2 s) st

/-- The start state of a vector: registers, code at 0x8000, other bytes. -/
def start (r : Regs) (code : List Byte) (mem : List (Word × List Byte)) : State :=
  { place mem (placeBytes 0x8000 code board0) with regs := r }

/-- The bytes at consecutive addresses are as given. -/
def holds (st : State) (a : Word) (bs : List Byte) : Bool :=
  match bs with
  | [] => true
  | v :: rest => decide (peek st a = v) && holds st (a + 1) rest

/-- The step answers a next state with `p`. -/
def stepsTo (st : State) (p : State → Bool) : Bool :=
  match step st with
  | .next t => p t
  | _ => false

/-- One step from the start state ends with the registers `r'` and the bytes `mem'`. -/
def ends (r : Regs) (code : List Byte) (mem : List (Word × List Byte)) (r' : Regs) (mem' : List (Word × List Byte)) : Bool :=
  stepsTo (start r code mem) fun t => decide (t.regs = r') && mem'.all fun p => holds t p.1 p.2

theorem test_step_loads :
    -- V1
    ends { r0 with cc := 0x0F } [0x86, 0x00] [] { r0 with a := 0x00, pc := 0x8002, cc := 0x05 } [] = true ∧
    -- V2
    ends { r0 with cc := 0x00 } [0x86, 0x80] [] { r0 with a := 0x80, pc := 0x8002, cc := 0x08 } [] = true ∧
    -- by hand, R171: LDB <$10, DP=02
    ends { r0 with dp := 0x02, cc := 0x03 } [0xD6, 0x10] [(0x0210, [0x80])]
      { r0 with b := 0x80, pc := 0x8002, dp := 0x02, cc := 0x09 } [] = true ∧
    -- V3
    ends { r0 with cc := 0x00 } [0xCC, 0x80, 0x00] []
      { r0 with a := 0x80, b := 0x00, pc := 0x8003, cc := 0x08 } [] = true ∧
    -- V4
    ends { r0 with y := 0x1010 } [0xAE, 0x30] [(0x1000, [0x12, 0x34])]
      { r0 with x := 0x1234, y := 0x1010, pc := 0x8002 } [] = true ∧
    -- V14
    ends { r0 with x := 0x0100 } [0xAE, 0x81] [(0x0100, [0xAB, 0xCD])]
      { r0 with x := 0xABCD, pc := 0x8002, cc := 0x58 } [] = true ∧
    -- by hand, R175: LDY #$1234
    ends { r0 with cc := 0x52 } [0x10, 0x8E, 0x12, 0x34] [] { r0 with y := 0x1234, pc := 0x8004 } [] = true ∧
    -- by hand, R176: LDU $0100
    ends r0 [0xFE, 0x01, 0x00] [] { r0 with pc := 0x8003, cc := 0x54 } [] = true ∧
    -- by hand: LDS 2,X
    ends { r0 with x := 0x0100 } [0x10, 0xEE, 0x02] [(0x0102, [0x20, 0x00])]
      { r0 with x := 0x0100, s := 0x2000, pc := 0x8003 } [] = true := by decide

theorem test_step_load_addressing :
    -- V5
    ends { r0 with x := 0xFFFF } [0xA6, 0x80] [] { r0 with a := 0x00, x := 0x0000, pc := 0x8002, cc := 0x54 } [] = true ∧
    -- V6
    ends { r0 with u := 0x0000 } [0xA6, 0xC3] [] { r0 with a := 0x80, u := 0xFFFE, pc := 0x8002, cc := 0x58 } [] = true ∧
    -- V7
    ends { r0 with b := 0xFE, y := 0x2000 } [0xA6, 0xA5] [(0x1FFE, [0x55])]
      { r0 with a := 0x55, b := 0xFE, y := 0x2000, pc := 0x8002 } [] = true ∧
    -- V12
    ends { r0 with x := 0x0100 } [0xAE, 0x94] [(0x0100, [0x02, 0x00]), (0x0200, [0x12, 0x34])]
      { r0 with x := 0x1234, pc := 0x8002 } [] = true ∧
    -- V13
    ends r0 [0xA6, 0x9F, 0xFF, 0xFE] [] { r0 with a := 0xA6, pc := 0x8004, cc := 0x58 } [] = true := by decide

theorem test_step_stores :
    -- V16
    ends { r0 with a := 0x00, cc := 0x01 } [0xB7, 0x90, 0x00] []
      { r0 with a := 0x00, pc := 0x8003, cc := 0x05 } [(0x9000, [0x00])] = true ∧
    -- by hand, R178: STB <$10
    ends { r0 with b := 0x80, cc := 0x02 } [0xD7, 0x10] []
      { r0 with b := 0x80, pc := 0x8002, cc := 0x08 } [(0x0010, [0x80])] = true ∧
    -- V17
    ends { r0 with a := 0x12, b := 0x34, cc := 0x00 } [0xFD, 0x01, 0xFF] []
      { r0 with a := 0x12, b := 0x34, pc := 0x8003, cc := 0x00 } [(0x01FF, [0x12, 0x34])] = true ∧
    -- V15
    ends { r0 with x := 0x0300, cc := 0x00 } [0xAF, 0x81] []
      { r0 with x := 0x0302, pc := 0x8002, cc := 0x00 } [(0x0300, [0x03, 0x02])] = true ∧
    -- by hand, R181: STY [$0100]
    ends { r0 with y := 0x1234 } [0x10, 0xAF, 0x9F, 0x01, 0x00] [(0x0100, [0x02, 0x00])]
      { r0 with y := 0x1234, pc := 0x8005 } [(0x0200, [0x12, 0x34])] = true ∧
    -- by hand, R182: STU $0100
    ends { r0 with u := 0x8001 } [0xFF, 0x01, 0x00] []
      { r0 with u := 0x8001, pc := 0x8003, cc := 0x58 } [(0x0100, [0x80, 0x01])] = true ∧
    -- by hand, R183: STS ,--Y
    ends { r0 with y := 0x0102 } [0x10, 0xEF, 0xA3] [(0x0100, [0x55, 0x66])]
      { r0 with y := 0x0100, pc := 0x8003, cc := 0x54 } [(0x0100, [0x00, 0x00])] = true := by decide

theorem test_step_load_effective_address :
    -- V8
    ends { r0 with s := 0x0100 } [0x30, 0xE8, 0x80] [] { r0 with x := 0x0080, s := 0x0100, pc := 0x8003 } [] = true ∧
    -- V9
    ends { r0 with x := 0xF800 } [0x30, 0x89, 0x10, 0x00] [] { r0 with x := 0x0800, pc := 0x8004 } [] = true ∧
    -- V10
    ends { r0 with a := 0x01, b := 0x02, x := 0x1000 } [0x30, 0x8B] []
      { r0 with a := 0x01, b := 0x02, x := 0x1102, pc := 0x8002 } [] = true ∧
    -- V11
    ends r0 [0x30, 0x8C, 0x10] [] { r0 with x := 0x8013, pc := 0x8003 } [] = true ∧
    -- by hand, R151: LEAX -4,PCR
    ends r0 [0x30, 0x8D, 0xFF, 0xFC] [] { r0 with x := 0x8000, pc := 0x8004 } [] = true ∧
    -- V18
    ends { r0 with x := 0x0001, cc := 0x00 } [0x30, 0x1F] []
      { r0 with x := 0x0000, pc := 0x8002, cc := 0x04 } [] = true ∧
    -- V19
    ends { r0 with x := 0x1234 } [0x30, 0x80] [] { r0 with x := 0x1234, pc := 0x8002 } [] = true ∧
    -- by hand, R185: LEAY A,X
    ends { r0 with a := 0xFF, x := 0x0001 } [0x31, 0x86] []
      { r0 with a := 0xFF, x := 0x0001, pc := 0x8002, cc := 0x54 } [] = true ∧
    -- V20
    ends { r0 with s := 0x0000, cc := 0x00 } [0x32, 0x7F] []
      { r0 with s := 0xFFFF, pc := 0x8002, cc := 0x00 } [] = true ∧
    -- by hand, R187: LEAU [$10,PCR]
    ends r0 [0x33, 0x9C, 0x10] [(0x8013, [0x12, 0x34])] { r0 with u := 0x1234, pc := 0x8003 } [] = true := by decide

theorem test_step_transfer_exchange :
    -- V21
    ends { r0 with a := 0x5A } [0x1F, 0x89] [] { r0 with a := 0x5A, b := 0x5A, pc := 0x8002 } [] = true ∧
    -- V22
    ends r0 [0x1F, 0x51] [] { r0 with x := 0x8002, pc := 0x8002 } [] = true ∧
    -- V23
    ends { r0 with x := 0x9000 } [0x1F, 0x15] [] { r0 with x := 0x9000, pc := 0x9000 } [] = true ∧
    -- V24
    ends { r0 with a := 0xFF } [0x1F, 0x8A] [] { r0 with a := 0xFF, pc := 0x8002, cc := 0xFF } [] = true ∧
    -- V25
    ends { r0 with a := 0x12, b := 0x34, x := 0xABCD } [0x1E, 0x01] []
      { r0 with a := 0xAB, b := 0xCD, x := 0x1234, pc := 0x8002 } [] = true ∧
    -- by hand, R189: EXG CC,DP
    ends { r0 with dp := 0x12 } [0x1E, 0xAB] [] { r0 with pc := 0x8002, dp := 0x50, cc := 0x12 } [] = true := by decide

theorem test_step_push_pull :
    -- V29
    ends { r0 with a := 0x01, b := 0x02, x := 0x0405, y := 0x0607, u := 0x0809, s := 0x2000, dp := 0x03, cc := 0x00 } [0x34, 0xFF] []
      { r0 with a := 0x01, b := 0x02, x := 0x0405, y := 0x0607, u := 0x0809, s := 0x1FF4, pc := 0x8002, dp := 0x03, cc := 0x00 } [(0x1FF4, [0x00, 0x01, 0x02, 0x03, 0x04, 0x05, 0x06, 0x07, 0x08, 0x09, 0x80, 0x02])] = true ∧
    -- V31
    ends { r0 with u := 0x1000, s := 0xBEEF } [0x36, 0xC0] []
      { r0 with u := 0x0FFC, s := 0xBEEF, pc := 0x8002 } [(0x0FFC, [0xBE, 0xEF, 0x80, 0x02])] = true ∧
    -- V30
    ends { r0 with s := 0x1FFE } [0x35, 0x06] [(0x1FFE, [0xAA, 0xBB])]
      { r0 with a := 0xAA, b := 0xBB, s := 0x2000, pc := 0x8002 } [] = true ∧
    -- V32
    ends { r0 with s := 0x1FFE } [0x35, 0x80] [(0x1FFE, [0x90, 0x00])] { r0 with s := 0x2000, pc := 0x9000 } [] = true ∧
    -- by hand, R193: PULU CC,S
    ends { r0 with u := 0x1000 } [0x37, 0x41] [(0x1000, [0x01, 0x20, 0x00])]
      { r0 with u := 0x1003, s := 0x2000, pc := 0x8002, cc := 0x01 } [] = true := by decide

theorem test_step_add :
    -- A1
    ends { r0 with a := 0x7F, cc := 0x00 } [0x8B, 0x01] [] { r0 with a := 0x80, pc := 0x8002, cc := 0x2A } [] = true ∧
    -- A2
    ends { r0 with a := 0xFF, cc := 0x00 } [0x8B, 0x01] [] { r0 with a := 0x00, pc := 0x8002, cc := 0x25 } [] = true ∧
    -- A3
    ends { r0 with a := 0x08, cc := 0x00 } [0x8B, 0x08] [] { r0 with a := 0x10, pc := 0x8002, cc := 0x20 } [] = true ∧
    -- A6
    ends { r0 with b := 0x80, cc := 0x00 } [0xCB, 0x80] [] { r0 with b := 0x00, pc := 0x8002, cc := 0x07 } [] = true ∧
    -- A42
    ends { r0 with a := 0x01, dp := 0x02, cc := 0x00 } [0x9B, 0x10] [(0x0210, [0x02])]
      { r0 with a := 0x03, pc := 0x8002, dp := 0x02, cc := 0x00 } [] = true ∧
    -- A4
    ends { r0 with a := 0x0F, cc := 0x01 } [0x89, 0x00] [] { r0 with a := 0x10, pc := 0x8002, cc := 0x20 } [] = true ∧
    -- A5
    ends { r0 with b := 0x00, cc := 0x01 } [0xC9, 0x7F] [] { r0 with b := 0x80, pc := 0x8002, cc := 0x2A } [] = true ∧
    -- A7
    ends { r0 with a := 0x7F, b := 0xFF, cc := 0x20 } [0xC3, 0x00, 0x01] []
      { r0 with a := 0x80, b := 0x00, pc := 0x8003, cc := 0x2A } [] = true ∧
    -- A8
    ends { r0 with a := 0xFF, b := 0xFF, cc := 0x00 } [0xC3, 0x00, 0x01] []
      { r0 with a := 0x00, b := 0x00, pc := 0x8003, cc := 0x05 } [] = true := by decide

theorem test_step_subtract :
    -- A9
    ends { r0 with a := 0x00, cc := 0x20 } [0x80, 0x01] [] { r0 with a := 0xFF, pc := 0x8002, cc := 0x29 } [] = true ∧
    -- A10
    ends { r0 with a := 0x80, cc := 0x00 } [0x80, 0x01] [] { r0 with a := 0x7F, pc := 0x8002, cc := 0x02 } [] = true ∧
    -- by hand, R206: SUBB #$01
    ends { r0 with b := 0x00, cc := 0x00 } [0xC0, 0x01] [] { r0 with b := 0xFF, pc := 0x8002, cc := 0x09 } [] = true ∧
    -- A43
    ends { r0 with b := 0x05, cc := 0x00 } [0xF0, 0x3F, 0xFC] []
      { r0 with b := 0x05, pc := 0x8003, cc := 0x00 } [] = true ∧
    -- A11
    ends { r0 with a := 0x00, cc := 0x01 } [0x82, 0x00] [] { r0 with a := 0xFF, pc := 0x8002, cc := 0x09 } [] = true ∧
    -- A12
    ends { r0 with b := 0xFF, cc := 0x01 } [0xC2, 0xFF] [] { r0 with b := 0xFF, pc := 0x8002, cc := 0x09 } [] = true ∧
    -- A13
    ends { r0 with a := 0x80, b := 0x00, cc := 0x00 } [0x83, 0x00, 0x01] []
      { r0 with a := 0x7F, b := 0xFF, pc := 0x8003, cc := 0x02 } [] = true ∧
    -- A14
    ends { r0 with a := 0x00, b := 0x00, cc := 0x00 } [0x83, 0x00, 0x01] []
      { r0 with a := 0xFF, b := 0xFF, pc := 0x8003, cc := 0x09 } [] = true := by decide

theorem test_step_compare :
    -- A15
    ends { r0 with a := 0x7F, cc := 0x00 } [0x81, 0x80] [] { r0 with a := 0x7F, pc := 0x8002, cc := 0x0B } [] = true ∧
    -- A16
    ends { r0 with a := 0x10, cc := 0x00 } [0x81, 0x10] [] { r0 with a := 0x10, pc := 0x8002, cc := 0x04 } [] = true ∧
    -- A17
    ends { r0 with b := 0x00, cc := 0x00 } [0xC1, 0x01] [] { r0 with b := 0x00, pc := 0x8002, cc := 0x09 } [] = true ∧
    -- A18
    ends { r0 with a := 0x7F, b := 0xFF, cc := 0x00 } [0x10, 0x83, 0x80, 0x00] []
      { r0 with a := 0x7F, b := 0xFF, pc := 0x8004, cc := 0x0B } [] = true ∧
    -- A19
    ends { r0 with x := 0x1234, cc := 0x00 } [0x8C, 0x12, 0x34] []
      { r0 with x := 0x1234, pc := 0x8003, cc := 0x04 } [] = true ∧
    -- A20
    ends { r0 with y := 0x0000, cc := 0x00 } [0x10, 0x8C, 0x00, 0x01] []
      { r0 with y := 0x0000, pc := 0x8004, cc := 0x09 } [] = true ∧
    -- A21
    ends { r0 with u := 0x0000, cc := 0x00 } [0x11, 0x83, 0xFF, 0xFF] []
      { r0 with u := 0x0000, pc := 0x8004, cc := 0x01 } [] = true ∧
    -- A22
    ends { r0 with s := 0x2000, cc := 0x00 } [0x11, 0x8C, 0x20, 0x00] []
      { r0 with s := 0x2000, pc := 0x8004, cc := 0x04 } [] = true := by decide

theorem test_step_logic :
    -- A23
    ends { r0 with a := 0xF0, cc := 0x03 } [0x84, 0x0F] [] { r0 with a := 0x00, pc := 0x8002, cc := 0x05 } [] = true ∧
    -- A24
    ends { r0 with b := 0xFF, cc := 0x00 } [0xC4, 0x80] [] { r0 with b := 0x80, pc := 0x8002, cc := 0x08 } [] = true ∧
    -- A25
    ends { r0 with a := 0x01, cc := 0x02 } [0x8A, 0x80] [] { r0 with a := 0x81, pc := 0x8002, cc := 0x08 } [] = true ∧
    -- A26
    ends { r0 with b := 0x00, cc := 0x00 } [0xCA, 0x00] [] { r0 with b := 0x00, pc := 0x8002, cc := 0x04 } [] = true ∧
    -- A27
    ends { r0 with a := 0x0F, cc := 0x00 } [0x88, 0xFF] [] { r0 with a := 0xF0, pc := 0x8002, cc := 0x08 } [] = true ∧
    -- A28
    ends { r0 with b := 0xAA, cc := 0x00 } [0xC8, 0xAA] [] { r0 with b := 0x00, pc := 0x8002, cc := 0x04 } [] = true ∧
    -- A29
    ends { r0 with a := 0x7F, cc := 0x00 } [0x85, 0x80] [] { r0 with a := 0x7F, pc := 0x8002, cc := 0x04 } [] = true ∧
    -- A30
    ends { r0 with b := 0x80, cc := 0x02 } [0xC5, 0x80] [] { r0 with b := 0x80, pc := 0x8002, cc := 0x08 } [] = true := by decide

theorem test_step_multiply_sign_extend_abx :
    -- A31
    ends { r0 with a := 0xFF, b := 0xFF, cc := 0x00 } [0x3D] []
      { r0 with a := 0xFE, b := 0x01, pc := 0x8001, cc := 0x00 } [] = true ∧
    -- A32
    ends { r0 with a := 0x0C, b := 0x0B, cc := 0x00 } [0x3D] []
      { r0 with a := 0x00, b := 0x84, pc := 0x8001, cc := 0x01 } [] = true ∧
    -- A33
    ends { r0 with a := 0x00, b := 0x55, cc := 0x0B } [0x3D] []
      { r0 with a := 0x00, b := 0x00, pc := 0x8001, cc := 0x0E } [] = true ∧
    -- A39
    ends { r0 with a := 0x00, b := 0x80, cc := 0x00 } [0x1D] []
      { r0 with a := 0xFF, b := 0x80, pc := 0x8001, cc := 0x08 } [] = true ∧
    -- A40
    ends { r0 with a := 0x12, b := 0x00, cc := 0x03 } [0x1D] []
      { r0 with a := 0x00, b := 0x00, pc := 0x8001, cc := 0x07 } [] = true ∧
    -- A41
    ends { r0 with b := 0xFF, x := 0xFFFF, cc := 0x00 } [0x3A] []
      { r0 with b := 0xFF, x := 0x00FE, pc := 0x8001, cc := 0x00 } [] = true := by decide

theorem test_step_decimal_adjust :
    -- A34
    ends { r0 with a := 0x11, cc := 0x20 } [0x19] [] { r0 with a := 0x17, pc := 0x8001, cc := 0x20 } [] = true ∧
    -- A35
    ends { r0 with a := 0x9A, cc := 0x00 } [0x19] [] { r0 with a := 0x00, pc := 0x8001, cc := 0x05 } [] = true ∧
    -- A36
    ends { r0 with a := 0xA0, cc := 0x00 } [0x19] [] { r0 with a := 0x00, pc := 0x8001, cc := 0x05 } [] = true ∧
    -- A37
    ends { r0 with a := 0x32, cc := 0x21 } [0x19] [] { r0 with a := 0x98, pc := 0x8001, cc := 0x29 } [] = true ∧
    -- A38
    ends { r0 with a := 0x12, cc := 0x02 } [0x19] [] { r0 with a := 0x12, pc := 0x8001, cc := 0x02 } [] = true := by decide

theorem test_step_negate_complement :
    -- U1
    ends { r0 with a := 0x80, cc := 0x00 } [0x40] [] { r0 with a := 0x80, pc := 0x8001, cc := 0x0B } [] = true ∧
    -- U2
    ends { r0 with a := 0x00, cc := 0x0B } [0x40] [] { r0 with a := 0x00, pc := 0x8001, cc := 0x04 } [] = true ∧
    -- U3
    ends { r0 with b := 0x01, cc := 0x00 } [0x50] [] { r0 with b := 0xFF, pc := 0x8001, cc := 0x09 } [] = true ∧
    -- U4
    ends { r0 with cc := 0x00 } [0x00, 0x20] [(0x0020, [0x7F])]
      { r0 with pc := 0x8002, cc := 0x09 } [(0x0020, [0x81])] = true ∧
    -- U5
    ends { r0 with a := 0x00, cc := 0x02 } [0x43] [] { r0 with a := 0xFF, pc := 0x8001, cc := 0x09 } [] = true ∧
    -- U6
    ends { r0 with b := 0xFF, cc := 0x00 } [0x53] [] { r0 with b := 0x00, pc := 0x8001, cc := 0x05 } [] = true ∧
    -- U7
    ends { r0 with x := 0x0100, cc := 0x00 } [0x63, 0x84] [(0x0100, [0x55])]
      { r0 with x := 0x0100, pc := 0x8002, cc := 0x09 } [(0x0100, [0xAA])] = true := by decide

theorem test_step_right_shifts :
    -- U8
    ends { r0 with a := 0x01, cc := 0x0A } [0x44] [] { r0 with a := 0x00, pc := 0x8001, cc := 0x07 } [] = true ∧
    -- U9
    ends { r0 with b := 0x80, cc := 0x01 } [0x54] [] { r0 with b := 0x40, pc := 0x8001, cc := 0x00 } [] = true ∧
    -- U10
    ends { r0 with cc := 0x00 } [0x74, 0x01, 0x00] [(0x0100, [0xFF])]
      { r0 with pc := 0x8003, cc := 0x01 } [(0x0100, [0x7F])] = true ∧
    -- U11
    ends { r0 with a := 0x01, cc := 0x01 } [0x46] [] { r0 with a := 0x80, pc := 0x8001, cc := 0x09 } [] = true ∧
    -- U12
    ends { r0 with b := 0x02, cc := 0x00 } [0x56] [] { r0 with b := 0x01, pc := 0x8001, cc := 0x00 } [] = true ∧
    -- by hand, R249: ROR $0100
    ends { r0 with cc := 0x01 } [0x76, 0x01, 0x00] [(0x0100, [0x02])]
      { r0 with pc := 0x8003, cc := 0x08 } [(0x0100, [0x81])] = true ∧
    -- U13
    ends { r0 with a := 0x81, cc := 0x00 } [0x47] [] { r0 with a := 0xC0, pc := 0x8001, cc := 0x09 } [] = true ∧
    -- U14
    ends { r0 with b := 0x01, cc := 0x02 } [0x57] [] { r0 with b := 0x00, pc := 0x8001, cc := 0x07 } [] = true ∧
    -- by hand, R252: ASR <$20
    ends { r0 with cc := 0x02 } [0x07, 0x20] [(0x0020, [0x01])]
      { r0 with pc := 0x8002, cc := 0x07 } [(0x0020, [0x00])] = true := by decide

theorem test_step_left_shifts :
    -- U15
    ends { r0 with a := 0x40, cc := 0x00 } [0x48] [] { r0 with a := 0x80, pc := 0x8001, cc := 0x0A } [] = true ∧
    -- U16
    ends { r0 with a := 0x80, cc := 0x00 } [0x48] [] { r0 with a := 0x00, pc := 0x8001, cc := 0x07 } [] = true ∧
    -- U17
    ends { r0 with b := 0xC0, cc := 0x00 } [0x58] [] { r0 with b := 0x80, pc := 0x8001, cc := 0x09 } [] = true ∧
    -- by hand, R255: ASL ,X
    ends { r0 with x := 0x0100, cc := 0x00 } [0x68, 0x84] [(0x0100, [0x81])]
      { r0 with x := 0x0100, pc := 0x8002, cc := 0x03 } [(0x0100, [0x02])] = true ∧
    -- U18
    ends { r0 with a := 0x80, cc := 0x01 } [0x49] [] { r0 with a := 0x01, pc := 0x8001, cc := 0x03 } [] = true ∧
    -- U19
    ends { r0 with b := 0x7F, cc := 0x00 } [0x59] [] { r0 with b := 0xFE, pc := 0x8001, cc := 0x0A } [] = true ∧
    -- by hand, R258: ROL <$20
    ends { r0 with cc := 0x01 } [0x09, 0x20] [(0x0020, [0x40])]
      { r0 with pc := 0x8002, cc := 0x0A } [(0x0020, [0x81])] = true := by decide

theorem test_step_decrement_increment :
    -- U20
    ends { r0 with a := 0x80, cc := 0x01 } [0x4A] [] { r0 with a := 0x7F, pc := 0x8001, cc := 0x03 } [] = true ∧
    -- U21
    ends { r0 with a := 0x00, cc := 0x00 } [0x4A] [] { r0 with a := 0xFF, pc := 0x8001, cc := 0x08 } [] = true ∧
    -- U22
    ends { r0 with b := 0x01, cc := 0x00 } [0x5A] [] { r0 with b := 0x00, pc := 0x8001, cc := 0x04 } [] = true ∧
    -- by hand, R261: DEC <$20
    ends { r0 with cc := 0x01 } [0x0A, 0x20] [(0x0020, [0x80])]
      { r0 with pc := 0x8002, cc := 0x03 } [(0x0020, [0x7F])] = true ∧
    -- U32
    ends { r0 with cc := 0x00 } [0x7A, 0x81, 0x00] [(0x8100, [0x00])]
      { r0 with pc := 0x8003, cc := 0x08 } [(0x8100, [0x00])] = true ∧
    -- U23
    ends { r0 with a := 0x7F, cc := 0x00 } [0x4C] [] { r0 with a := 0x80, pc := 0x8001, cc := 0x0A } [] = true ∧
    -- U24
    ends { r0 with b := 0xFF, cc := 0x01 } [0x5C] [] { r0 with b := 0x00, pc := 0x8001, cc := 0x05 } [] = true ∧
    -- by hand, R264: INC ,Y+
    ends { r0 with y := 0x0100, cc := 0x00 } [0x6C, 0xA0] [(0x0100, [0x7F])]
      { r0 with y := 0x0101, pc := 0x8002, cc := 0x0A } [(0x0100, [0x80])] = true := by decide

theorem test_step_test_clear :
    -- U26
    ends { r0 with a := 0x80, cc := 0x03 } [0x4D] [] { r0 with a := 0x80, pc := 0x8001, cc := 0x09 } [] = true ∧
    -- U27
    ends { r0 with b := 0x00, cc := 0x00 } [0x5D] [] { r0 with b := 0x00, pc := 0x8001, cc := 0x04 } [] = true ∧
    -- U28
    ends { r0 with cc := 0x02 } [0x0D, 0x30] [(0x0030, [0x01])]
      { r0 with pc := 0x8002, cc := 0x00 } [(0x0030, [0x01])] = true ∧
    -- U29
    ends { r0 with a := 0x55, cc := 0x0B } [0x4F] [] { r0 with a := 0x00, pc := 0x8001, cc := 0x04 } [] = true ∧
    -- U30
    ends { r0 with b := 0xAA, cc := 0x08 } [0x5F] [] { r0 with b := 0x00, pc := 0x8001, cc := 0x04 } [] = true ∧
    -- U31
    ends { r0 with cc := 0x0A } [0x7F, 0x01, 0x00] [(0x0100, [0x99])]
      { r0 with pc := 0x8003, cc := 0x04 } [(0x0100, [0x00])] = true := by decide

theorem test_step_branch_targets :
    -- B1
    ends r0 [0x20, 0xFE] [] { r0 with pc := 0x8000 } [] = true ∧
    -- B2
    ends { r0 with cc := 0x00 } [0x26, 0x80] [] { r0 with pc := 0x7F82, cc := 0x00 } [] = true ∧
    -- B3
    ends r0 [0x16, 0x7F, 0xFD] [] { r0 with pc := 0x0000 } [] = true ∧
    -- B4
    ends { r0 with cc := 0x04 } [0x10, 0x27, 0xFF, 0xF0] [] { r0 with pc := 0x7FF4, cc := 0x04 } [] = true ∧
    -- B5
    ends { r0 with cc := 0x00 } [0x10, 0x27, 0xFF, 0xF0] [] { r0 with pc := 0x8004, cc := 0x00 } [] = true := by decide

theorem test_step_calls_jumps :
    -- B6
    ends { r0 with s := 0x2000 } [0x8D, 0x10] [] { r0 with s := 0x1FFE, pc := 0x8012 } [(0x1FFE, [0x80, 0x02])] = true ∧
    -- B7
    ends { r0 with s := 0x2000 } [0x17, 0x01, 0x00] []
      { r0 with s := 0x1FFE, pc := 0x8103 } [(0x1FFE, [0x80, 0x03])] = true ∧
    -- B8
    ends r0 [0x7E, 0x90, 0x00] [] { r0 with pc := 0x9000 } [] = true ∧
    -- B9
    ends r0 [0x6E, 0x9F, 0xFF, 0xFE] [] { r0 with pc := 0x8000 } [] = true ∧
    -- B10
    ends { r0 with x := 0x9000 } [0x6E, 0x80] [] { r0 with x := 0x9001, pc := 0x9000 } [] = true ∧
    -- B11
    ends { r0 with s := 0x2000 } [0xBD, 0x90, 0x00] []
      { r0 with s := 0x1FFE, pc := 0x9000 } [(0x1FFE, [0x80, 0x03])] = true ∧
    -- B12
    ends { r0 with s := 0x2000 } [0xAD, 0xE1] [] { r0 with s := 0x2000, pc := 0x2000 } [(0x2000, [0x80, 0x02])] = true ∧
    -- B13
    ends { r0 with s := 0x2000, dp := 0x90 } [0x9D, 0x00] []
      { r0 with s := 0x1FFE, pc := 0x9000, dp := 0x90 } [(0x1FFE, [0x80, 0x02])] = true ∧
    -- B14
    ends { r0 with s := 0x1FFE } [0x39] [(0x1FFE, [0x80, 0x40])] { r0 with s := 0x2000, pc := 0x8040 } [] = true ∧
    -- B15
    ends { r0 with cc := 0x0F } [0x12] [] { r0 with pc := 0x8001, cc := 0x0F } [] = true := by decide

theorem test_step_software_interrupts :
    -- S1
    ends { r0 with a := 0x01, b := 0x02, x := 0x0405, y := 0x0607, u := 0x0809, s := 0x2000, dp := 0x03, cc := 0x00 } [0x3F] []
      { r0 with a := 0x01, b := 0x02, x := 0x0405, y := 0x0607, u := 0x0809, s := 0x1FF4, pc := 0x9100, dp := 0x03, cc := 0xD0 } [(0x1FF4, [0x80, 0x01, 0x02, 0x03, 0x04, 0x05, 0x06, 0x07, 0x08, 0x09, 0x80, 0x01])] = true ∧
    -- S2
    ends { r0 with s := 0x2000, cc := 0x00 } [0x10, 0x3F] []
      { r0 with s := 0x1FF4, pc := 0x9200, cc := 0x80 } [(0x1FF4, [0x80]), (0x1FFE, [0x80, 0x02])] = true ∧
    -- S3
    ends { r0 with s := 0x2000, cc := 0x50 } [0x11, 0x3F] []
      { r0 with s := 0x1FF4, pc := 0x9300, cc := 0xD0 } [(0x1FF4, [0xD0]), (0x1FFE, [0x80, 0x02])] = true ∧
    -- S4
    ends { r0 with s := 0x1FF4 } [0x3B] [(0x1FF4, [0x8F, 0x11, 0x22, 0x33, 0x44, 0x55, 0x66, 0x77, 0x88, 0x99, 0x90, 0x00])]
      { r0 with a := 0x11, b := 0x22, x := 0x4455, y := 0x6677, u := 0x8899, s := 0x2000, pc := 0x9000, dp := 0x33, cc := 0x8F } [] = true ∧
    -- S5
    ends { r0 with s := 0x1FFD } [0x3B] [(0x1FFD, [0x00, 0x80, 0x10])]
      { r0 with s := 0x2000, pc := 0x8010, cc := 0x00 } [] = true := by decide

theorem test_step_condition_codes :
    -- S6
    ends { r0 with cc := 0x50 } [0x1C, 0xEF] [] { r0 with pc := 0x8002, cc := 0x40 } [] = true ∧
    -- S7
    ends { r0 with cc := 0xFF } [0x1C, 0x00] [] { r0 with pc := 0x8002, cc := 0x00 } [] = true ∧
    -- S8
    ends { r0 with cc := 0x00 } [0x1A, 0x50] [] { r0 with pc := 0x8002, cc := 0x50 } [] = true ∧
    -- S9
    ends { r0 with cc := 0x50 } [0x1A, 0x01] [] { r0 with pc := 0x8002, cc := 0x51 } [] = true := by decide

-- U25: INC on SOL_GEN writes the solenoid too; U33: CLR $3FFF reads it first, and the zero it writes clears no latch
theorem test_step_read_modify_write_io :
    stepsTo (start { r0 with cc := 0x00 } [0x7C, 0x3F, 0xE0] [(0x3FE0, [0x03])])
      (fun t => decide (t.board.ram.read 0x3FE0 = 0x04 ∧ t.board.sol[0] = 0x04 ∧ t.regs.cc = 0x00)) = true ∧
    stepsTo { start { r0 with cc := 0x10 } [0x7F, 0x3F, 0xFF] [] with board.zcFlag := true, latches.irqPending := true }
      (fun t => decide (t.latches.irqPending = true ∧ t.board.periodicIrqEnabled = false ∧ t.regs.cc = 0x14)) = true := by decide

-- S10, S11
theorem test_step_waits :
    stepsTo (start { r0 with s := 0x2000 } [0x3C, 0xEF] []) (fun t => decide (t.latches.wait = .cwai ∧
      t.regs = { r0 with s := 0x1FF4, pc := 0x8002, cc := 0xC0 }) && holds t 0x1FF4 [0xC0] && holds t 0x1FFE [0x80, 0x02]) = true ∧
    stepsTo (start r0 [0x13] []) (fun t => decide (t.latches.wait = .sync ∧ t.regs = { r0 with pc := 0x8001 })) = true := by decide

/-- A fault as numbers: which of the three encodings, the address, the bytes of its info. -/
def faultData (f : Fault) : Nat × Nat × List Nat :=
  match f with
  | .undefinedOpcode a bs => (1, a.toNat, bs.map BitVec.toNat)
  | .illegalPostbyte a ops pb => (2, a.toNat, (ops ++ [pb]).map BitVec.toNat)
  | .illegalRegisterCode a ops pb => (3, a.toNat, (ops ++ [pb]).map BitVec.toNat)
  | .soundDecodeOutOfRange _ => (0, 0, [])
  | .configRejected _ => (0, 0, [])

/-- The CPU step faults, with this data, PC past the bytes read and no ticks (R351). -/
def faultsAt (code : List Byte) (f : Nat × Nat × List Nat) (pc : Word) : Bool :=
  match cpuStep (start r0 code []) with
  | .fault g t => decide (faultData g = f ∧ t.fault.map faultData = some f ∧ t.regs = { r0 with pc := pc } ∧ t.counters = .start ∧ t.latches = .afterReset)
  | _ => false

-- V26, V27, V28, S12, S13, S14, S15
theorem test_step_faults :
    faultsAt [0x1F, 0x81] (3, 0x8000, [0x1F, 0x81]) 0x8002 = true ∧
    faultsAt [0x1F, 0x60] (3, 0x8000, [0x1F, 0x60]) 0x8002 = true ∧
    faultsAt [0xA6, 0x87] (2, 0x8000, [0xA6, 0x87]) 0x8002 = true ∧
    faultsAt [0x01] (1, 0x8000, [0x01]) 0x8001 = true ∧
    faultsAt [0x10, 0x10] (1, 0x8000, [0x10, 0x10]) 0x8002 = true ∧
    faultsAt [0x10, 0x20] (1, 0x8000, [0x10, 0x20]) 0x8002 = true ∧
    faultsAt [0x11, 0x8E] (1, 0x8000, [0x11, 0x8E]) 0x8002 = true := by decide

/-- Whether a branch over +0x10 is taken, for the eight CC values of the truth table of spec/95 section 2.4. -/
def branchRow (code : List Byte) : List Bool :=
  [0x00, 0x01, 0x04, 0x02, 0x08, 0x0A, 0x05, 0x0C].map fun cc =>
    stepsTo (start { r0 with cc := cc } code []) fun t =>
      decide (t.regs = { r0 with cc := cc, pc := 0x8010 + BitVec.ofNat 16 code.length })

theorem test_step_short_branches_low :
    branchRow [0x20, 0x10] = [true, true, true, true, true, true, true, true] ∧
    branchRow [0x21, 0x10] = [false, false, false, false, false, false, false, false] ∧
    branchRow [0x22, 0x10] = [true, false, false, true, true, true, false, false] ∧
    branchRow [0x23, 0x10] = [false, true, true, false, false, false, true, true] ∧
    branchRow [0x24, 0x10] = [true, false, true, true, true, true, false, true] ∧
    branchRow [0x25, 0x10] = [false, true, false, false, false, false, true, false] ∧
    branchRow [0x26, 0x10] = [true, true, false, true, true, true, false, false] ∧
    branchRow [0x27, 0x10] = [false, false, true, false, false, false, true, true] := by decide

theorem test_step_short_branches_high :
    branchRow [0x28, 0x10] = [true, true, true, false, true, false, true, true] ∧
    branchRow [0x29, 0x10] = [false, false, false, true, false, true, false, false] ∧
    branchRow [0x2A, 0x10] = [true, true, true, true, false, false, true, false] ∧
    branchRow [0x2B, 0x10] = [false, false, false, false, true, true, false, true] ∧
    branchRow [0x2C, 0x10] = [true, true, true, false, false, true, true, false] ∧
    branchRow [0x2D, 0x10] = [false, false, false, true, true, false, false, true] ∧
    branchRow [0x2E, 0x10] = [true, true, false, false, false, true, false, false] ∧
    branchRow [0x2F, 0x10] = [false, false, true, true, true, false, true, true] := by decide

theorem test_step_long_branches_low :
    branchRow [0x16, 0x00, 0x10] = [true, true, true, true, true, true, true, true] ∧
    branchRow [0x10, 0x21, 0x00, 0x10] = [false, false, false, false, false, false, false, false] ∧
    branchRow [0x10, 0x22, 0x00, 0x10] = [true, false, false, true, true, true, false, false] ∧
    branchRow [0x10, 0x23, 0x00, 0x10] = [false, true, true, false, false, false, true, true] ∧
    branchRow [0x10, 0x24, 0x00, 0x10] = [true, false, true, true, true, true, false, true] ∧
    branchRow [0x10, 0x25, 0x00, 0x10] = [false, true, false, false, false, false, true, false] ∧
    branchRow [0x10, 0x26, 0x00, 0x10] = [true, true, false, true, true, true, false, false] ∧
    branchRow [0x10, 0x27, 0x00, 0x10] = [false, false, true, false, false, false, true, true] := by decide

theorem test_step_long_branches_high :
    branchRow [0x10, 0x28, 0x00, 0x10] = [true, true, true, false, true, false, true, true] ∧
    branchRow [0x10, 0x29, 0x00, 0x10] = [false, false, false, true, false, true, false, false] ∧
    branchRow [0x10, 0x2A, 0x00, 0x10] = [true, true, true, true, false, false, true, false] ∧
    branchRow [0x10, 0x2B, 0x00, 0x10] = [false, false, false, false, true, true, false, true] ∧
    branchRow [0x10, 0x2C, 0x00, 0x10] = [true, true, true, false, false, true, true, false] ∧
    branchRow [0x10, 0x2D, 0x00, 0x10] = [false, false, false, true, true, false, false, true] ∧
    branchRow [0x10, 0x2E, 0x00, 0x10] = [true, true, false, false, false, true, false, false] ∧
    branchRow [0x10, 0x2F, 0x00, 0x10] = [false, false, true, true, true, false, true, true] := by decide

/-! ### Interrupts -/

/-- NOPs at 0x8000 and at each handler, S = 0x2000. -/
def intStart (cc : Byte) : State :=
  start { r0 with cc := cc, s := 0x2000, a := 0x11, b := 0x22 } [0x12] [(0x9400, [0x12]), (0x9500, [0x12]), (0x9600, [0x12])]

-- I1, I2
theorem test_irq_taken_and_masked :
    stepsTo (hostInput .irq (intStart 0x00)) (fun t => decide (t.regs = { r0 with s := 0x1FF4, pc := 0x9401, cc := 0x90, a := 0x11, b := 0x22 } ∧
      t.latches.irqPending = true ∧ t.counters.irqCount = 1) &&
      holds t 0x1FF4 [0x80, 0x11, 0x22, 0x00, 0x00, 0x00, 0x00, 0x00, 0x00, 0x00, 0x80, 0x00]) = true ∧
    stepsTo (hostInput .irq (intStart 0xFF)) (fun t => decide (t.regs = { r0 with s := 0x2000, pc := 0x8001, cc := 0xFF, a := 0x11, b := 0x22 } ∧
      t.latches.irqPending = true ∧ t.counters.missedIrqCount = 1 ∧ t.counters.irqCount = 0)) = true := by decide

-- I3, I5
theorem test_firq_taken :
    stepsTo (hostInput .firq (intStart 0x00)) (fun t => decide (t.regs.s = 0x1FFD ∧ t.regs.pc = 0x9501 ∧ t.regs.cc = 0x50 ∧
      t.latches.firqPending = true ∧ t.counters.firqCount = 1) && holds t 0x1FFD [0x00, 0x80, 0x00]) = true ∧
    stepsTo (hostInput .firq (hostInput .irq (intStart 0x00))) (fun t => decide (t.regs.pc = 0x9501 ∧ t.latches.irqPending = true)) =
      true := by decide

-- I4, I12
theorem test_nmi_taken :
    stepsTo (hostInput .nmi (hostInput .firq (hostInput .irq (intStart 0x00)))) (fun t => decide (t.regs.s = 0x1FF4 ∧
      t.regs.pc = 0x9601 ∧ t.regs.cc = 0xD0 ∧ t.latches = ⟨true, true, false, .none⟩ ∧ t.counters.nmiCount = 1)) = true ∧
    stepsTo (hostInput .nmi (intStart 0x50)) (fun t => decide (t.regs.pc = 0x9601 ∧ t.regs.cc = 0xD0 ∧
      t.latches.nmiPending = false) && holds t 0x1FF4 [0xD0]) = true := by decide

/-- A CPU waiting in CWAI, its frame stacked. -/
def cwaiStart : State := { intStart 0xC0 with latches.wait := .cwai, regs.s := 0x1FF4 }

/-- A CPU waiting in SYNC before INCA. -/
def syncStart : State :=
  { start { r0 with pc := 0x8000, s := 0x2000 } [0x4C] [] with latches.wait := .sync }

-- I8 (steps 2 and 3), I9 (steps 2 and 3)
theorem test_waits :
    stepsTo cwaiStart (fun t => decide (t.regs = cwaiStart.regs ∧ t.latches.wait = .cwai ∧ t.counters.tickCount = 1)) = true ∧
    stepsTo (hostInput .irq cwaiStart) (fun t => decide (t.regs.s = 0x1FF4 ∧ t.regs.cc = 0xD0 ∧ t.regs.pc = 0x9401 ∧
      t.latches.wait = .none)) = true ∧
    stepsTo syncStart (fun t => decide (t.regs = syncStart.regs ∧ t.latches.wait = .sync)) = true ∧
    stepsTo (hostInput .irq syncStart) (fun t => decide (t.regs = { r0 with a := 0x01, pc := 0x8001, s := 0x2000 } ∧
      t.latches.wait = .none ∧ t.counters.missedIrqCount = 1)) = true := by decide

-- F2: a reset reloads PC and CC, and does not clear the fault
theorem test_fault_is_sticky :
    (match cpuStep (start r0 [0x01] []) with
      | .fault _ t => decide ((hostInput .reset t).regs = r0) &&
          (match cpuStep (hostInput .reset t) with
            | .fault g u => decide (faultData g = (1, 0x8000, [0x01]) ∧ u.regs = r0)
            | _ => false)
      | _ => false) = true := by decide

/-! ### The ASIC registers -/

-- K1, K2
theorem test_asic_solenoid_gi :
    (memWrite 0x3FE1 0x0F board0).board.sol = #v[0x00, 0x0F, 0x00, 0x00] ∧ peek (memWrite 0x3FE1 0x0F board0) 0x3FE1 = 0x0F ∧
    (memWrite 0x3FE6 0x1F board0).board.gi = 0x1F := by decide

-- K7: closed switches 23 (column 1, row 2) and 11 (column 0, row 0)
theorem test_asic_switch_rows :
    let st := hostInput (.setSwitch 11 true) (hostInput (.setSwitch 23 true) board0)
    [0x02, 0x00, 0x03, 0x01, 0xFF].map (fun v => peek (memWrite 0x3FEA v st) 0x3FE9) = [0x04, 0x00, 0x05, 0x01, 0x05] := by decide

-- K8, K10
theorem test_asic_cabinet_firq :
    peek (hostInput (.setCabinetInput 0x81) board0) 0x3FE8 = 0x81 ∧ peek board0 0x3FF8 = 0x80 ∧
    (let st := hostInput (.raiseFirq true) board0
     peek st 0x3FF8 = 0x00 ∧ st.latches.firqPending = true ∧ (memWrite 0x3FF8 0x00 st).latches.firqPending = false ∧
       peek (memWrite 0x3FF8 0x00 st) 0x3FF8 = 0x00) := by decide

-- K11
theorem test_asic_led :
    let st1 := memWrite 0x3FF2 0x01 (memWrite 0x3FF2 0x00 board0)
    let st2 := memWrite 0x3FF2 0x00 (memWrite 0x3FF2 0x01 st1)
    st1.board.ledToggleCount = 1 ∧ st2.board.ledToggleCount = 2 ∧ (memWrite 0x3FF2 0xFF st2).board.ledToggleCount = 3 := by decide

-- L-ZC2, K12
theorem test_asic_zero_cross :
    (let st := { memWrite 0x3FFF 0x7F board0 with board.zcFlag := true }
     peek st 0x3FFF = 0xFF ∧ peek (readEffect 0x3FFF st) 0x3FFF = 0x7F) ∧
    (let st := { board0 with latches.irqPending := true, board.periodicIrqEnabled := true }
     [0x80, 0x10, 0x90, 0x00].map (fun v => (memWrite 0x3FFF v st).latches.irqPending) = [false, true, false, true] ∧
     [0x80, 0x10, 0x90, 0x00].map (fun v => (memWrite 0x3FFF v st).board.periodicIrqEnabled) = [true, false, false, true]) := by
  decide

/-- The shift registers after three writes. -/
def shifted (h l n : Byte) : List Byte :=
  let st := memWrite 0x3FF6 n (memWrite 0x3FF5 l (memWrite 0x3FF4 h board0))
  [peek st 0x3FF4, peek st 0x3FF5, peek st 0x3FF6]

-- L-SB, L-SA, K14–K17
theorem test_asic_shift :
    shifted 0x12 0xFF 0x08 = [0x13, 0x00, 0x01] ∧ shifted 0x12 0x08 0xFF = [0x12, 0x27, 0x80] ∧
    shifted 0x00 0xF8 0xFF = [0x01, 0x17, 0x80] ∧ shifted 0xFF 0xFF 0x08 = [0x00, 0x00, 0x01] ∧
    shifted 0x00 0x08 0x01 = [0x00, 0x08, 0x02] ∧ peek (memWrite 0x3FF7 0x0B board0) 0x3FF7 = 0x08 := by decide

/-- A board of L-BK: each game page starts with its number, the system ROM's halves with 0xA0 and 0xA1. -/
def bankBoard (size : RomSize) (pages : List Nat) : State :=
  { State.reset with
    board.romSize := size
    board.systemRom := (Memory.write [] 0 0xA0).write 0x4000 0xA1
    board.gameRom := pages.foldl (fun m p => m.write (p * 0x4000) (BitVec.ofNat 8 p)) [] }

/-- The bank, its register and the window's first byte after a write of `v`. -/
def banked (st : State) (v : Byte) : List Byte :=
  let t := memWrite 0x3FFC v st
  [t.board.romBank, peek t 0x3FFC, peek t 0x4000]

-- L-BK
theorem test_asic_banks :
    banked (bankBoard .pages8 [5, 7]) 0x0D = [0x05, 0x05, 0x05] ∧ banked (bankBoard .pages8 [5, 7]) 0x3E = [0x3E, 0x06, 0xA0] ∧
    banked (bankBoard .pages8 [5, 7]) 0x3F = [0x3F, 0x07, 0xA1] ∧ banked (bankBoard .pages8 [5, 7]) 0xFF = [0x07, 0x07, 0x07] ∧
    banked (bankBoard .pages32 [29, 31]) 0xFF = [0x1F, 0x1F, 0x1F] ∧
    banked (bankBoard .pages64 [61, 62, 63]) 0x3D = [0x3D, 0x3D, 0x3D] ∧
    banked (bankBoard .pages64 [61, 62, 63]) 0xFF = [0x3F, 0x3F, 0xA1] := by decide

-- K22, K23; K19 as far as the open unlock value allows: with no mask RAM is written and nothing counted
theorem test_memory_writes :
    memWrite 0x4000 0x55 board0 = board0 ∧ memWrite 0x8000 0x55 board0 = board0 ∧ peek (memWrite 0x3FEB 0x5A board0) 0x3FEB = 0x5A ∧
    peek (memWrite 0x2000 0x11 board0) 0x2000 = 0x11 ∧ (memWrite 0x2000 0x11 board0).board.violationCount = 0 := by decide

-- section 2.10
theorem test_sound_decoder :
    resolveSound 0x1FFF = .target 0x1FFF .ram ∧ resolveSound 0x23FF = .target 0x23FF .hardware ∧
    resolveSound 0x2402 = .target 0x2400 .hardware ∧ resolveSound 0x27FF = .target 0x2401 .hardware ∧
    resolveSound 0x2800 = .target 0x2800 .hardware ∧ resolveSound 0xBFFF = .target 0x7FFF .bankswitched ∧
    resolveSound 0xFFFF = .target 0x3FFF .rom ∧ resolveSound 0x10000 = .fatal (.soundDecodeOutOfRange 0x10000) := by decide

-- R420–R422: reset changes nothing right after reset; the size checks of bring-up
theorem test_reset_and_bring_up :
    resetCpu State.reset = State.reset ∧
    bringUp ⟨some [], some [], 8, some [], true, true⟩ = .fault (.configRejected .systemRomSize) ∧
    bringUp ⟨some [], some [], 8, some [], false, true⟩ = .fault (.configRejected .missingClearIrqFlag) := by
  exact ⟨by decide, rfl, rfl⟩

-- T6, and the flag string of R405
theorem test_cycle_and_snapshot :
    cpuExecuteCycle 0 board0 = .done 0 board0 ∧ flagString 0x90 = ['E', 'f', 'h', 'I', 'n', 'z', 'v', 'c'] ∧
    (getUiState board0).flags = ['e', 'F', 'h', 'I', 'n', 'z', 'v', 'c'] := by decide

/-! ### Witnesses: for each statement with hypotheses, a concrete state and operands that meet them -/

/-- A small state: S = 0x2000, X = 0x3FDE (the last word below the I/O window), code at 0x8000. -/
def ready (code : List Byte) : State := start { r0 with s := 0x2000, x := 0x3FDE, u := 0x1000 } code []

/-- A step that answers. -/
theorem exists_next {st : State} (h : stepsTo st (fun _ => true) = true) : ∃ t, step st = .next t := by
  unfold stepsTo at h
  split at h
  · exact ⟨_, ‹_›⟩
  · exact Bool.noConfusion h

/-- The CPU step answers a next state. -/
def cpuNext (st : State) : Bool :=
  match cpuStep st with
  | .next _ _ => true
  | _ => false

theorem exists_cpuNext {st : State} (h : cpuNext st = true) : ∃ t n, cpuStep st = .next t n := by
  unfold cpuNext at h
  split at h
  · exact ⟨_, _, ‹_›⟩
  · exact Bool.noConfusion h

/-- The CPU step faults. -/
def cpuFaults (st : State) : Bool :=
  match cpuStep st with
  | .fault _ _ => true
  | _ => false

theorem exists_cpuFault {st : State} (h : cpuFaults st = true) : ∃ f t, cpuStep st = .fault f t := by
  unfold cpuFaults at h
  split at h
  · exact ⟨_, _, ‹_›⟩
  · exact Bool.noConfusion h

theorem witness_DecodeEncodeRoundTrip :
    (Instr.exg (.r8 .cc) (.r8 .dp)).wf = true ∧ (Instr.lda (.mem (.idx (.pcr16 0xFFFF true)))).wf = true := by decide

theorem witness_DecodeReadsOneInstruction :
    decode [0x86, 0x3C, 0x99] = .ok (.lda (.imm 0x3C)) [0x99] ∧ 1 < [0x86#8, 0x3C#8].length ∧
    5 ≤ [0x10#8, 0xAE#8, 0x9F#8, 0x12#8, 0x34#8].length := by decide

theorem witness_UndefinedOpcodes_page1 :
    (ready [0x01]).Runnable ∧ 0x01#8 ∈ undefinedPage1 ∧ (ready [0x01]).CodeAt (ready [0x01]).regs.pc [0x01] ∧
    0x01#8 ≠ 0x10#8 ∧ 0x01#8 ≠ 0x11#8 := by
  unfold State.Runnable State.CodeAt; decide

theorem witness_UndefinedOpcodes_pages :
    ((ready [0x10, 0x20]).Runnable ∧ 0x20#8 ∉ definedPage2 ∧
      (ready [0x10, 0x20]).CodeAt (ready [0x10, 0x20]).regs.pc [0x10, 0x20]) ∧
    ((ready [0x11, 0x11]).Runnable ∧ 0x11#8 ∉ definedPage3 ∧
      (ready [0x11, 0x11]).CodeAt (ready [0x11, 0x11]).regs.pc [0x11, 0x11]) := by
  unfold State.Runnable State.CodeAt; decide

theorem witness_IndexedPostbytes :
    ((ready [0xA6, 0x87]).Runnable ∧ IndexedOpcode [0xA6] ∧ 0x87#8 ∈ illegalPostbytes ∧
      (ready [0xA6, 0x87]).CodeAt (ready [0xA6, 0x87]).regs.pc ([0xA6] ++ [0x87])) ∧
    ((ready [0x10, 0xAE, 0xFE]).Runnable ∧ IndexedOpcode [0x10, 0xAE] ∧ 0xFE#8 ∈ illegalPostbytes ∧
      (ready [0x10, 0xAE, 0xFE]).CodeAt (ready [0x10, 0xAE, 0xFE]).regs.pc ([0x10, 0xAE] ++ [0xFE])) := by
  unfold State.Runnable State.CodeAt IndexedOpcode; decide

theorem witness_IllegalRegisterCodes :
    ((ready [0x1E, 0x81]).Runnable ∧ IllegalPair 0x81 ∧ (ready [0x1E, 0x81]).CodeAt (ready [0x1E, 0x81]).regs.pc [0x1E, 0x81]) ∧
    ((ready [0x1F, 0x60]).Runnable ∧ IllegalPair 0x60 ∧ (ready [0x1F, 0x60]).CodeAt (ready [0x1F, 0x60]).regs.pc [0x1F, 0x60]) ∧
    ¬ IllegalPair 0x89 ∧ TfrReg.sameSize (.r8 .a) (.r16 .x) = false := by
  unfold State.Runnable State.CodeAt IllegalPair; decide

theorem witness_StepRunsDecodedInstruction :
    (ready [0x10, 0xAE, 0x9F, 0x12, 0x34]).Runnable ∧
    decode [0x10, 0xAE, 0x9F, 0x12, 0x34] = .ok (.ldy (.mem (.idx (.extInd 0x1234)))) [] ∧
    (ready [0x10, 0xAE, 0x9F, 0x12, 0x34]).CodeAt (ready [0x10, 0xAE, 0x9F, 0x12, 0x34]).regs.pc [0x10, 0xAE, 0x9F, 0x12, 0x34] := by
  unfold State.Runnable State.CodeAt; decide

theorem witness_FetchReadsMemory : (ready []).board.ram.wf = true ∧ (ready []).PlainRam 0x3FDF ∧ (ready []).PlainRam 0x0000 := by
  unfold State.PlainRam; decide

theorem witness_TransferExchange :
    TfrReg.sameSize (.r16 .d) (.r16 .pc) = true ∧ TfrReg.sameSize (.r8 .cc) (.r8 .dp) = true ∧ IllegalPair 0x58 ∧ IllegalPair 0xC0 := by
  unfold IllegalPair; decide

theorem witness_FaultIsSticky :
    (∃ f t, cpuStep (ready [0x01]) = .fault f t) ∧
    { board0 with fault := some (.undefinedOpcode 0 [0x01]) }.fault = some (.undefinedOpcode 0 [0x01]) :=
  ⟨exists_cpuFault (by decide), rfl⟩

/-- An NMI whose handler starts with an illegal three-byte instruction. -/
def nmiFault : State := hostInput .nmi (start { r0 with s := 0x2000 } [] [(0x9600, [0x10, 0xAE, 0x8F])])

theorem witness_FaultingStepPartialEffects :
    ((ready [0x01]).fault = none ∧ ∃ f t, cpuStep (ready [0x01]) = .fault f t) ∧
    (nmiFault.fault = none ∧ ∃ f t, cpuStep nmiFault = .fault f t) :=
  ⟨⟨by decide, exists_cpuFault (by decide)⟩, by decide, exists_cpuFault (by decide)⟩

theorem witness_InterruptSelection :
    select (hostInput .nmi (hostInput .firq (intStart 0x00))) = some .nmi ∧
    select (hostInput .firq (hostInput .irq (intStart 0x10))) = some .firq ∧
    select (hostInput .firq (hostInput .irq (intStart 0x40))) = some .irq ∧
    select (hostInput .firq (hostInput .irq (intStart 0x50))) = none ∧
    ((hostInput .irq (intStart 0x00)).fault = none ∧ ∃ t, (cpuStep (hostInput .irq (intStart 0x00))).Leaves t) := by
  refine ⟨by decide, by decide, by decide, by decide, by decide, ?_⟩
  obtain ⟨t, n, h⟩ := exists_cpuNext (st := hostInput .irq (intStart 0x00)) (by decide)
  exact ⟨t, .inl ⟨n, h⟩⟩

theorem witness_HostInputs :
    (∀ c r : Fin 8, 19 ≠ 10 * (c.val + 1) + (r.val + 1)) ∧ (∀ c r : Fin 8, 90 ≠ 10 * (c.val + 1) + (r.val + 1)) ∧
    (∀ c r : Fin 8, 0 ≠ 10 * (c.val + 1) + (r.val + 1)) := by decide

theorem witness_InterruptEntry :
    (ready []).latches.wait ≠ .cwai ∧ (ready []).PlainBytes ((ready []).regs.s - 12) 12 ∧
    (ready []).PlainBytes ((ready []).regs.s - 3) 3 ∧ (ready []).board.ram.wf = true := by
  unfold State.PlainBytes State.PlainRam; decide

theorem witness_InterruptEntry_after_cwai : cwaiStart.latches.wait = .cwai := by decide

theorem witness_ReturnRestoresInterruptedState :
    (ready []).board.ram.wf = true ∧ (ready []).PlainBytes ((ready []).regs.s - 12) 12 ∧ (ready []).latches.wait ≠ .cwai ∧
    (∃ t, exec .swi (ready []) = .next t) ∧ (∃ t, exec .swi2 (ready []) = .next t) ∧ (∃ t, exec .swi3 (ready []) = .next t) := by
  refine ⟨by decide, ?_, by decide, ⟨_, rfl⟩, ⟨_, rfl⟩, ⟨_, rfl⟩⟩
  unfold State.PlainBytes State.PlainRam; decide

theorem witness_SoftwareInterrupts :
    (ready [0x3F]).board.ram.wf = true ∧
    (ready [0x3F]).PlainBytes ((ready [0x3F]).regs.s - BitVec.ofNat 16 (entireFrame (ready [0x3F]).regs).length)
      (entireFrame (ready [0x3F]).regs).length := by
  unfold State.PlainBytes State.PlainRam; decide

/-- A frame at S whose CC is `cc`. -/
def framed (cc : Byte) : State := start { r0 with s := 0x1FF4 } [0x3B] [(0x1FF4, [cc])]

theorem witness_ReturnFromInterrupt :
    (getFlag (peek (framed 0x8F) (framed 0x8F).regs.s) .e = true ∧ NoIo (framed 0x8F).regs.s 12) ∧
    (getFlag (peek (framed 0x01) (framed 0x01).regs.s) .e = false ∧ NoIo (framed 0x01).regs.s 3) := by
  unfold NoIo; decide

theorem witness_SyncAndCwai_start :
    ((ready [0x13]).Runnable ∧ decode [0x13] = .ok .sync [] ∧ (ready [0x13]).CodeAt (ready [0x13]).regs.pc [0x13]) ∧
    ((ready [0x3C, 0xEF]).Runnable ∧ decode [0x3C, 0xEF] = .ok (.cwai 0xEF) [] ∧
      (ready [0x3C, 0xEF]).CodeAt (ready [0x3C, 0xEF]).regs.pc [0x3C, 0xEF]) := by
  unfold State.Runnable State.CodeAt; decide

theorem witness_SyncAndCwai_frame (s : State) :
    (ready []).board.ram.wf = true ∧ (ready []).PlainBytes ((ready []).regs.s - 12) 12 ∧
    (∃ t, exec .sync s = .next t) ∧ ∃ t, exec (.cwai 0xEF) s = .next t := by
  refine ⟨by decide, ?_, ⟨_, rfl⟩, ⟨_, rfl⟩⟩
  unfold State.PlainBytes State.PlainRam; decide

theorem witness_SyncAndCwai_waiting :
    (syncStart.fault = none ∧ syncStart.latches.wait = .sync ∧ anyPending syncStart = false) ∧
    ((hostInput .irq syncStart).fault = none ∧ (hostInput .irq syncStart).latches.wait = .sync ∧
      anyPending (hostInput .irq syncStart) = true) ∧
    (cwaiStart.fault = none ∧ cwaiStart.latches.wait = .cwai ∧ select cwaiStart = none) := by decide

theorem witness_ServiceAndExecuteInOneStep :
    let st := hostInput .irq (intStart 0x00)
    (st.fault = none ∧ select st = some .irq ∧ decode [0x12] = .ok .nop [] ∧
      (atInstruction st).CodeAt (atInstruction st).regs.pc [0x12] ∧ st.latches.wait = .none ∧ st.regs.cc = 0x00) ∧
    (∃ t, exec .nop (setReg16 .pc ((atInstruction st).regs.pc + 1) (atInstruction st)) = .next t) ∧
    (∃ t n, cpuStep st = .next t n) ∧
    ((intStart 0xFF).regs.cc = 0xFF ∧ (intStart 0xFF).latches.nmiPending = false) := by
  refine ⟨?_, ⟨_, rfl⟩, exists_cpuNext (by decide), by decide⟩
  unfold State.CodeAt; decide

theorem witness_OperandAccess :
    ((ready []).board.ram.wf = true ∧ (ready []).PlainBytes (ready []).regs.x 2) ∧ NoIo (ready []).regs.x 2 := by
  unfold State.PlainBytes State.PlainRam NoIo; decide

theorem witness_EffectiveAddresses :
    isIndirect (.inc2 .x true) = true ∧
    NoIo (eaIndexed (directForm (.inc2 .x true)) (ready [])).1 2 ∧ NoIo 0x3FDE 2 ∧ NoIo 0x4000 2 ∧ NoIo 0xFFFF 2 := by
  unfold NoIo; decide

/-- Stores, memory read-modify-writes, pushes, calls: a plain target, up to the last byte below the I/O window. -/
theorem witness_Stores_UnaryFamilies_Calls :
    (ready []).board.ram.wf = true ∧
    (ready []).PlainRam (ea (.ext 0x3FDF) (ready [])).1 ∧ (ready []).PlainRam (ea (.dir 0x00) (ready [])).1 ∧
    (ready []).PlainBytes (ea (.idx (.zero .x false)) (ready [])).1 2 ∧
    (ready []).PlainBytes ((ready []).regs.s - 2) 2 := by
  unfold State.PlainBytes State.PlainRam; decide

theorem witness_PushRegisters :
    (ready []).board.ram.wf = true ∧
    (listImage 0xFF (ready []).regs (ready []).regs.u).length = 12 ∧ (ready []).PlainBytes ((ready []).regs.s - 12) 12 ∧
    (ready []).PlainBytes ((ready []).regs.u - 12) 12 := by
  unfold State.PlainBytes State.PlainRam; decide

/-- S or U just above the given address. -/
def pushTo (a : Word) : State := start { r0 with s := a + 1, u := a + 1, a := 0x5A } [0x34, 0x02] []

theorem witness_PushRegisters_regions :
    (∀ a, a = 0x4000 ∨ a = 0xFFFF → getReg16 .s (pushTo a) - 1 = a ∧ getReg16 .u (pushTo a) - 1 = a ∧ 0x4000 ≤ a.toNat) ∧
    (∀ a, a = 0x3FE0 ∨ a = 0x3FFF → getReg16 .s (pushTo a) - 1 = a ∧ 0x3FE0 ≤ a.toNat ∧ a.toNat < 0x4000) ∧
    (∀ a, a = 0x0000 ∨ a = 0x3FDF → getReg16 .s (pushTo a) - 1 = a ∧ a.toNat < 0x3FE0) := by
  refine ⟨?_, ?_, ?_⟩ <;> rintro a (rfl | rfl) <;> decide

/-- R100: a push into the I/O window dispatches to the ASIC (GI register), a push into ROM is dropped. -/
theorem test_push_regions :
    stepsTo (pushTo 0x3FE6) (fun t => t.board.gi == 0x5A && t.regs.s == 0x3FE6) = true ∧
    stepsTo (pushTo 0x4000) (fun t => t.board.gameRom == (pushTo 0x4000).board.gameRom && t.board.violationCount == 0
      && t.regs.s == 0x4000) = true := by decide

theorem witness_JumpReturnNop : NoIo (ready []).regs.s 2 := by unfold NoIo; decide

theorem witness_PullRegisters :
    NoIo (getReg16 .s (ready [])) (listOffset 0xFF 8) ∧ NoIo (getReg16 .u (ready [])) (listOffset 0x00 8) ∧
    (∀ k, k < 8 → (0x00#8).getLsbD k = false) := by
  unfold NoIo; decide

theorem witness_DecimalAddition (st : State) :
    IsDecimal 0x99 ∧ IsDecimal 0x00 ∧ (∃ t, exec (.adda (.imm 0x99)) { st with regs.a := 0x99 } = .next t) ∧
    (∃ t, exec (.adca (.imm 0x99)) { st with regs.a := 0x99 } = .next t) ∧ ∃ u, exec .daa st = .next u := by
  refine ⟨?_, ?_, ⟨_, rfl⟩, ⟨_, rfl⟩, ⟨_, rfl⟩⟩ <;> (unfold IsDecimal; decide)

/-- A state that meets the invariant, with another bank, another class and a listed byte of RAM. -/
def good : State :=
  { start { r0 with s := 0x2000 } [0x12] [(0x0100, [0x55])] with board.romBank := 62, board.romSize := .pages16 }

theorem good_inv : good.Inv where
  ram := by unfold Memory.Ok; decide
  systemRom := by unfold Memory.Ok; decide
  gameRom := by unfold Memory.Ok; decide
  bank := .inr (.inl rfl)
  lamps := fun k => .inl (by show (Vector.replicate 64 0#8)[k] = 0#8; simp)
  violations := fun _ => by decide

theorem witness_MemoryReads :
    (isIo 0x3FE0 = true ∧ isIo 0x3FFF = true) ∧ (0x3FDF#16).toNat < 0x3FE0 ∧
    (0x4000 ≤ (0x4000#16).toNat ∧ (0x7FFF#16).toNat < 0x8000 ∧ (bankBoard .pages8 []).board.romBank ≠ 62#8 ∧
      (bankBoard .pages8 []).board.romBank ≠ 63#8 ∧ good.board.romBank = 62#8 ∧
      { good with board.romBank := 63#8 }.board.romBank = 63#8) ∧
    0x8000 ≤ (0x8000#16).toNat ∧ 0x8000 ≤ (0xFFFF#16).toNat ∧
    (0x3FFE#16 ≠ 0x3FFF#16 ∧ 0x3FFE#16 ≠ 0x3FFA#16 ∧ 0x3FFE#16 ≠ 0x3FFB#16) ∧
    { good with board.romBank := 5#8 }.Inv := by
  refine ⟨by decide, by simp, by decide, by decide, by decide, by decide, ?_⟩
  exact ⟨by unfold Memory.Ok; decide, by unfold Memory.Ok; decide, by unfold Memory.Ok; decide, .inl (by decide),
    fun k => .inl (by show (Vector.replicate 64 0#8)[k] = 0#8; simp), fun _ => by decide⟩

/-- Which addresses a mask protects is open (`PROT_HIT`): the protected clauses are met where it says so. -/
theorem witness_MemoryWrites :
    (isIo 0x3FE0 = true ∧ 0x4000 ≤ (0x4000#16).toNat ∧ (0x3FDF#16).toNat < 0x3FE0 ∧
      protectedWrite good.board 0x3FDF = false ∧ good.board.ram.wf = true ∧ (0x3FDE#16).toNat < 0x3FDF) ∧
    (∀ (m : ProtMask) (a : Word), Params.protHit m a = true →
      protectedWrite { good.board with protMask := some m } a = true) ∧
    (∀ (m : ProtMask) (a : Word), Params.protHit m a ≠ Params.protHit m (a + 1#16) →
      protectedWrite { good.board with protMask := some m } a ≠
        protectedWrite { good.board with protMask := some m } (a + 1#16)) :=
  ⟨by decide, fun _ _ h => h, fun _ _ h => h⟩

theorem witness_AsicRegisters :
    board0.board.ram.wf = true ∧ board0.board.swCol = 0x00 ∧
    (0x3FE0 ≤ (0x3FE0#16).toNat ∧ (0x3FE6#16).toNat ≤ 0x3FE6) ∧ (0x3FEA#16).toNat = 0x3FEA ∧
    (0x3FEB ≤ (0x3FEB#16).toNat ∧ (0x3FF1#16).toNat ≤ 0x3FF1) ∧ (0x3FF3#16).toNat = 0x3FF3 ∧ (0x3FF9#16).toNat = 0x3FF9 ∧
    (∀ k : Fin 8, 8 * (7 : Fin 8).val + k.val < 64) := by decide

theorem witness_BankLockLed :
    ((62#8 = 62#8 ∨ 62#8 = 63#8) ∧ ¬ (61#8 = 62#8 ∨ 61#8 = 63#8)) ∧ (bankBoard .pages64 []).board.romSize = .pages64 ∧
    (∀ m : ProtMask, { board0.board with protMask := some m }.protMask.isSome = true) ∧ board0.board.ram.wf = true :=
  ⟨by decide, by decide, fun _ => rfl, by decide⟩

/-- The periods are open; these accumulators stand on the two sides of each threshold. -/
theorem witness_Timers :
    board0.board.zcAccum + 0 < Params.ticksPerZeroCross ∧
    Params.ticksPerZeroCross ≤ board0.board.zcAccum + Params.ticksPerZeroCross ∧
    board0.board.irqAccum + 0 < Params.irqPeriodTicks ∧
    (Params.irqPeriodTicks ≤ board0.board.irqAccum + Params.irqPeriodTicks ∧ board0.board.periodicIrqEnabled = false) ∧
    State.reset.board.periodicIrqEnabled = true :=
  ⟨Nat.succ_pos _, Nat.le_add_left _ _, Nat.succ_pos _, ⟨Nat.le_add_left _ _, rfl⟩, rfl⟩

/-- A dead session. -/
def dead : State := { board0 with fault := some (.undefinedOpcode 0x8000 [0x01]) }

theorem witness_ExecuteCycle :
    cpuExecuteCycle 0 board0 = .done 0 board0 ∧ cpuExecuteCycle 1 syncStart = .done 1 (countTicks 1 syncStart) ∧
    boardExecuteCycle 1 syncStart = .done 1 (boardTicks 1 (countTicks 1 syncStart)) ∧ board0.fault = none ∧
    syncStart.fault = none ∧ dead.fault = some (.undefinedOpcode 0x8000 [0x01]) := ⟨rfl, rfl, rfl, rfl, rfl, rfl⟩

/-- R350: every `executeCycle` call on a dead session returns its fault, with a budget of 0 too. -/
theorem test_executeCycle_dead :
    cpuExecuteCycle 0 dead = .fault (.undefinedOpcode 0x8000 [0x01]) dead ∧
    boardExecuteCycle 0 dead = .fault (.undefinedOpcode 0x8000 [0x01]) dead ∧
    cpuExecuteCycle 9 dead = .fault (.undefinedOpcode 0x8000 [0x01]) dead := ⟨rfl, rfl, rfl⟩

/-- Buffers of the right sizes. -/
def goodConfig (pages : Nat) : BringUp :=
  ⟨some (List.replicate 32768 0xFF), some (List.replicate (pages * 0x4000) 0x01), pages, some (List.replicate 0x4000 0x02), true, true⟩

theorem witness_SessionBringUp_accepts :
    (List.replicate 32768 (0xFF : Byte)).length = 32768 ∧ (List.replicate (64 * 0x4000) (0x01 : Byte)).length = 64 * 0x4000 ∧
    0x4000 ≤ (List.replicate 0x4000 (0x02 : Byte)).length ∧ (goodConfig 64).pages = 64 ∧ (goodConfig 64).hasClearIrqFlag = true ∧
    (goodConfig 64).hasClearFirqFlag = true := by
  exact ⟨List.length_replicate, List.length_replicate, Nat.le_of_eq List.length_replicate.symm, rfl, rfl, rfl⟩

theorem witness_SessionBringUp_rejects :
    { goodConfig 8 with systemRom := none }.systemRom = none ∧ { goodConfig 8 with gameRom := none }.gameRom = none ∧
    { goodConfig 8 with ram := none }.ram = none ∧ { goodConfig 8 with hasClearIrqFlag := false }.hasClearIrqFlag = false ∧
    { goodConfig 8 with hasClearFirqFlag := false }.hasClearFirqFlag = false ∧
    (∃ sys, { goodConfig 8 with systemRom := some [] }.systemRom = some sys ∧ sys.length ≠ 32768) ∧
    ((goodConfig 9).pages ≠ 8 ∧ (goodConfig 9).pages ≠ 16 ∧ (goodConfig 9).pages ≠ 32 ∧ (goodConfig 9).pages ≠ 64) ∧
    (∃ game, { goodConfig 8 with gameRom := some [] }.gameRom = some game ∧ game.length ≠ 8 * 0x4000) ∧
    (∃ ram, { goodConfig 8 with ram := some [] }.ram = some ram ∧ ram.length < 0x4000) :=
  ⟨rfl, rfl, rfl, rfl, rfl, ⟨[], rfl, by decide⟩, by decide, ⟨[], rfl, by decide⟩, ⟨[], rfl, by decide⟩⟩

theorem witness_SoundDecoder :
    0x1FFF < 0x2000 ∧ (0x2400 ≤ 0x2400 ∧ 0x27FF < 0x2800) ∧ (0x2000 ≤ 0x2000 ∧ ¬ (0x2400 ≤ 0x2000 ∧ 0x2000 < 0x2800)) ∧
    (0x2800 < 0x4000 ∧ ¬ (0x2400 ≤ 0x2800 ∧ 0x2800 < 0x2800)) ∧ (0x4000 ≤ 0x4000 ∧ 0xBFFF < 0xC000) ∧
    (0xC000 ≤ 0xC000 ∧ 0xFFFF < 0x10000) ∧ 0x10000 ≤ 0x10000 := by decide

theorem witness_StepKeepsInvariant : good.Inv ∧ ∃ t, step good = .next t := ⟨good_inv, exists_next (by decide)⟩

theorem witness_StepsKeepConfiguration :
    (∃ t, step good = .next t) ∧ (∃ t, (cpuStep good).Leaves t) ∧ ∃ t, (cpuStep (ready [0x01])).Leaves t := by
  refine ⟨exists_next (by decide), ?_, ?_⟩
  · obtain ⟨t, n, h⟩ := exists_cpuNext (st := good) (by decide)
    exact ⟨t, .inl ⟨n, h⟩⟩
  · obtain ⟨f, t, h⟩ := exists_cpuFault (st := ready [0x01]) (by decide)
    exact ⟨t, .inr (.inr ⟨f, h⟩)⟩

theorem witness_CountersAreNotRead : (∃ t, step good = .next t) ∧ ∃ f, step (ready [0x01]) = .fault f := by
  refine ⟨exists_next (by decide), ?_⟩
  obtain ⟨f, t, h⟩ := exists_cpuFault (st := ready [0x01]) (by decide)
  exact ⟨f, by unfold step boardStep; rw [h]⟩


end Sys2Proof.Tests
end

section
/-! The statements of spec/10_state.md: the invariant and the configuration are properties closed under every primitive of a step
(`StepClosed`), the counters a piece of state no part of a step looks at (`ExecBlind`), and RTI reads back the frame an entry
has stored. -/

namespace Sys2Proof.Machine

/-! ### The invariant -/

/-- The invariant speaks of the board alone. -/
theorem State.Inv.of_board {s t : State} (h : s.Inv) (e : t.board = s.board) : t.Inv :=
  ⟨e ▸ h.ram, e ▸ h.systemRom, e ▸ h.gameRom, e ▸ h.bank, e ▸ h.lamps, e ▸ h.violations⟩

/-- The side effects of a read are on pieces of the board the invariant does not name. -/
theorem State.Inv.of_sameButReads {s t : State} (h : s.Inv) (e : SameButReads s t) : t.Inv := by
  rw [e]
  exact ⟨h.ram, h.systemRom, h.gameRom, h.bank, h.lamps, h.violations⟩

theorem stepClosed_inv : StepClosed State.Inv where
  reg8 _ _ _ h := h.of_board (setReg8_board _ _ _)
  reg16 _ _ _ h := h.of_board (setReg16_board _ _ _)
  write _ _ _ h := h.memWrite
  read a st h := h.of_sameButReads (sameButReads_readEffect a st)
  wait _ _ h := h.of_board rfl
  latches _ _ h := h.of_board rfl
  counters _ _ h := h.of_board rfl
  fault _ _ h := h.of_board rfl
  zeroCross _ _ _ h := ⟨h.ram, h.systemRom, h.gameRom, h.bank, h.lamps, h.violations⟩
  irqAccum _ _ h := ⟨h.ram, h.systemRom, h.gameRom, h.bank, h.lamps, h.violations⟩

/-- Settles O58: every primitive of a step keeps the invariant, so every step does. -/
theorem stepKeepsInvariant : Obligations.StepKeepsInvariant := fun _ _ h e => stepClosed_inv.step h e

/-! ### What no step writes -/

/-- The pieces of the board no step writes: both ROMs and the size class (10_state.md R51), and the inputs only the host sets
(R57, R61). -/
def Board.configuration (bd : Board) : Memory × Memory × RomSize × Vector (Vector Bool 8) 8 × Byte × Bool :=
  (bd.systemRom, bd.gameRom, bd.romSize, bd.switches, bd.cabinet, bd.firqSourceDmd)

theorem asicWrite_configuration (a : Word) (v : Byte) (st : State) :
    (asicWrite a v st).board.configuration = st.board.configuration := by
  unfold asicWrite
  generalize asicReg a = r
  cases r <;> rfl

@[simp] theorem memWrite_configuration (a : Word) (v : Byte) (st : State) :
    (memWrite a v st).board.configuration = st.board.configuration := by
  unfold memWrite
  split
  · exact asicWrite_configuration a v st
  · split <;> rfl

@[simp] theorem readEffect_configuration (a : Word) (st : State) :
    (readEffect a st).board.configuration = st.board.configuration := by
  rw [(sameButReads_readEffect a st).board]
  rfl

theorem stepClosed_configuration (bd : Board) : StepClosed fun st => st.board.configuration = bd.configuration where
  reg8 _ _ _ h := by rwa [setReg8_board]
  reg16 _ _ _ h := by rwa [setReg16_board]
  write _ _ _ h := by rwa [memWrite_configuration]
  read _ _ h := by rwa [readEffect_configuration]
  wait _ _ h := h
  latches _ _ h := h
  counters _ _ h := h
  fault _ _ h := h
  zeroCross _ _ _ h := h
  irqAccum _ _ h := h

/-- Settles O59: every primitive of a step keeps the configuration, so every CPU step and every board step does. -/
theorem stepsKeepConfiguration : Obligations.StepsKeepConfiguration := by
  intro st t h
  have closed := stepClosed_configuration st.board
  have hc : t.board.configuration = st.board.configuration := h.elim (closed.cpuStep rfl) (closed.step rfl)
  simpa only [Board.configuration, Prod.mk.injEq] using hc

/-! ### The counters are not read -/

/-- The state with other counters. -/
def State.withCounters (c : Counters) (st : State) : State := { st with counters := c }

/-- What a fetch ends in, with the state it leaves changed. -/
def Fetched.map (h : State → State) (r : Fetched) : Fetched :=
  match r with
  | .ok i st => .ok i (h st)
  | .bad f st => .bad f (h st)

/-- The outcome of a CPU step, with the state it leaves changed. -/
def CpuOutcome.map (h : State → State) (o : CpuOutcome) : CpuOutcome :=
  match o with
  | .next st n => .next (h st) n
  | .wait st n => .wait (h st) n
  | .fault f st => .fault f (h st)
  | .refused r => .refused r

theorem memWrite_withCounters (a : Word) (v : Byte) (c : Counters) (st : State) :
    memWrite a v (st.withCounters c) = (memWrite a v st).withCounters c := by
  unfold memWrite
  split
  · unfold asicWrite
    generalize asicReg a = r
    cases r <;> rfl
  · split <;> rfl

theorem readEffect_withCounters (a : Word) (c : Counters) (st : State) :
    readEffect a (st.withCounters c) = (readEffect a st).withCounters c := by
  unfold readEffect
  split
  · unfold asicReadEffect
    generalize asicReg a = r
    cases r <;> rfl
  · rfl

/-- An instruction neither reads nor writes a counter. -/
theorem execBlind_withCounters (c : Counters) : ExecBlind (State.withCounters c) where
  regs _ := rfl
  board _ := rfl
  reg8 r _ _ := by cases r <;> rfl
  reg16 r _ _ := by cases r <;> rfl
  write a v st := memWrite_withCounters a v c st
  read a st := readEffect_withCounters a c st
  wait _ _ := rfl

theorem wake_withCounters (c : Counters) (st : State) : wake (st.withCounters c) = (wake st).withCounters c := by
  unfold wake
  cases h : st.latches.wait <;> simp only [State.withCounters, h]

/-- An entry counts itself; but for that it does not look at the counters. -/
theorem enter_withCounters (k : IntClass) (c : Counters) (st : State) :
    ∃ c', enter k (st.withCounters c) = (enter k st).withCounters c' := by
  have hframe (frame : Frame) : entryFrame (st.withCounters c) frame = entryFrame st frame := rfl
  have htake := (execBlind_withCounters c).takeException st
  refine ⟨(enter k (st.withCounters c)).counters, ?_⟩
  cases k with
  | nmi => simp only [enter, enterNmi, hframe, htake]; rfl
  | firq => simp only [enter, enterFirq, hframe, htake]; rfl
  | irq => simp only [enter, enterIrq, hframe, htake]; rfl

theorem fetchInstr_withCounters (c : Counters) (st : State) :
    fetchInstr (st.withCounters c) = (fetchInstr st).map (State.withCounters c) := by
  refine ((execBlind_withCounters c).fetchFrom st st.regs.pc 5 []).trans ?_
  rw [fetchInstr, getReg16_pc]
  cases fetchFrom st.regs.pc 5 [] st <;> rfl

theorem runInstr_withCounters (n : Nat) (c : Counters) (st : State) :
    ∃ c', runInstr n (st.withCounters c) = (runInstr n st).map (State.withCounters c') := by
  unfold runInstr
  rw [fetchInstr_withCounters]
  cases fetchInstr st with
  | bad f s => exact ⟨c, rfl⟩
  | ok i s =>
    dsimp only [Fetched.map]
    rw [(execBlind_withCounters c).exec s i]
    cases exec i s with
    | fault f => exact ⟨c, rfl⟩
    | refused r => exact ⟨c, rfl⟩
    | next s2 =>
      refine ⟨{ c with tickCount := c.tickCount + (n + Params.cycles i) }, ?_⟩
      dsimp only [Result.map]
      cases startsWait i <;> rfl

theorem cpuStep_withCounters (c : Counters) (st : State) :
    ∃ c', cpuStep (st.withCounters c) = (cpuStep st).map (State.withCounters c') := by
  have hfault : (st.withCounters c).fault = st.fault := rfl
  have hwaits : staysWaiting (st.withCounters c) = staysWaiting st := rfl
  have hselect : select (st.withCounters c) = select st := rfl
  unfold cpuStep
  rw [hfault, hwaits, hselect, wake_withCounters]
  cases st.fault with
  | some f => exact ⟨c, rfl⟩
  | none =>
    cases staysWaiting st with
    | true => exact ⟨{ c with tickCount := c.tickCount + Params.waitTicks }, rfl⟩
    | false =>
      cases select st with
      | none => exact runInstr_withCounters 0 c (wake st)
      | some k =>
        obtain ⟨c1, he⟩ := enter_withCounters k c (wake st)
        dsimp only
        rw [he]
        exact runInstr_withCounters _ c1 _

/-- The board's accounting counts a missed IRQ; but for that it does not look at the counters. -/
theorem boardTicks_withCounters (t : Nat) (c : Counters) (st : State) :
    boardTicks t (st.withCounters c) = (boardTicks t st).withCounters (boardTicks t (st.withCounters c)).counters := rfl

theorem step_withCounters (c : Counters) (st : State) :
    ∃ c', step (st.withCounters c) = Result.map (State.withCounters c') (step st) := by
  obtain ⟨c1, h⟩ := cpuStep_withCounters c st
  unfold step boardStep
  rw [h]
  cases cpuStep st with
  | next s n => exact ⟨_, congrArg Host.Outcome.next (boardTicks_withCounters n c1 s)⟩
  | wait s n => exact ⟨_, congrArg Host.Outcome.next (boardTicks_withCounters n c1 s)⟩
  | fault f s => exact ⟨c1, rfl⟩
  | refused r => exact ⟨c1, rfl⟩

/-- Settles O60: with other counters a step has the same outcome, but for the counters of its next state. -/
theorem countersAreNotRead : Obligations.CountersAreNotRead := by
  intro st c
  obtain ⟨c', h⟩ := step_withCounters c st
  refine ⟨fun t ht => ⟨c', ?_⟩, fun f hf => ?_⟩
  · rw [ht] at h
    exact h
  · rw [hf] at h
    exact h

/-! ### RTI gives back the interrupted registers -/

/-- CC as an entry stacks it: the interrupted one, with E written. -/
theorem stackedCc_eq {e : Bool} {cc ccS : Byte} (h : FlagsBecome (entryUpdate (some e) none none) cc ccS) :
    ccS = setFlag .e e cc :=
  h.unique fun fl => by cases fl <;> simp [entryUpdate]

/-- Plain RAM is outside the I/O window. -/
theorem State.PlainBytes.noIo {st : State} {a : Word} {n : Nat} (h : st.PlainBytes a n) : NoIo a n := fun k hk =>
  PlainRam.isIo (h k hk)

/-- The highest bytes of plain RAM below a pointer. -/
theorem State.PlainBytes.below {st : State} {a : Word} {m n : Nat} (h : st.PlainBytes (a - BitVec.ofNat 16 n) n)
    (hm : m ≤ n) : st.PlainBytes (a - BitVec.ofNat 16 m) m := fun k hk => by
  have e : a - BitVec.ofNat 16 n + BitVec.ofNat 16 (n - m + k) = a - BitVec.ofNat 16 m + BitVec.ofNat 16 k := by
    apply BitVec.eq_of_toNat_eq
    simp only [BitVec.toNat_add, BitVec.toNat_sub, BitVec.toNat_ofNat]
    omega
  exact e ▸ h (n - m + k) (by omega)

/-- What the handler of an entry finds: S at the frame, which RTI reads back byte by byte, and the registers but for CC, S and
PC. -/
theorem Entered.frame_read_back {frame : Regs → List Byte} {n : Nat} (hn : ∀ r, (frame r).length = n) {e : Bool}
    {f i : Option Bool} {o : Nat} {lat : Latches → Latches} {st t : State} (h : Entered frame e f i o lat st t)
    (hw : st.board.ram.wf = true) (hp : st.PlainBytes (st.regs.s - BitVec.ofNat 16 n) n) :
    (∃ cc pc, t.regs = { st.regs with cc := cc, s := st.regs.s - BitVec.ofNat 16 n, pc := pc }) ∧
      ∀ k, k < n → readByte t t.regs.s k = (frame { st.regs with cc := setFlag .e e st.regs.cc }).getD k 0#8 := by
  obtain ⟨ccS, cc', hcc, -, hregs, -, -, hplain⟩ := h.registers
  rw [hn] at hregs hplain
  obtain ⟨hbytes, -, -⟩ := hplain hw hp
  have hs : t.regs.s = st.regs.s - BitVec.ofNat 16 n := by rw [hregs]
  refine ⟨⟨cc', _, hregs⟩, fun k hk => ?_⟩
  rw [hs, readByte_of_noIo hp.noIo hk, hbytes k (by rw [hn]; exact hk), stackedCc_eq hcc]

/-- The entire frame holds the registers it was made of, S apart. -/
theorem entireRegs_of_entireFrame {byte : Nat → Byte} {r q : Regs}
    (h : ∀ k, k < 12 → byte k = (entireFrame r).getD k 0#8) : entireRegs byte q = { r with s := q.s + 12#16 } := by
  simp [entireRegs, wordOf, h, entireFrame, wordBytes]

/-- The fast frame holds CC and PC. -/
theorem fastRegs_of_fastFrame {byte : Nat → Byte} {r q : Regs}
    (h : ∀ k, k < 3 → byte k = (fastFrame r).getD k 0#8) :
    fastRegs byte q = { q with cc := r.cc, pc := r.pc, s := q.s + 3#16 } := by
  simp [fastRegs, wordOf, h, fastFrame, wordBytes]

/-- RTI after an entry that stacked the entire frame in plain RAM. -/
theorem Entered.rti_entire {f i : Option Bool} {o : Nat} {lat : Latches → Latches} {st t : State}
    (h : Entered entireFrame true f i o lat st t) (hw : st.board.ram.wf = true)
    (hp : st.PlainBytes (st.regs.s - 12#16) 12) :
    (returnFromException t).regs = { st.regs with cc := setFlag .e true st.regs.cc } := by
  obtain ⟨⟨cc, pc, hregs⟩, hread⟩ := h.frame_read_back (n := 12) (fun _ => rfl) hw hp
  have he : getFlag (peek t t.regs.s) .e = true := by
    rw [← readByte_zero, hread 0 (by decide)]
    simp [entireFrame]
  rw [(reading_entire he).2, entireRegs_of_entireFrame hread, hregs]
  simp only [BitVec.sub_add_cancel]

/-- RTI after an entry that stacked the fast frame in plain RAM. -/
theorem Entered.rti_fast {f i : Option Bool} {o : Nat} {lat : Latches → Latches} {st t : State}
    (h : Entered fastFrame false f i o lat st t) (hw : st.board.ram.wf = true)
    (hp : st.PlainBytes (st.regs.s - 3#16) 3) :
    (returnFromException t).regs = { st.regs with cc := setFlag .e false st.regs.cc } := by
  obtain ⟨⟨cc, pc, hregs⟩, hread⟩ := h.frame_read_back (n := 3) (fun _ => rfl) hw hp
  have he : getFlag (peek t t.regs.s) .e = false := by
    rw [← readByte_zero, hread 0 (by decide)]
    simp [fastFrame]
  rw [(reading_fast he).2, fastRegs_of_fastFrame hread, hregs]
  simp only [BitVec.sub_add_cancel]

/-- Outside CWAI an entry stacks the frame of its class (60_exceptions.md R366). -/
theorem entryFrame_of_not_cwai {st : State} (h : st.latches.wait ≠ .cwai) (frame : Frame) : entryFrame st frame = frame := by
  unfold entryFrame
  cases hw : st.latches.wait with
  | none => rfl
  | sync => rfl
  | cwai => exact absurd hw h

theorem entered_enter_irq {st : State} (h : st.latches.wait ≠ .cwai) :
    Entered entireFrame true none (some true) 0x7FF8 (fun l => { l with wait := .none }) st (enter .irq st) := by
  have he := entered_entire false true (v := 0xFFF8#16) (o := 0x7FF8) (by decide) (by decide) st
  refine he.congr ?_ ?_ ?_ fun l hl => ?_ <;> simp only [enter, enterIrq, entryFrame_of_not_cwai h]
  rw [hl]
  rfl

theorem entered_enter_firq {st : State} (h : st.latches.wait ≠ .cwai) :
    Entered fastFrame false (some true) (some true) 0x7FF6 (fun l => { l with wait := .none }) st (enter .firq st) := by
  have he := entered_fast true true (v := 0xFFF6#16) (o := 0x7FF6) (by decide) (by decide) st
  refine he.congr ?_ ?_ ?_ fun l hl => ?_ <;> simp only [enter, enterFirq, entryFrame_of_not_cwai h]
  rw [hl]
  rfl

theorem entered_enter_nmi {st : State} (h : st.latches.wait ≠ .cwai) :
    Entered entireFrame true (some true) (some true) 0x7FFC (fun l => { l with nmiPending := false, wait := .none }) st
      (enter .nmi st) := by
  have he := entered_entire true true (v := 0xFFFC#16) (o := 0x7FFC) (by decide) (by decide) st
  refine he.congr ?_ ?_ ?_ fun l hl => ?_ <;> simp only [enter, enterNmi, entryFrame_of_not_cwai h]
  rw [hl]
  rfl

/-- Settles O14: the frame each entry stores is the one RTI reads back, by the E bit of the stacked CC. -/
theorem returnRestoresInterruptedState : Obligations.ReturnRestoresInterruptedState := by
  intro st hw hp
  refine ⟨setFlag .e true st.regs.cc, setFlag .e false st.regs.cc, fun fl => ?_, fun fl => ?_, fun hwait => ⟨?_, ?_, ?_⟩, ?_⟩
  · cases fl <;> simp [entryUpdate]
  · cases fl <;> simp [entryUpdate]
  · exact ⟨_, rfl, (entered_enter_irq hwait).rti_entire hw hp⟩
  · exact ⟨_, rfl, (entered_enter_nmi hwait).rti_entire hw hp⟩
  · exact ⟨_, rfl, (entered_enter_firq hwait).rti_fast hw (hp.below (n := 12) (by decide))⟩
  · rintro i t (rfl | rfl | rfl) ht <;> injection ht with ht <;> subst ht
    · exact ⟨_, rfl, (entered_entire true true (o := 0x7FFA) (by decide) (by decide) st).rti_entire hw hp⟩
    · exact ⟨_, rfl, (entered_entire false false (o := 0x7FF4) (by decide) (by decide) st).rti_entire hw hp⟩
    · exact ⟨_, rfl, (entered_entire false false (o := 0x7FF2) (by decide) (by decide) st).rti_entire hw hp⟩

end Sys2Proof.Machine
end

section
/-! The statements of spec/20_memory.md: what each region of the address space reads and what a write to it changes, said once
per region; fetches, pushes and word writes are then sequences of these. The sound board's decoder stands alone. -/

namespace Sys2Proof.Machine

/-! ### Reads by region -/

theorem readEffect_of_io {a : Word} (h : isIo a = true) (st : State) : readEffect a st = asicReadEffect a st :=
  if_pos h

/-- The banked window shows the selected page (20_memory.md R76). -/
theorem peek_banked (st : State) {a : Word} (h1 : 0x4000 ≤ a.toNat) (h2 : a.toNat < 0x8000) :
    peek st a = bankedRead st.board (a.toNat - 0x4000) := by
  have hram : ¬ a.toNat < Params.bankBase := Nat.not_lt.2 h1
  have hbank : a.toNat < Params.fixedBase := h2
  rw [peek, busRead, isIo_of_outside (.inr h1), if_neg Bool.false_ne_true, if_neg hram, if_pos hbank, Params.bankBase]

/-- A page number selects a page inside the game ROM (10_state.md R52). -/
theorem State.Inv.bankedOffset_lt {st : State} (h : st.Inv) (h62 : st.board.romBank ≠ 62#8) (h63 : st.board.romBank ≠ 63#8)
    {o : Nat} (ho : o < 0x4000) : st.board.romBank.toNat * 0x4000 + o < st.board.romSize.pageCount * 0x4000 := by
  have hpage : st.board.romBank.toNat < st.board.romSize.pageCount := by
    rcases h.bank with hlt | he | he
    · exact hlt
    · exact absurd he h62
    · exact absurd he h63
  omega

/-- The registers whose read has an effect: the zero-cross register and the two of the clock (60_exceptions.md R385, R388). -/
def AsicReg.readsAreActive (r : AsicReg) : Bool :=
  match r with
  | .zeroCross | .rtcHours | .rtcMinutes => true
  | _ => false

theorem asicReadEffect_of_passive {a : Word} (h : (asicReg a).readsAreActive = false) (st : State) :
    asicReadEffect a st = st := by
  unfold asicReadEffect
  generalize asicReg a = r at h
  cases r with
  | zeroCross | rtcHours | rtcMinutes => exact Bool.noConfusion h
  | _ => rfl

/-- Where these registers stand in the window (60_exceptions.md R370). -/
theorem asicReg_active {a : Word} (hio : isIo a = true) (h : (asicReg a).readsAreActive = true) :
    a = 0x3FFF#16 ∨ a = 0x3FFA#16 ∨ a = 0x3FFB#16 := by
  have key : ∀ k : Fin 32, (asicReg (BitVec.ofNat 16 (0x3FE0 + k.val))).readsAreActive = true →
      BitVec.ofNat 16 (0x3FE0 + k.val) = 0x3FFF#16 ∨ BitVec.ofNat 16 (0x3FE0 + k.val) = 0x3FFA#16 ∨
        BitVec.ofNat 16 (0x3FE0 + k.val) = 0x3FFB#16 := by decide
  obtain ⟨k, rfl⟩ := isIo_offset hio
  exact key k h

/-- A read of any address but those three changes nothing. -/
theorem readEffect_of_passive {a : Word} (hz : a ≠ 0x3FFF#16) (hh : a ≠ 0x3FFA#16) (hm : a ≠ 0x3FFB#16) (st : State) :
    readEffect a st = st := by
  cases hio : isIo a with
  | false => exact readEffect_of_not_io hio st
  | true =>
    have hpassive : (asicReg a).readsAreActive = false := by
      refine Bool.eq_false_iff.2 fun hact => ?_
      rcases asicReg_active hio hact with e | e | e
      · exact hz e
      · exact hh e
      · exact hm e
    rw [readEffect_of_io hio, asicReadEffect_of_passive hpassive]

/-- Settles O46: each region by its own rule. -/
theorem memoryReads : Obligations.MemoryReads := by
  intro st a
  refine ⟨?_, fun hio => ⟨peek_of_io hio st, readEffect_of_io hio st⟩, peek_ram, fun h1 h2 => ?_, peek_rom st,
    fun hz hh hm => readEffect_of_passive hz hh hm st⟩
  · rw [isIo_iff]
    omega
  · rw [peek_banked st h1 h2, bankedRead]
    refine ⟨fun h62 => if_pos h62, fun h63 => ?_, fun h62 h63 => ⟨?_, fun hinv => ?_⟩⟩
    · rw [h63, if_neg (by decide), if_pos rfl, Params.pageSize]
    · rw [if_neg h62, if_neg h63, Params.pageSize]
    · exact hinv.bankedOffset_lt h62 h63 (by omega)

/-! ### Writes by region -/

/-- A write to ROM has no effect (20_memory.md R77). -/
theorem memWrite_of_rom {a : Word} (h : 0x4000 ≤ a.toNat) (v : Byte) (st : State) : memWrite a v st = st := by
  have hram : ¬ a.toNat < Params.bankBase := Nat.not_lt.2 h
  rw [memWrite, isIo_of_outside (.inr h), if_neg Bool.false_ne_true, if_neg hram]

/-- A write to RAM below the I/O window: counted where protected, else stored (R75, R80). -/
theorem memWrite_of_ram {a : Word} (h : a.toNat < 0x3FE0) (v : Byte) (st : State) :
    memWrite a v st = if protectedWrite st.board a then { st with board.violationCount := st.board.violationCount + 1 }
      else { st with board.ram := st.board.ram.write a.toNat v } := by
  split
  · next hp => exact memWrite_protected v h hp
  · next hp => exact memWrite_plain v ⟨h, Bool.eq_false_iff.2 hp⟩

theorem protectedWrite_iff (bd : Board) (a : Word) :
    protectedWrite bd a = true ↔ ∃ m, bd.protMask = some m ∧ Params.protHit m a = true := by
  unfold protectedWrite
  cases bd.protMask with
  | none => simp
  | some m => simp

section RamWrite

variable {a : Word} (ha : a.toNat < 0x3FE0) (v : Byte) (st : State)
include ha

theorem memWrite_violationCount : (memWrite a v st).board.violationCount =
    if protectedWrite st.board a then st.board.violationCount + 1 else st.board.violationCount := by
  rw [memWrite_of_ram ha]
  split <;> rfl

/-- A write below the I/O window does not move the protection. -/
theorem protectedWrite_memWrite (b : Word) : protectedWrite (memWrite a v st).board b = protectedWrite st.board b := by
  rw [memWrite_of_ram ha]
  split <;> rfl

theorem peek_memWrite_same (hw : st.board.ram.wf = true) :
    peek (memWrite a v st) a = if protectedWrite st.board a then peek st a else v := by
  split
  · next hp =>
    rw [memWrite_protected v ha hp]
    rfl
  · next hp => exact peek_memWrite_plain v hw ⟨ha, Bool.eq_false_iff.2 hp⟩

/-- A write below the I/O window changes what no other address reads, the window's registers included. -/
theorem peek_memWrite_other {b : Word} (hb : b ≠ a) : peek (memWrite a v st) b = peek st b := by
  rw [memWrite_of_ram ha]
  split
  · rfl
  · exact busRead_write_other v ha fun e => hb (BitVec.eq_of_toNat_eq e)

end RamWrite

section RamWordWrite

variable {a : Word} (ha : a.toNat < 0x3FDF) (v : Word) (st : State)
include ha

theorem toNat_add_one_lt_ioBase : (a + 1#16).toNat < 0x3FE0 := by
  rw [BitVec.toNat_add, BitVec.toNat_ofNat]
  omega

/-- Each protected byte of a word counts one violation (R80). -/
theorem memWrite16_violationCount : (memWrite16 a v st).board.violationCount =
    st.board.violationCount + (protectedWrite st.board a).toNat + (protectedWrite st.board (a + 1#16)).toNat := by
  have ha0 : a.toNat < 0x3FE0 := by omega
  rw [memWrite16, memWrite_violationCount (toNat_add_one_lt_ioBase ha), memWrite_violationCount ha0,
    protectedWrite_memWrite ha0]
  cases protectedWrite st.board a <;> cases protectedWrite st.board (a + 1#16) <;> rfl

theorem peek_memWrite16_high (hw : st.board.ram.wf = true) :
    peek (memWrite16 a v st) a = if protectedWrite st.board a then peek st a else hi v := by
  rw [memWrite16, peek_memWrite_other (toNat_add_one_lt_ioBase ha) _ _ (ne_add_one a), peek_memWrite_same (by omega) _ _ hw]

theorem peek_memWrite16_low (hw : st.board.ram.wf = true) : peek (memWrite16 a v st) (a + 1#16) =
    if protectedWrite st.board (a + 1#16) then peek st (a + 1#16) else lo v := by
  have ha0 : a.toNat < 0x3FE0 := by omega
  rw [memWrite16, peek_memWrite_same (toNat_add_one_lt_ioBase ha) _ _ (memWrite_wf _ _ hw), protectedWrite_memWrite ha0,
    peek_memWrite_other ha0 _ _ (ne_add_one a).symm]

end RamWordWrite

/-- Settles O47: the byte clauses region by region; in the word clause each byte follows its own protection. -/
theorem memoryWrites : Obligations.MemoryWrites := by
  refine ⟨fun st a => protectedWrite_iff _ a, fun st a v => ⟨fun hio => memWrite_of_io hio v st,
    fun h => memWrite_of_rom h v st, memWrite_protected v, fun h hp => ⟨?_, fun hw => ?_, fun b hb => ?_⟩⟩,
    fun st a v h hw hne => ?_⟩
  · rw [memWrite_plain v ⟨h, hp⟩]
  · exact peek_memWrite_plain v hw ⟨h, hp⟩
  · exact peek_memWrite_other h v st hb
  · have hlow : protectedWrite st.board (a + 1#16) = !protectedWrite st.board a := Bool.eq_not.2 hne.symm
    rw [memWrite16_violationCount h, peek_memWrite16_high h v st hw, peek_memWrite16_low h v st hw, hlow]
    cases protectedWrite st.board a <;> exact ⟨rfl, rfl, rfl⟩

/-! ### Fetches -/

/-- A fetch is a read at PC with its side effect, and PC moves by one (20_memory.md R89). -/
theorem fetch8_eq (st : State) :
    fetch8 st = (peek st st.regs.pc, setReg16 .pc (st.regs.pc + 1#16) (readEffect st.regs.pc st)) := by
  simp only [fetch8, memRead_fst, memRead_snd, readEffect_regs, setPc_eq]

/-- Outside the I/O window a fetch changes only PC. -/
theorem fetch8_at {a : Word} (hio : isIo a = false) (st : State) :
    fetch8 (setReg16 .pc a st) = (peek st a, setReg16 .pc (a + 1#16) st) := by
  rw [fetch8_eq, setReg16_pc_regs, readEffect_of_not_io hio, peek_congr (setReg16_board .pc a st)]
  rfl

/-- Settles O8: a fetch is a read at PC, so a byte stored in plain RAM is fetched. -/
theorem fetchReadsMemory : Obligations.FetchReadsMemory := by
  refine ⟨fun st => Prod.mk.inj (fetch8_eq st), fun st a v hw hp => ?_⟩
  rw [fetch8_at (PlainRam.isIo hp)]
  exact ⟨peek_memWrite_plain v hw hp, rfl⟩

/-! ### Pushes -/

/-- A register list names at most twelve bytes. -/
theorem listImage_length_le (list : Byte) (r : Regs) (other : Word) : (listImage list r other).length ≤ 12 := by
  have hbyte (k : Nat) (v : Byte) : (if list.getLsbD k then [v] else []).length ≤ 1 := by split <;> simp
  have hword (k : Nat) (w : Word) : (if list.getLsbD k then wordBytes w else []).length ≤ 2 := by
    split <;> simp [wordBytes]
  have h0 := hbyte 0 r.cc
  have h1 := hbyte 1 r.a
  have h2 := hbyte 2 r.b
  have h3 := hbyte 3 r.dp
  have h4 := hword 4 r.x
  have h5 := hword 5 r.y
  have h6 := hword 6 other
  have h7 := hword 7 r.pc
  simp only [listImage, List.length_append]
  omega

/-- What is said of a push of a register list: the pieces of `Pushed` that speak of its image. -/
theorem Pushed.of_list {sp : StackReg} {list : Byte} {r : Regs} {other : Word} {st t : State}
    (h : Pushed sp (listImage list r other) st t) :
    let image := listImage list r other
    let p := sp.val st - BitVec.ofNat 16 image.length
    t.regs = sp.put p st.regs ∧ t.counters = st.counters ∧ t.fault = st.fault ∧
      t = { storeImage p image st with regs := t.regs } ∧ StoreFrame p image.length st t ∧
      (st.board.ram.wf = true → st.PlainBytes p image.length → Stored p image st t) :=
  ⟨h.regs, h.counters, h.fault, h.image, h.frame,
    fun hw hp => h.stored hw (Nat.le_trans (listImage_length_le list r other) (by decide)) hp⟩

/-- Settles O26: a pushed byte goes where a write of that region goes, and a list is pushed byte by byte. -/
theorem pushRegisters : Obligations.PushRegisters := by
  refine ⟨fun _ _ => rfl, fun _ _ => rfl, fun sp v st => ?_, fun list st => ⟨_, rfl, ?_⟩, fun list st => ⟨_, rfl, ?_⟩⟩
  · refine ⟨push8_eq sp v st, fun h => ?_, fun h1 h2 => ?_, fun h => ?_⟩
    · exact (push8_eq sp v st).trans (memWrite_of_rom h v _)
    · exact (push8_eq sp v st).trans (memWrite_of_io ((isIo_iff _).2 ⟨h1, h2⟩) v _)
    · refine (push8_eq sp v st).trans ((memWrite_of_ram h v _).trans ?_)
      simp only [setReg16_board, StackReg.val]
  · exact (pushed_pushList (by decide) (by decide) (by decide) (by decide) list st).of_list
  · exact (pushed_pushList (by decide) (by decide) (by decide) (by decide) list st).of_list

/-! ### The sound board's decoder -/

theorem resolveSound_ram {a : Nat} (h : a < 0x2000) : resolveSound a = .target a .ram := if_pos h

/-- The YM2151 stands at two addresses, told apart by parity (20_memory.md R94). -/
theorem resolveSound_ym {a : Nat} (h1 : 0x2400 ≤ a) (h2 : a < 0x2800) :
    resolveSound a = .target (0x2400 + a % 2) .hardware := by
  rw [resolveSound, if_neg (by omega), if_pos (by omega), if_pos ⟨h1, h2⟩]
  split
  · next h => rw [h]
  · next h => rw [show a % 2 = 1 by omega]

theorem resolveSound_hardware {a : Nat} (h1 : 0x2000 ≤ a) (h2 : a < 0x4000) (hym : ¬ (0x2400 ≤ a ∧ a < 0x2800)) :
    resolveSound a = .target a .hardware := by
  rw [resolveSound, if_neg (by omega), if_pos h2, if_neg hym]

theorem resolveSound_bank {a : Nat} (h1 : 0x4000 ≤ a) (h2 : a < 0xC000) :
    resolveSound a = .target (a - 0x4000) .bankswitched := by
  rw [resolveSound, if_neg (by omega), if_neg (by omega), if_pos h2]

theorem resolveSound_rom {a : Nat} (h1 : 0xC000 ≤ a) (h2 : a < 0x10000) : resolveSound a = .target (a - 0xC000) .rom := by
  rw [resolveSound, if_neg (by omega), if_neg (by omega), if_neg (by omega), if_pos h2]

theorem resolveSound_fatal {a : Nat} (h : 0x10000 ≤ a) : resolveSound a = .fatal (.soundDecodeOutOfRange a) := by
  rw [resolveSound, if_neg (by omega), if_neg (by omega), if_neg (by omega), if_neg (by omega)]

/-- Settles O56: the segments, one by one. -/
theorem soundDecoder : Obligations.SoundDecoder := fun _ =>
  ⟨resolveSound_ram, resolveSound_ym, resolveSound_hardware, resolveSound_bank, resolveSound_rom, resolveSound_fatal⟩

end Sys2Proof.Machine
end

section
/-! The statements of spec/30_encoding.md about the decoder: one equation per opcode page, from which follow how much it reads and
what it rejects; and the step that meets a rejected encoding. -/

namespace Sys2Proof.Machine

/-! ### The decoder by page -/

/-- The bytes after a page byte, 0x10 or 0x11: an opcode of the page, then its operand bytes (30_encoding.md R111). -/
def decodePage (page : List (Nat × Template)) (bs : List Byte) : Decoded :=
  match bs with
  | [] => .more
  | op :: rest => operands (lookupIn page op) rest

theorem decode_page2 (bs : List Byte) : decode (0x10#8 :: bs) = decodePage page2 bs := by cases bs <;> rfl

theorem decode_page3 (bs : List Byte) : decode (0x11#8 :: bs) = decodePage page3 bs := by cases bs <;> rfl

theorem decode_page1 {b : Byte} (h2 : b ≠ 0x10#8) (h3 : b ≠ 0x11#8) (bs : List Byte) :
    decode (b :: bs) = operands (lookup1 b) bs :=
  (if_neg h2).trans (if_neg h3)

/-! ### How much is read -/

theorem reads_decodePage {page : List (Nat × Template)} (hw : ∀ x ∈ page, x.2.Wf) : Reads (decodePage page) 4 :=
  Reads.cons rfl (fun _ _ => rfl) fun _ => Reads.operands fun _ h =>
    have ⟨_, hmem⟩ := lookupIn_mem h
    hw _ hmem

/-- After its first byte the decoder reads at most four more. -/
theorem reads_decode_cons (b : Byte) : Reads (fun bs => decode (b :: bs)) 4 := by
  by_cases h2 : b = 0x10#8
  · simpa only [h2, decode_page2] using reads_decodePage page2_wf
  by_cases h3 : b = 0x11#8
  · simpa only [h3, decode_page3] using reads_decodePage page3_wf
  simpa only [decode_page1 h2 h3] using (Reads.operands fun _ => lookup1_wf).mono (by decide)

/-- An instruction has at most five bytes (30_encoding.md R110). -/
theorem reads_decode : Reads decode 5 := Reads.cons rfl (fun _ _ => rfl) reads_decode_cons

/-- Settles O2: the decoder reads at most five bytes, and on none it asks for more. -/
theorem decodeReadsOneInstruction : Obligations.DecodeReadsOneInstruction := by
  refine ⟨fun bs rest i h => ?_, reads_decode.enough⟩
  obtain ⟨used, hbs, hlen, hwf, hsame, hmore⟩ := reads_decode.ok bs rest i h
  have hne : used ≠ [] := by
    rintro rfl
    cases hsame []
  exact ⟨used, hbs, List.length_pos_iff.2 hne, hlen, hwf, hsame, hmore⟩

/-! ### A step on a rejected encoding -/

/-- The decoder asks for more on `bs` and on every shorter part of it. -/
def Unfinished (bs : List Byte) : Prop := ∀ n, n ≤ bs.length → decode (bs.take n) = .more

theorem unfinished_nil : Unfinished [] := fun n _ => by rw [List.take_nil]; rfl

theorem Unfinished.snoc {bs : List Byte} {b : Byte} (h : Unfinished bs) (hb : decode (bs ++ [b]) = .more) :
    Unfinished (bs ++ [b]) := by
  intro n hn
  rcases Nat.lt_or_ge bs.length n with hlt | hle
  · have hall : (bs ++ [b]).length ≤ n := Nat.le_trans (Nat.le_of_eq List.length_append) hlt
    rwa [List.take_of_length_le hall]
  · rw [List.take_append_of_le_length hle]
    exact h n hle

theorem Unfinished.one {b : Byte} (h : decode [b] = .more) : Unfinished [b] := unfinished_nil.snoc h

/-- A fetch reads code up to the byte the decoder rejects, and the step ends there: PC is past that byte, the fault is recorded,
and nothing else has changed (60_exceptions.md R350, R351). -/
theorem step_of_rejected_code {st : State} {pre : List Byte} {b : Byte} {d : Decoded} {f : Fault} (hr : st.Runnable)
    (hpre : Unfinished pre) (hlen : pre.length < 5) (hd : decode (pre ++ [b]) = d) (hmore : d ≠ .more)
    (hbad : ∀ t, Fetched.of st.regs.pc (pre ++ [b]) d t = .bad f t) (hc : st.CodeAt st.regs.pc (pre ++ [b])) :
    cpuStep st = .fault f
      { st with regs.pc := st.regs.pc + BitVec.ofNat 16 (pre.length + 1), fault := some f } ∧
    step st = .fault f := by
  have hfetch : fetchInstr st = .bad f (setReg16 .pc (st.regs.pc + BitVec.ofNat 16 (pre.length + 1)) st) := by
    have hlength : (pre ++ [b]).length = pre.length + 1 := List.length_append
    have hfive : (pre ++ [b]).length ≤ 5 := Nat.le_trans (Nat.le_of_eq hlength) hlen
    have hne : pre ++ [b] ≠ [] := List.append_ne_nil_of_right_ne_nil _ (List.cons_ne_nil _ _)
    rw [fetchInstr_code hc hfive hne (hd ▸ hmore), hd, hbad, hlength]
    · intro n hn
      have hle : n ≤ pre.length := Nat.le_of_lt_succ (Nat.lt_of_lt_of_eq hn hlength)
      rw [List.take_append_of_le_length hle]
      exact hpre n hle
  have hcpu : cpuStep st = .fault f
      { st with regs.pc := st.regs.pc + BitVec.ofNat 16 (pre.length + 1), fault := some f } := by
    rw [cpuStep_of_runnable hr, runInstr, hfetch]
    rfl
  exact ⟨hcpu, by rw [step, boardStep, hcpu]⟩

/-! ### Undefined opcodes -/

/-- Only an empty cell of a map is an undefined opcode: no reader of operand bytes answers so. -/
theorem operands_undefined_iff (t : Option Template) (bs : List Byte) :
    operands t bs = .undefinedOpcode ↔ t.isNone = true := by
  have h8 (bs : List Byte) (k : Byte → Instr) : take8 bs k ≠ .undefinedOpcode := by
    cases bs <;> simp [take8]
  have h16 (bs : List Byte) (k : Word → Instr) : take16 bs k ≠ .undefinedOpcode := by
    unfold take16
    split <;> simp
  have hidx (bs : List Byte) (k : Indexed → Instr) : takeIndexed bs k ≠ .undefinedOpcode := by
    unfold takeIndexed
    split
    · simp
    · split
      · simp
      · simp
      · exact h8 _ _
      · exact h16 _ _
  have hpair (bs : List Byte) (k : TfrReg → TfrReg → Instr) : takePair bs k ≠ .undefinedOpcode := by
    unfold takePair
    split
    · simp
    · split
      · split <;> simp
      · simp
  rcases t with _ | t
  · simp [operands]
  · cases t <;> simp [operands, h8, h16, hidx, hpair]

theorem decode_undefined_page1 {b : Byte} (h2 : b ≠ 0x10#8) (h3 : b ≠ 0x11#8) (rest : List Byte) :
    decode (b :: rest) = .undefinedOpcode ↔ b ∈ undefinedPage1 := by
  rw [decode_page1 h2 h3, operands_undefined_iff, lookup1_isNone]
  simp [h2, h3]

theorem decode_undefined_page2 (op : Byte) (rest : List Byte) :
    decode (0x10#8 :: op :: rest) = .undefinedOpcode ↔ op ∉ definedPage2 := by
  rw [decode_page2, decodePage, operands_undefined_iff, lookupIn_page2_isNone]

theorem decode_undefined_page3 (op : Byte) (rest : List Byte) :
    decode (0x11#8 :: op :: rest) = .undefinedOpcode ↔ op ∉ definedPage3 := by
  rw [decode_page3, decodePage, operands_undefined_iff, lookupIn_page3_isNone]

/-- The page bytes are not among the undefined ones (30_encoding.md R111, R124). -/
theorem ne_pageByte_of_undefinedPage1 {b : Byte} (h : b ∈ undefinedPage1) : b ≠ 0x10#8 ∧ b ≠ 0x11#8 := by
  constructor <;> (rintro rfl; revert h; decide)

/-- Settles O3: the empty cells of the three maps, and a step that meets one. -/
theorem undefinedOpcodes : Obligations.UndefinedOpcodes := by
  refine ⟨fun _ rest h2 h3 => decode_undefined_page1 h2 h3 rest, decode_undefined_page2, decode_undefined_page3,
    fun st b hr hb hc => ?_, fun st p op hr hop hc => ?_⟩
  · have ⟨h2, h3⟩ := ne_pageByte_of_undefinedPage1 hb
    exact step_of_rejected_code hr unfinished_nil (by decide) ((decode_undefined_page1 h2 h3 []).2 hb) (by simp)
      (fun _ => rfl) hc
  · have hd : decode [p, op] = .undefinedOpcode := by
      rcases hop with ⟨rfl, h⟩ | ⟨rfl, h⟩
      · exact (decode_undefined_page2 op []).2 h
      · exact (decode_undefined_page3 op []).2 h
    have hp : decode [p] = .more := by rcases hop with ⟨rfl, -⟩ | ⟨rfl, -⟩ <;> rfl
    exact step_of_rejected_code hr (Unfinished.one hp) (by simp) hd (by simp) (fun _ => rfl) hc

/-! ### Register pairs -/

/-- A pair byte is rejected where R127 says so; elsewhere it is an instruction. -/
theorem takePair_cases (pb : Byte) (rest : List Byte) (k : TfrReg → TfrReg → Instr) :
    (IllegalPair pb ∧ takePair (pb :: rest) k = .illegalRegisterCode pb) ∨
    (¬ IllegalPair pb ∧ ∃ r1 r2, r1.sameSize r2 = true ∧ takePair (pb :: rest) k = .ok (k r1 r2) rest) := by
  have ha := pair_accepted pb
  rw [takePair]
  generalize tfrRegOf (pb.toNat / 16) = o1 at ha ⊢
  generalize tfrRegOf (pb.toNat % 16) = o2 at ha ⊢
  rcases o1 with _ | r1
  · exact .inl ⟨by simpa using ha, rfl⟩
  rcases o2 with _ | r2
  · exact .inl ⟨by simpa using ha, rfl⟩
  cases hs : r1.sameSize r2
  · exact .inl ⟨by simpa [hs] using ha, by simp [hs]⟩
  · exact .inr ⟨by simpa [hs] using ha, r1, r2, hs, by simp [hs]⟩

theorem takePair_illegal_iff (pb : Byte) (rest : List Byte) (k : TfrReg → TfrReg → Instr) :
    takePair (pb :: rest) k = .illegalRegisterCode pb ↔ IllegalPair pb := by
  rcases takePair_cases pb rest k with ⟨hi, h⟩ | ⟨hi, r1, r2, -, h⟩ <;> simp [hi, h]

/-- The two opcodes followed by a pair byte, EXG and TFR, and the decoder's reading of what follows. -/
theorem decode_pair_opcode {op : Byte} (h : op = 0x1E#8 ∨ op = 0x1F#8) :
    ∃ k : TfrReg → TfrReg → Instr, (∀ r1 r2, (k r1 r2).wf = r1.sameSize r2) ∧
      ∀ bs, decode (op :: bs) = takePair bs k := by
  rcases h with rfl | rfl
  · exact ⟨.exg, fun _ _ => rfl, fun _ => rfl⟩
  · exact ⟨.tfr, fun _ _ => rfl, fun _ => rfl⟩

/-- The postbyte of a pair of two sizes is one of R127's. -/
theorem illegalPair_encodePair {r1 r2 : TfrReg} (h : r1.sameSize r2 = false) : IllegalPair (encodePair r1 r2) := by
  unfold IllegalPair
  match r1, r2, h with
  | .r16 p, .r8 q, _ => cases p <;> cases q <;> decide
  | .r8 p, .r16 q, _ => cases p <;> cases q <;> decide

/-- TFR and EXG stop on a pair of two sizes (41_load_store_transfer.md R188, R189). -/
theorem exec_tfr_mixed {r1 r2 : TfrReg} (h : r1.sameSize r2 = false) (st : State) :
    exec (.tfr r1 r2) st = illegalPair 0x1F#8 r1 r2 st :=
  match r1, r2, h with
  | .r16 _, .r8 _, _ => rfl
  | .r8 _, .r16 _, _ => rfl

theorem exec_exg_mixed {r1 r2 : TfrReg} (h : r1.sameSize r2 = false) (st : State) :
    exec (.exg r1 r2) st = illegalPair 0x1E#8 r1 r2 st :=
  match r1, r2, h with
  | .r16 _, .r8 _, _ => rfl
  | .r8 _, .r16 _, _ => rfl

/-- Settles O5: the decoder's reading of a pair byte, the step that meets a rejected one, and the meanings of the mixed pairs. -/
theorem illegalRegisterCodes : Obligations.IllegalRegisterCodes := by
  refine ⟨fun op pb rest hop => ?_, fun st op pb hr hop hi hc => ?_, fun r1 r2 st h => ?_⟩
  · obtain ⟨k, hk, hd⟩ := decode_pair_opcode hop
    rw [hd]
    refine ⟨takePair_illegal_iff pb rest k, fun hn => ?_⟩
    obtain ⟨hi, -⟩ | ⟨-, r1, r2, hs, h⟩ := takePair_cases pb rest k
    · exact absurd hi hn
    · exact ⟨k r1 r2, h, (hk r1 r2).trans hs⟩
  · obtain ⟨k, -, hd⟩ := decode_pair_opcode hop
    exact step_of_rejected_code hr (Unfinished.one (hd [])) (by simp) ((hd [pb]).trans ((takePair_illegal_iff pb [] k).2 hi))
      (by simp) (fun _ => rfl) hc
  · have hp := illegalPair_encodePair h
    exact ⟨⟨_, _, exec_tfr_mixed h st, hp⟩, ⟨_, _, exec_exg_mixed h st, hp⟩⟩

/-! ### Indexed postbytes -/

/-- A base register is given by its code. -/
theorem exists_idxRegCode (c : BitVec 2) : ∃ r, c = idxRegCode r ∧ baseOf c = r := by
  refine ⟨baseOf c, ?_, rfl⟩
  revert c
  decide

/-- The bytes the encoder writes for an indexed operand are read back after LEAX's opcode. -/
theorem decode_leax (ix : Indexed) (rest : List Byte) : decode (0x30 :: (encodeIndexed ix ++ rest)) = .ok (.leax ix) rest :=
  takeIndexed_encodeIndexed ix rest .leax

/-- The PCR forms and `[n16]` do not look at the base register code (30_encoding.md R117). -/
theorem decode_leax_pcr8 (c : BitVec 2) (i : Bool) (n : Byte) (rest : List Byte) :
    decode (0x30 :: postbyte c i 0xC#4 :: n :: rest) = .ok (.leax (.pcr8 n i)) rest := by
  obtain ⟨r, rfl, -⟩ := exists_idxRegCode c
  cases r <;> cases i <;> rfl

theorem decode_leax_pcr16 (c : BitVec 2) (i : Bool) (h l : Byte) (rest : List Byte) :
    decode (0x30 :: postbyte c i 0xD#4 :: h :: l :: rest) = .ok (.leax (.pcr16 (join h l) i)) rest := by
  obtain ⟨r, rfl, -⟩ := exists_idxRegCode c
  cases r <;> cases i <;> rfl

theorem decode_leax_extInd (c : BitVec 2) (h l : Byte) (rest : List Byte) :
    decode (0x30 :: postbyte c true 0xF#4 :: h :: l :: rest) = .ok (.leax (.extInd (join h l))) rest := by
  obtain ⟨r, rfl, -⟩ := exists_idxRegCode c
  cases r <;> rfl

theorem decode_leax_off16 (r : IdxReg) (i : Bool) (h l : Byte) (rest : List Byte) :
    decode (0x30 :: postbyte (idxRegCode r) i 0x9#4 :: h :: l :: rest) = .ok (.leax (.off16 r (join h l) i)) rest := by
  simpa [encodeIndexed] using decode_leax (.off16 r (join h l) i) rest

/-- An entry of an opcode map whose operand starts with an indexed postbyte. -/
def takesPostbyte : Template → Bool
  | .idx _ => true
  | .lea _ => true
  | _ => false

theorem operands_of_takesPostbyte {o : Option Template} (h : o.any takesPostbyte = true) :
    ∃ k, ∀ bs, operands o bs = takeIndexed bs k := by
  rcases o with _ | t
  · cases h
  cases t with
  | idx k => exact ⟨_, fun _ => rfl⟩
  | lea k => exact ⟨k, fun _ => rfl⟩
  | _ => cases h

/-- The indexed cells of the three maps (30_encoding.md R121–R123). -/
theorem lookup1_indexed : ∀ op : Byte, IndexedOpcode [op] →
    op ≠ 0x10#8 ∧ op ≠ 0x11#8 ∧ (lookup1 op).any takesPostbyte = true := by
  unfold IndexedOpcode
  decide

theorem lookupIn_page2_indexed : ∀ op ∈ definedPage2, op.toNat / 16 = 0xA ∨ op.toNat / 16 = 0xE →
    (lookupIn page2 op).any takesPostbyte = true := by decide

theorem lookupIn_page3_indexed : ∀ op ∈ definedPage3, op.toNat / 16 = 0xA ∨ op.toNat / 16 = 0xE →
    (lookupIn page3 op).any takesPostbyte = true := by decide

/-- The decoder reads a postbyte after `ops`, and not before. -/
def ReadsPostbyte (ops : List Byte) : Prop :=
  Unfinished ops ∧ ∃ k, ∀ bs, decode (ops ++ bs) = takeIndexed bs k

theorem readsPostbyte_page1 {op : Byte} (h : IndexedOpcode [op]) : ReadsPostbyte [op] := by
  obtain ⟨h2, h3, ht⟩ := lookup1_indexed op h
  obtain ⟨k, hk⟩ := operands_of_takesPostbyte ht
  have hd (bs : List Byte) : decode (op :: bs) = takeIndexed bs k := (decode_page1 h2 h3 bs).trans (hk bs)
  exact ⟨Unfinished.one (hd []), k, hd⟩

theorem readsPostbyte_paged {p op : Byte} {page : List (Nat × Template)} (hp : ∀ bs, decode (p :: bs) = decodePage page bs)
    (ht : (lookupIn page op).any takesPostbyte = true) : ReadsPostbyte [p, op] := by
  obtain ⟨k, hk⟩ := operands_of_takesPostbyte ht
  have hd (bs : List Byte) : decode (p :: op :: bs) = takeIndexed bs k := (hp (op :: bs)).trans (hk bs)
  exact ⟨(Unfinished.one (hp [])).snoc (hd []), k, hd⟩

/-- An indexed opcode has one byte or two. -/
theorem IndexedOpcode.length_le {ops : List Byte} (h : IndexedOpcode ops) : ops.length ≤ 2 :=
  match ops, h with
  | [_], _ => Nat.le_succ 1
  | [_, _], _ => Nat.le_refl 2

theorem readsPostbyte_of_indexedOpcode {ops : List Byte} (h : IndexedOpcode ops) : ReadsPostbyte ops := by
  match ops, h with
  | [_], h => exact readsPostbyte_page1 h
  | [p, op], ⟨hpage, hrow⟩ =>
    rcases hpage with ⟨rfl, hop⟩ | ⟨rfl, hop⟩
    · exact readsPostbyte_paged decode_page2 (lookupIn_page2_indexed op hop hrow)
    · exact readsPostbyte_paged decode_page3 (lookupIn_page3_indexed op hop hrow)

/-- Settles O4: the encoder's postbytes are those of the table, the bits the table ignores apart; the decoder rejects the others,
and a step that meets one ends there. -/
theorem indexedPostbytes : Obligations.IndexedPostbytes := by
  refine ⟨fun c n rest => ?_, fun c rest => ?_, fun c i rest => ?_, fun c i n rest => ?_, fun c i h l rest => ?_,
    fun pb rest => ?_, fun st ops pb hr hops hpb hc => ?_⟩
  · obtain ⟨r, rfl, hb⟩ := exists_idxRegCode c
    rw [hb]
    exact decode_leax (.off5 r n) rest
  · obtain ⟨r, rfl, hb⟩ := exists_idxRegCode c
    rw [hb]
    exact ⟨decode_leax (.inc1 r) rest, decode_leax (.dec1 r) rest⟩
  · obtain ⟨r, rfl, hb⟩ := exists_idxRegCode c
    rw [hb]
    exact ⟨decode_leax (.inc2 r i) rest, decode_leax (.dec2 r i) rest, decode_leax (.zero r i) rest,
      decode_leax (.accB r i) rest, decode_leax (.accA r i) rest, decode_leax (.accD r i) rest⟩
  · obtain ⟨r, rfl, hb⟩ := exists_idxRegCode c
    rw [hb]
    exact ⟨decode_leax (.off8 r n i) rest, decode_leax_pcr8 _ i n rest⟩
  · refine ⟨?_, decode_leax_pcr16 c i h l rest, decode_leax_extInd c h l rest⟩
    obtain ⟨r, rfl, hb⟩ := exists_idxRegCode c
    rw [hb]
    exact decode_leax_off16 r i h l rest
  · refine (takeIndexed_illegal_iff (pb :: rest) .leax pb).trans ⟨?_, fun h => ⟨rest, rfl, h⟩⟩
    rintro ⟨_, -, h⟩
    exact h
  · obtain ⟨hpre, k, hd⟩ := readsPostbyte_of_indexedOpcode hops
    have hlen := hops.length_le
    exact step_of_rejected_code hr hpre (by omega) ((hd [pb]).trans (takeIndexed_of_illegal hpb [] k)) (by simp)
      (fun _ => by rw [Fetched.of, List.dropLast_concat]) hc

end Sys2Proof.Machine
end

section
/-! The statements of spec/40_addressing.md: a word read decides every indirect address, so each addressing mode is a sum and at
most one such read; an arithmetic instruction is its operation on the operand that mode gives. -/

namespace Sys2Proof.Machine

/-! ### Reading a word -/

/-- Outside the I/O window a word read is the word there and changes nothing. -/
theorem memRead16_of_noIo {a : Word} (h : NoIo a 2) (st : State) : memRead16 a st = (wordAt st a, st) := by
  have hHigh : isIo a = false := by simpa using h 0 (by decide)
  have hLow : isIo (a + 1#16) = false := h 1 (by decide)
  refine Prod.ext ?_ ?_
  · rw [memRead16_fst, readEffect_of_not_io hHigh, wordAt]
  · rw [memRead16_snd, readEffect_of_not_io hHigh, readEffect_of_not_io hLow]

/-- A word read: what it answers, what it changes, and that outside the I/O window it changes nothing. -/
theorem memRead16_spec (a : Word) (st : State) :
    (memRead16 a st).1 = join (peek st a) (peek (readEffect a st) (a + 1#16)) ∧
    (memRead16 a st).2 = readEffect (a + 1#16) (readEffect a st) ∧
    SameButReads st (memRead16 a st).2 ∧
    (NoIo a 2 → memRead16 a st = (wordAt st a, st)) :=
  ⟨memRead16_fst a st, memRead16_snd a st, sameButReads_memRead16 a st, fun h => memRead16_of_noIo h st⟩

/-! ### Effective addresses -/

/-- An indexed address is its direct form's, dereferenced where the indirect bit is set (40_addressing.md R151). -/
theorem eaIndexed_eq_deref (ix : Indexed) (st : State) :
    eaIndexed ix st = deref (isIndirect ix) (eaIndexed (directForm ix) st) := by
  cases ix <;> rfl

/-- An indirect form reads its address at its direct form's. -/
theorem eaIndexed_of_isIndirect {ix : Indexed} (h : isIndirect ix = true) (st : State) :
    eaIndexed ix st = memRead16 (eaIndexed (directForm ix) st).1 (eaIndexed (directForm ix) st).2 := by
  rw [eaIndexed_eq_deref, h, deref, if_pos rfl]

/-- Settles O21: each direct form by the value of its offset modulo 65536, each indirect form by the word read at its pointer. -/
theorem effectiveAddresses : Obligations.EffectiveAddresses := by
  refine ⟨fun dd st => ⟨toNat_join _ dd, rfl⟩, fun _ _ => rfl, fun r n5 n8 n16 st => ?_, fun ix st h => ?_,
    fun n st => memRead16_spec n st⟩
  · have hD : ((getReg16 .d st).toNat : Int) % 65536 = (st.regs.a.toNat * 256 + st.regs.b.toNat : Int) % 65536 := by
      rw [getReg16_d, toNat_join]
      rfl
    exact ⟨⟨isSum_add _ _ _ (sext5_mod n5), rfl⟩,
      ⟨isSum_add _ _ _ rfl, rfl⟩,
      ⟨isSum_add _ _ _ (sext8_mod st.regs.b), rfl⟩,
      ⟨isSum_add _ _ _ (sext8_mod st.regs.a), rfl⟩,
      ⟨isSum_add _ _ _ hD, rfl⟩,
      ⟨isSum_add _ _ _ (sext8_mod n8), rfl⟩,
      ⟨isSum_add _ _ _ (int16_mod n16), rfl⟩,
      ⟨isSum_add _ _ _ (sext8_mod n8), rfl⟩,
      ⟨isSum_add _ _ _ (int16_mod n16), rfl⟩,
      ⟨_, _, isSum_add _ 1#16 _ rfl, isSum_add _ 2#16 _ rfl, rfl, rfl⟩,
      ⟨_, _, isSum_sub _ 1#16, isSum_sub _ 2#16, rfl, rfl⟩⟩
  · rw [eaIndexed_of_isIndirect h]
    exact memRead16_spec _ _

/-! ### Operand access -/

/-- A word stored in plain RAM reads back as the register it came from, after the auto modes have moved it (R153). -/
theorem wordAt_store16 (r : Reg16) (m : Mem) {st : State} (hw : st.board.ram.wf = true)
    (hp : st.PlainBytes (ea m st).1 2) : wordAt (store16 r m st) (ea m st).1 = getReg16 r (autoStep m st) := by
  have hea := sameButReads_ea m st
  have hw' : (ea m st).2.board.ram.wf = true := by rw [hea.ram, autoStep_board]; exact hw
  have hp' : (ea m st).2.PlainBytes (ea m st).1 2 := fun k hk =>
    PlainRam.congr (by rw [hea.protMask, autoStep_board]) (hp k hk)
  rw [wordAt, store16, setCc_eq, peek_congr (setReg8_board _ _ _), peek_congr (setReg8_board _ _ _), word_readback hw' hp',
    getReg16_congr r (ea_regs m st)]

/-- Settles O20: an operand is a byte or a word read at the effective address; in the three examples the auto mode has moved X
before STX reads it, and LDX and LEAX replace the moved X. -/
theorem operandAccess : Obligations.OperandAccess := by
  refine ⟨fun _ _ => rfl, fun _ _ => rfl, fun m st => ?_, fun st hw hp => ⟨_, rfl, ?_⟩, fun st h => ⟨_, rfl, ?_⟩,
    fun st => ⟨_, rfl, rfl⟩⟩
  · exact ⟨rfl, rfl, rfl, rfl, sameButReads_ea m st, sameButReads_operand8 (.mem m) st, sameButReads_operand16 (.mem m) st⟩
  · exact wordAt_store16 .x (.idx (.inc2 .x false)) hw hp
  · exact congrArg Prod.fst (memRead16_of_noIo h (bump .x 2#16 st))

/-! ### Arithmetic on bytes -/

theorem addOp_rule (a m cc : Byte) : Add8Rule a m false cc (addOp a m cc).1 (addOp a m cc).2 := add8_rule a m false cc

theorem adcOp_rule (a m cc : Byte) : Add8Rule a m (getFlag cc .c) cc (adcOp a m cc).1 (adcOp a m cc).2 :=
  add8_rule a m (getFlag cc .c) cc

theorem subOp_rule (a m cc : Byte) : Sub8Rule a m false cc (subOp a m cc).1 (subOp a m cc).2 := sub8_rule a m false cc

theorem sbcOp_rule (a m cc : Byte) : Sub8Rule a m (getFlag cc .c) cc (sbcOp a m cc).1 (sbcOp a m cc).2 :=
  sub8_rule a m (getFlag cc .c) cc

/-- Settles O28: each instruction is R156's sum on A or B, with or without the carry in. -/
theorem addBytes : Obligations.AddBytes := by
  refine ⟨?_, ?_, ?_, ?_, ?_, ?_, ?_, ?_⟩
  iterate 4 exact encSrc8_of (fun _ => rfl) (fun _ => rfl) (fun _ => rfl) (fun _ => rfl)
  · exact byteAlu_of_op (.inl rfl) (fun _ _ => rfl) addOp_rule
  · exact byteAlu_of_op (.inr rfl) (fun _ _ => rfl) addOp_rule
  · exact byteAlu_of_op (.inl rfl) (fun _ _ => rfl) adcOp_rule
  · exact byteAlu_of_op (.inr rfl) (fun _ _ => rfl) adcOp_rule

/-- Settles O29: each instruction is R157's difference on A or B; a comparison keeps the register. -/
theorem subtractCompareBytes : Obligations.SubtractCompareBytes := by
  refine ⟨?_, ?_, ?_, ?_, ?_, ?_, ?_, ?_, ?_, ?_, ?_, ?_⟩
  iterate 6 exact encSrc8_of (fun _ => rfl) (fun _ => rfl) (fun _ => rfl) (fun _ => rfl)
  · exact byteAlu_of_op (.inl rfl) (fun _ _ => rfl) subOp_rule
  · exact byteAlu_of_op (.inr rfl) (fun _ _ => rfl) subOp_rule
  · exact byteAlu_of_op (.inl rfl) (fun _ _ => rfl) sbcOp_rule
  · exact byteAlu_of_op (.inr rfl) (fun _ _ => rfl) sbcOp_rule
  · exact byteAlu_of_op (.inl rfl) (fun _ _ => rfl) subOp_rule
  · exact byteAlu_of_op (.inr rfl) (fun _ _ => rfl) subOp_rule

/-! ### Arithmetic on words -/

/-- Settles O30: each instruction is R158's sum or R159's difference on its register as the address computation left it. -/
theorem wordArithmetic : Obligations.WordArithmetic := by
  refine ⟨?_, ?_, ?_, ?_, ?_, ?_, ?_, ?_, ?_, ?_, ?_, ?_, ?_, ?_⟩
  iterate 7 exact encSrc16_of (fun _ => rfl) (fun _ => rfl) (fun _ => rfl) (fun _ => rfl)
  · exact wordAlu_of_op (fun _ _ => rfl) add16_rule
  iterate 6 exact wordAlu_of_op (fun _ _ => rfl) sub16_rule

end Sys2Proof.Machine
end

section
/-! The statements of spec/41_load_store_transfer.md: a load is the operation that answers its operand; a store is a byte write or
a word write at the effective address; LEA, TFR and EXG are register writes alone; a pull is the bytes read upward from the
pointer. -/

namespace Sys2Proof.Machine

/-! ### Loads -/

/-- A load answers its operand, with N and Z of the operand and V cleared. -/
theorem loadOp_rule (a m cc : Byte) : LogicRule m cc (loadOp a m cc).1 (loadOp a m cc).2 := ⟨rfl, flagsBecome_nz8v0 m cc⟩

theorem loadOp16_rule (a m : Word) (cc : Byte) : LoadWordRule m cc (loadOp16 a m cc).1 (loadOp16 a m cc).2 :=
  ⟨rfl, flagsBecome_nz16v0 m cc⟩

/-- Settles O22: each load is the operation that answers its operand, on the register it loads. -/
theorem loads : Obligations.Loads := by
  refine ⟨?_, ?_, ?_, ?_, ?_, ?_, ?_, ?_, ?_, ?_, ?_, ?_, ?_, ?_⟩
  iterate 2 exact encSrc8_of (fun _ => rfl) (fun _ => rfl) (fun _ => rfl) (fun _ => rfl)
  iterate 5 exact encSrc16_of (fun _ => rfl) (fun _ => rfl) (fun _ => rfl) (fun _ => rfl)
  · exact byteAlu_of_op (.inl rfl) (fun _ _ => rfl) loadOp_rule
  · exact byteAlu_of_op (.inr rfl) (fun _ _ => rfl) loadOp_rule
  iterate 5 exact wordAlu_of_op (fun _ _ => rfl) loadOp16_rule

/-! ### Stores -/

@[simp] theorem memWrite16_regs (a v : Word) (st : State) : (memWrite16 a v st).regs = st.regs :=
  (memWrite_regs _ _ _).trans (memWrite_regs _ _ _)

/-- What a store at an effective address leaves alone is what its write leaves alone: the address computation stores nothing. -/
theorem storeFrame_of_ea {m : Mem} {st t : State} {a : Word} {n : Nat} (h : StoreFrame a n (ea m st).2 t) (cc : Byte) :
    StoreFrame a n st (setReg8 .cc cc t) :=
  (h.of_reads (autoStep_board m st) (sameButReads_ea m st)).of_board (setReg8_board .cc cc t)

/-- Computing an address moves neither accumulator. -/
theorem getReg8_ea {r : Reg8} (hr : r = .a ∨ r = .b) (m : Mem) (st : State) : getReg8 r (ea m st).2 = getReg8 r st := by
  rw [getReg8_congr r (ea_regs m st)]
  rcases hr with rfl | rfl
  · exact autoStep_a m st
  · exact autoStep_b m st

theorem store8_eq {r : Reg8} (hr : r = .a ∨ r = .b) (m : Mem) (st : State) :
    store8 r m st = setReg8 .cc (nz8v0 (getReg8 r st) st.regs.cc) (memWrite (ea m st).1 (getReg8 r st) (ea m st).2) := by
  simp only [store8, getReg8_ea hr, getReg8_cc, ea_cc, setCc_eq]

theorem store16_eq (r : Reg16) (m : Mem) (st : State) :
    store16 r m st = setReg8 .cc (nz16v0 (getReg16 r (autoStep m st)) st.regs.cc)
      (memWrite16 (ea m st).1 (getReg16 r (autoStep m st)) (ea m st).2) := by
  simp only [store16, getReg16_congr r (ea_regs m st), getReg8_cc, ea_cc, setCc_eq]

/-- A byte stored in plain RAM reads back. -/
theorem peek_store8 {r : Reg8} (hr : r = .a ∨ r = .b) (m : Mem) {st : State} (hw : st.board.ram.wf = true)
    (hp : st.PlainRam (ea m st).1) : peek (store8 r m st) (ea m st).1 = getReg8 r st := by
  have hea := sameButReads_ea m st
  rw [store8_eq hr, peek_congr (setReg8_board _ _ _)]
  refine peek_memWrite_plain _ ?_ (PlainRam.congr ?_ hp)
  · rw [hea.ram, autoStep_board]; exact hw
  · rw [hea.protMask, autoStep_board]

/-- The shape of the accumulator stores. -/
theorem storesByte_of_store8 {r : Reg8} {mk : Mem → Instr} (hr : r = .a ∨ r = .b)
    (he : ∀ m st, exec (mk m) st = .next (store8 r m st)) : StoresByte r mk := by
  intro m st
  refine ⟨_, _, he m st, store8_eq hr m st, flagsBecome_nz8v0 _ _, sameButReads_ea m st, ?_, ?_, peek_store8 hr m⟩
  · rw [store8_eq hr, setReg8_cc_regs, memWrite_regs, ea_regs]
  · rw [store8_eq hr]
    exact storeFrame_of_ea (storeFrame_memWrite _ _ _) _

/-- The shape of the word stores. -/
theorem storesWord_of_store16 {r : Reg16} {mk : Mem → Instr} (he : ∀ m st, exec (mk m) st = .next (store16 r m st)) :
    StoresWord r mk := by
  intro m st
  refine ⟨_, _, he m st, store16_eq r m st, flagsBecome_nz16v0 _ _, sameButReads_ea m st, ?_, ?_, wordAt_store16 r m⟩
  · rw [store16_eq, setReg8_cc_regs, memWrite16_regs, ea_regs]
  · rw [store16_eq]
    exact storeFrame_of_ea (storeFrame_memWrite16 _ _ _) _

/-- Settles O23: each store writes its register's byte or word at the address, which is computed first. -/
theorem stores : Obligations.Stores := by
  refine ⟨?_, ?_, ?_, ?_, ?_, ?_, ?_, ?_, ?_, ?_, ?_, ?_, ?_, ?_⟩
  iterate 7 exact encMem_of (fun _ => rfl) (fun _ => rfl) (fun _ => rfl)
  · exact storesByte_of_store8 (.inl rfl) fun _ _ => rfl
  · exact storesByte_of_store8 (.inr rfl) fun _ _ => rfl
  iterate 5 exact storesWord_of_store16 fun _ _ => rfl

/-! ### Load effective address -/

@[simp] theorem setReg16_cc (r : Reg16) (v : Word) (st : State) : (setReg16 r v st).regs.cc = st.regs.cc := by
  cases r <;> rfl

theorem eaIndexed_cc (ix : Indexed) (st : State) : (eaIndexed ix st).2.regs.cc = st.regs.cc := ea_cc (.idx ix) st

/-- LEAX and LEAY write the address to the register and Z to the CC of before. -/
theorem leaZ_eq (r : Reg16) (ix : Indexed) (st : State) :
    leaZ r ix st = setReg8 .cc (setFlag .z ((eaIndexed ix st).1 == 0#16) st.regs.cc)
      (setReg16 r (eaIndexed ix st).1 (eaIndexed ix st).2) := by
  simp only [leaZ, writeFlag, getReg8_cc, setReg16_cc, eaIndexed_cc, setCc_eq]

/-- Z of a word, and no other flag. -/
theorem flagsBecome_z16 (v : Word) (cc : Byte) :
    FlagsBecome (flagUpdate none none (some (decide (v.toNat = 0))) none none) cc (setFlag .z (v == 0#16) cc) := by
  intro fl
  rw [getFlag_setFlag, beq_zero16]
  cases fl <;> rfl

/-- Settles O24: the register takes the address, and Z is the address's for LEAX and LEAY. -/
theorem loadEffectiveAddress : Obligations.LoadEffectiveAddress := by
  refine ⟨?_, ?_, ?_, ?_, fun ix st => ⟨sameButReads_eaIndexed ix st, ⟨_, flagsBecome_z16 _ _, ?_, ?_⟩, rfl, rfl⟩⟩
  iterate 4 exact encIndexed_of fun _ => rfl
  · exact congrArg Host.Outcome.next (leaZ_eq .x ix st)
  · exact congrArg Host.Outcome.next (leaZ_eq .y ix st)

/-! ### Transfer and exchange -/

/-- A register reads what was last written to it. -/
theorem getReg8_setReg8 (r q : Reg8) (v : Byte) (st : State) :
    getReg8 r (setReg8 q v st) = if r = q then v else getReg8 r st := by
  split
  · next h => rw [h, getReg8_setReg8_same]
  · next h => cases q <;> cases r <;> first | rfl | exact absurd rfl h

theorem getReg16_setReg16 (r q : Reg16) (v : Word) (st : State) :
    getReg16 r (setReg16 q v st) = if r = q then v else getReg16 r st := by
  split
  · next h => rw [h, getReg16_setReg16_same]
  · next h => cases q <;> cases r <;> first | rfl | exact absurd rfl h

/-- Only 16-bit registers change, D, and so A and B, among them. -/
def WordRegsOnly (st t : State) : Prop := t = { st with regs := { t.regs with dp := st.regs.dp, cc := st.regs.cc } }

theorem WordRegsOnly.refl (st : State) : WordRegsOnly st st := rfl

theorem WordRegsOnly.setReg16 {st t : State} (h : WordRegsOnly st t) (r : Reg16) (v : Word) :
    WordRegsOnly st (setReg16 r v t) := by
  unfold WordRegsOnly at *
  rw [h]
  cases r <;> rfl

/-- Only 8-bit registers change. -/
def ByteRegsOnly (st t : State) : Prop :=
  t = { st with regs := { st.regs with a := t.regs.a, b := t.regs.b, dp := t.regs.dp, cc := t.regs.cc } }

theorem ByteRegsOnly.refl (st : State) : ByteRegsOnly st st := rfl

theorem ByteRegsOnly.setReg8 {st t : State} (h : ByteRegsOnly st t) (r : Reg8) (v : Byte) :
    ByteRegsOnly st (setReg8 r v t) := by
  unfold ByteRegsOnly at *
  rw [h]
  cases r <;> rfl

/-- The encoding shape of TFR and EXG, from the decoder's equation for their opcode. -/
theorem encPair_of {op : Byte} {k : TfrReg → TfrReg → Instr} (h : ∀ bs, decode (op :: bs) = takePair bs k) : EncPair op k :=
  ⟨fun r1 r2 rest hs => by rw [h, takePair_encodePair r1 r2 rest k hs],
    fun pb rest hi => by rw [h, (takePair_illegal_iff pb rest k).2 hi]⟩

/-- Settles O25: TFR is one register write and EXG two, of values read before either. -/
theorem transferExchange : Obligations.TransferExchange := by
  refine ⟨encPair_of fun _ => rfl, encPair_of fun _ => rfl,
    fun p q st => ⟨⟨_, rfl, ?_, fun r => ?_⟩, ⟨_, rfl, ?_, fun r => ?_⟩⟩,
    fun p q st => ⟨⟨_, rfl, ?_, fun r => ?_⟩, ⟨_, rfl, ?_, fun r => ?_⟩⟩⟩
  · exact (WordRegsOnly.refl st).setReg16 q _
  · exact getReg16_setReg16 r q _ st
  · exact ((WordRegsOnly.refl st).setReg16 p _).setReg16 q _
  · rw [getReg16_setReg16, getReg16_setReg16]
  · exact (ByteRegsOnly.refl st).setReg8 q _
  · exact getReg8_setReg8 r q _ st
  · exact ((ByteRegsOnly.refl st).setReg8 p _).setReg8 q _
  · rw [getReg8_setReg8, getReg8_setReg8]

/-! ### Pulls -/

/-- The choice `pulledRegs` makes for a register that is not listed. -/
theorem ite_unlisted {α : Type} {list : Byte} {k : Nat} (h : list.getLsbD k = false) (pulled old : α) :
    (if list.getLsbD k then pulled else old) = old := by
  rw [h, if_neg Bool.false_ne_true]

theorem SameButReads.with_regs {s t : State} (h : SameButReads s t) (r : Regs) :
    SameButReads { s with regs := r } { t with regs := r } := by
  unfold SameButReads at *
  rw [h]

/-- The shape of PULS and PULU. -/
theorem pulls_of_pullList {sp : StackReg} {other : Reg16} {mk : Byte → Instr}
    (ho : (sp = .s ∧ other = .u) ∨ (sp = .u ∧ other = .s))
    (he : ∀ list st, exec (mk list) st = .next (pullList sp other list st)) : Pulls sp mk := by
  intro list st
  obtain ⟨hread, hregs⟩ := reading_pullList ho list st
  have hstate := hread.state
  rw [hregs] at hstate
  refine ⟨_, he list st, hstate, ?_, hread.pointer, ?_, ?_, ?_, ?_, ?_, ?_, ?_, ?_, fun hio => ?_⟩
  · rw [hregs, hstate]
    exact (sameButReads_readAll _ _ st).with_regs _
  · exact fun h => (congrArg Regs.cc hregs).trans (ite_unlisted h _ _)
  · exact fun h => (congrArg Regs.a hregs).trans (ite_unlisted h _ _)
  · exact fun h => (congrArg Regs.b hregs).trans (ite_unlisted h _ _)
  · exact fun h => (congrArg Regs.dp hregs).trans (ite_unlisted h _ _)
  · exact fun h => (congrArg Regs.x hregs).trans (ite_unlisted h _ _)
  · exact fun h => (congrArg Regs.y hregs).trans (ite_unlisted h _ _)
  · cases sp with
    | s => exact fun h => (congrArg Regs.u hregs).trans (ite_unlisted h _ _)
    | u => exact fun h => (congrArg Regs.s hregs).trans (ite_unlisted h _ _)
  · exact fun h => (congrArg Regs.pc hregs).trans (ite_unlisted h _ _)
  · rw [hstate, StackReg.val, readAll_of_noIo hio, pulledRegs_of_noIo hio]

/-- Settles O27: the listed bytes are read upward from the pointer, and only registers and these reads change anything. -/
theorem pullRegisters : Obligations.PullRegisters :=
  ⟨fun _ _ => rfl, fun _ _ => rfl, pulls_of_pullList (.inl ⟨rfl, rfl⟩) fun _ _ => rfl,
    pulls_of_pullList (.inr ⟨rfl, rfl⟩) fun _ _ => rfl⟩

end Sys2Proof.Machine
end

section
/-! The statements of spec/42_arith_logic.md: a logical instruction is its bit operation on the accumulator and its operand; DAA
adds a correction, which after an addition of packed decimals is the one that carries from digit to digit in tens. -/

namespace Sys2Proof.Machine

/-! ### Logic -/

theorem andOp_rule (a m cc : Byte) : BitwiseRule (fun x y => x && y) a m cc (andOp a m cc).1 (andOp a m cc).2 :=
  ⟨fun _ _ => BitVec.getLsbD_and, flagsBecome_nz8v0 _ _⟩

theorem orOp_rule (a m cc : Byte) : BitwiseRule (fun x y => x || y) a m cc (orOp a m cc).1 (orOp a m cc).2 :=
  ⟨fun _ _ => BitVec.getLsbD_or, flagsBecome_nz8v0 _ _⟩

theorem eorOp_rule (a m cc : Byte) : BitwiseRule (fun x y => x != y) a m cc (eorOp a m cc).1 (eorOp a m cc).2 :=
  ⟨fun _ _ => BitVec.getLsbD_xor, flagsBecome_nz8v0 _ _⟩

/-- Settles O31: each instruction is its bit operation on A or B; a bit test keeps the register. -/
theorem logicBytes : Obligations.LogicBytes := by
  refine ⟨?_, ?_, ?_, ?_, ?_, ?_, ?_, ?_, ?_, ?_, ?_, ?_, ?_, ?_, ?_, ?_⟩
  iterate 8 exact encSrc8_of (fun _ => rfl) (fun _ => rfl) (fun _ => rfl) (fun _ => rfl)
  · exact byteAlu_of_op (.inl rfl) (fun _ _ => rfl) andOp_rule
  · exact byteAlu_of_op (.inr rfl) (fun _ _ => rfl) andOp_rule
  · exact byteAlu_of_op (.inl rfl) (fun _ _ => rfl) orOp_rule
  · exact byteAlu_of_op (.inr rfl) (fun _ _ => rfl) orOp_rule
  · exact byteAlu_of_op (.inl rfl) (fun _ _ => rfl) eorOp_rule
  · exact byteAlu_of_op (.inr rfl) (fun _ _ => rfl) eorOp_rule
  · exact byteAlu_of_op (.inl rfl) (fun _ _ => rfl) andOp_rule
  · exact byteAlu_of_op (.inr rfl) (fun _ _ => rfl) andOp_rule

/-! ### Multiplication, sign extension, ABX -/

/-- A product of two bytes fits a word. -/
theorem toNat_mulOp (a b cc : Byte) : (mulOp a b cc).1.toNat = a.toNat * b.toNat := by
  have h : a.toNat * b.toNat < 2 ^ 8 * 2 ^ 8 := Nat.mul_lt_mul'' a.isLt b.isLt
  exact (BitVec.toNat_ofNat _ 16).trans (Nat.mod_eq_of_lt h)

/-- MUL writes Z, and C with the product's bit 7 (R225). -/
theorem flagsBecome_mulOp (a b cc : Byte) :
    FlagsBecome (flagUpdate none none (some (decide ((mulOp a b cc).1.toNat = 0))) none (some ((mulOp a b cc).1.getLsbD 7)))
      cc (mulOp a b cc).2 := by
  intro fl
  rw [← beq_zero16]
  cases fl <;> simp [mulOp, flagUpdate]

/-- A byte under a byte of its sign is the byte sign-extended. -/
theorem join_sign_eq_sext8 (b : Byte) : join (if b.msb then 0xFF#8 else 0x00#8) b = sext8 b := by
  apply BitVec.eq_of_toNat_eq
  rw [toNat_join, sext8, BitVec.toNat_signExtend, BitVec.toNat_setWidth_of_le (by decide)]
  cases b.msb
  · simp
  · simp; omega

theorem toInt_sext8 (b : Byte) : (sext8 b).toInt = b.toInt := BitVec.toInt_signExtend_of_le (by decide)

/-- A word result, V and C unchanged. -/
theorem flagsBecome_nz16 (r : Word) (cc : Byte) : FlagsBecome (nzvc16 r none none) cc (nz16 r cc) := by
  intro fl
  cases fl <;> simp [nzvc16, flagUpdate]

theorem toNat_zext8 (b : Byte) : (zext8 b).toNat = b.toNat := BitVec.toNat_setWidth_of_le (by decide)

/-- Settles O32: the product fits D, SEX's D is B sign-extended, ABX adds B zero-extended. -/
theorem multiplySignExtendAbx : Obligations.MultiplySignExtendAbx := by
  refine ⟨fun _ => rfl, fun _ => rfl, fun _ => rfl, fun st => ⟨_, _, rfl, ?_, ?_⟩, fun st => ⟨_, _, rfl, ?_, ?_⟩,
    fun st => ⟨_, rfl, ?_⟩⟩
  · exact toNat_mulOp _ _ _
  · exact flagsBecome_mulOp _ _ _
  · rw [getReg8_b, join_sign_eq_sext8, toInt_sext8]
  · exact flagsBecome_nz16 _ _
  · exact isSum_add _ _ _ (by rw [getReg8_b, toNat_zext8])

/-! ### Decimal adjust -/

/-- The two corrections share no bit, so their OR is their sum. -/
theorem daaCorrection_eq_add (a cc : Byte) : daaCorrection a cc =
    (if getFlag cc .h = true ∨ a.toNat % 16 > 9 then 0x06 else 0x00) +
    (if getFlag cc .c = true ∨ a.toNat / 16 > 9 ∨ (a.toNat / 16 > 8 ∧ a.toNat % 16 > 9) then 0x60 else 0x00) := by
  simp only [daaCorrection, Bool.or_eq_true, Bool.and_eq_true, decide_eq_true_eq, or_assoc]
  split <;> split <;> rfl

theorem toNat_daaOp (a cc : Byte) : (daaOp a cc).1.toNat = (a.toNat + daaCorrection a cc) % 256 := BitVec.toNat_ofNat _ 8

/-- DAA writes N and Z, and sets C or keeps it (R226). -/
theorem flagsBecome_daaOp (a cc : Byte) :
    FlagsBecome (nzvc8 (daaOp a cc).1 none (some (getFlag cc .c || decide (a.toNat + daaCorrection a cc > 0xFF))))
      cc (daaOp a cc).2 := by
  intro fl
  cases fl <;> simp [daaOp, nzvc8, flagUpdate]

/-- Settles O33: DAA is the operation `daaOp` on A, whose correction is the sum of the rule's two. -/
theorem decimalAdjust : Obligations.DecimalAdjust := by
  refine ⟨fun _ => rfl, fun st => ⟨_, _, rfl, ?_⟩⟩
  rw [getReg8_a, getReg8_cc, ← daaCorrection_eq_add]
  exact ⟨toNat_daaOp _ _, flagsBecome_daaOp _ _⟩

/-! ### Decimal addition -/

/-- What DAA adds to one digit's sum: the 6 that makes a carry in tens a carry in sixteens. -/
def digitCorrection (n : Nat) : Nat := if 9 < n then 0x06 else 0x00

theorem add_digitCorrection {n : Nat} (h : n ≤ 19) : n + digitCorrection n = 16 * (n / 10) + n % 10 := by
  unfold digitCorrection
  split
  · omega
  · omega

/-- The same in the high digit's place. -/
theorem sixteen_mul_digitCorrection (n : Nat) : 16 * digitCorrection n = if 9 < n then 0x60 else 0x00 := by
  unfold digitCorrection
  split
  · rfl
  · rfl

/-- The sum of the low digits of two packed bytes, and a carry. -/
def lowDigitSum (a m : Byte) (cin : Bool) : Nat := a.toNat % 16 + m.toNat % 16 + cin.toNat

/-- The decimal sum of two packed bytes and a carry. -/
def decimalSum (a m : Byte) (cin : Bool) : Nat := decimalValue a + decimalValue m + cin.toNat

theorem decimalSum_eq_digits (a m : Byte) (cin : Bool) :
    decimalSum a m cin = 10 * (a.toNat / 16 + m.toNat / 16) + lowDigitSum a m cin := by
  rw [decimalSum, decimalValue, decimalValue, lowDigitSum]
  omega

theorem toNat_add8 (a m : Byte) (cin : Bool) (cc : Byte) :
    (add8 a m cin cc).1.toNat = (a.toNat + m.toNat + cin.toNat) % 256 := BitVec.toNat_ofNat _ 8

theorem getFlag_add8_h (a m : Byte) (cin : Bool) (cc : Byte) :
    getFlag (add8 a m cin cc).2 .h = true ↔ 0x0F < lowDigitSum a m cin := by simp [add8, lowDigitSum]

theorem getFlag_add8_c (a m : Byte) (cin : Bool) (cc : Byte) :
    getFlag (add8 a m cin cc).2 .c = true ↔ 0xFF < a.toNat + m.toNat + cin.toNat := by simp [add8]

section

variable {a m : Byte} (ha : IsDecimal a) (hm : IsDecimal m) (cin : Bool)

include ha hm

theorem lowDigitSum_le : lowDigitSum a m cin ≤ 19 :=
  Nat.add_le_add (Nat.add_le_add ha.1 hm.1) cin.toNat_le

theorem decimalSum_le : decimalSum a m cin ≤ 199 := by
  have hlow := lowDigitSum_le ha hm cin
  have hhigh : a.toNat / 16 + m.toNat / 16 ≤ 18 := Nat.add_le_add ha.2 hm.2
  rw [decimalSum_eq_digits]
  omega

/-- After an addition of packed decimals DAA corrects each digit by the decimal sum of that digit and the carry into it: a sum over
9 is seen in the digit of the result or in the carry out of it. -/
theorem daaCorrection_add8 (cc : Byte) : daaCorrection (add8 a m cin cc).1 (add8 a m cin cc).2 =
    digitCorrection (lowDigitSum a m cin) + 16 * digitCorrection (decimalSum a m cin / 10) := by
  obtain ⟨hal, hah⟩ := ha
  obtain ⟨hml, hmh⟩ := hm
  have hcin := cin.toNat_le
  simp only [daaCorrection_eq_add, getFlag_add8_h, getFlag_add8_c, toNat_add8, sixteen_mul_digitCorrection]
  rw [digitCorrection, decimalSum_eq_digits, lowDigitSum]
  refine congr (congrArg HAdd.hAdd (ite_congr (propext ?_) (fun _ => rfl) fun _ => rfl))
    (ite_congr (propext ?_) (fun _ => rfl) fun _ => rfl)
  · omega
  · omega

/-- The binary sum so corrected is the decimal sum, a hexadecimal digit for each decimal one. -/
theorem sum_add_daaCorrection (cc : Byte) :
    a.toNat + m.toNat + cin.toNat + daaCorrection (add8 a m cin cc).1 (add8 a m cin cc).2 =
      256 * (decimalSum a m cin / 100) + 16 * (decimalSum a m cin / 10 % 10) + decimalSum a m cin % 10 := by
  have hsum := decimalSum_eq_digits a m cin
  have hle := decimalSum_le ha hm cin
  have hlow := add_digitCorrection (lowDigitSum_le ha hm cin)
  have hhigh := add_digitCorrection (n := decimalSum a m cin / 10) (by omega)
  rw [daaCorrection_add8 ha hm]
  rw [lowDigitSum] at *
  omega

/-- The byte DAA leaves is the last two digits. -/
theorem toNat_daaOp_add8 (cc : Byte) : (daaOp (add8 a m cin cc).1 (add8 a m cin cc).2).1.toNat =
    16 * (decimalSum a m cin / 10 % 10) + decimalSum a m cin % 10 := by
  rw [toNat_daaOp, toNat_add8, Nat.mod_add_mod, sum_add_daaCorrection ha hm]
  omega

/-- The carry DAA leaves, its own or the addition's, is the hundred. -/
theorem getFlag_daaOp_add8_c (cc : Byte) : getFlag (daaOp (add8 a m cin cc).1 (add8 a m cin cc).2).2 .c = true ↔
    100 ≤ decimalSum a m cin := by
  have hsum := sum_add_daaCorrection ha hm cin cc
  have hc : getFlag (daaOp (add8 a m cin cc).1 (add8 a m cin cc).2).2 .c = _ := flagsBecome_daaOp _ _ .c
  rw [hc, nzvc8, flagUpdate, Option.getD_some, Bool.or_eq_true, decide_eq_true_eq, getFlag_add8_c, toNat_add8]
  omega

/-- DAA after an addition of packed decimals answers the decimal sum, its hundred in C. -/
theorem daaOp_add8 (cc : Byte) :
    IsDecimal (daaOp (add8 a m cin cc).1 (add8 a m cin cc).2).1 ∧
    decimalValue (daaOp (add8 a m cin cc).1 (add8 a m cin cc).2).1 +
      100 * (getFlag (daaOp (add8 a m cin cc).1 (add8 a m cin cc).2).2 .c).toNat = decimalSum a m cin := by
  have hle := decimalSum_le ha hm cin
  have hr := toNat_daaOp_add8 ha hm cin cc
  have hc := getFlag_daaOp_add8_c ha hm cin cc
  rw [IsDecimal, decimalValue, hr]
  refine ⟨by omega, ?_⟩
  by_cases h : 100 ≤ decimalSum a m cin
  · rw [hc.2 h, Bool.toNat_true]
    omega
  · rw [Bool.eq_false_iff.2 (mt hc.1 h), Bool.toNat_false]
    omega

end

/-- Settles O34: ADDA and ADCA are `add8` with its two carries in, and DAA makes of it the decimal sum. -/
theorem decimalAddition : Obligations.DecimalAddition := by
  rintro st t u m i ha hm (rfl | rfl) ht hu
  · cases ht
    cases hu
    exact daaOp_add8 ha hm false st.regs.cc
  · cases ht
    cases hu
    rw [if_pos rfl]
    exact daaOp_add8 ha hm (getFlag st.regs.cc .c) st.regs.cc

end Sys2Proof.Machine
end

section
/-! The statements of spec/43_unary_shift.md: each family is one operation on a byte, in memory, in A and in B, so its statement is
the operation's result and flags. -/

namespace Sys2Proof.Machine

/-! ### A family from its operation -/

/-- The shape of a unary family (30_encoding.md R120): its five opcodes, its three meanings and the rule of its operation. -/
theorem unaryFamily_of_op {dir a b idx ext : Byte} {mk : Mem → Instr} {ia ib : Instr} {op : Byte → Byte → Byte × Byte}
    {rule : Byte → Byte → Byte → Byte → Prop}
    (hdecode : ∀ bs, decode (dir :: bs) = take8 bs (fun dd => mk (.dir dd)) ∧
      decode (idx :: bs) = takeIndexed bs (fun ix => mk (.idx ix)) ∧
      decode (ext :: bs) = take16 bs (fun dd => mk (.ext dd)) ∧ decode (a :: bs) = .ok ia bs ∧ decode (b :: bs) = .ok ib bs)
    (hmem : ∀ m st, exec (mk m) st = .next (modify op m st))
    (hacc : ∀ st, exec ia st = .next (unary op .a st) ∧ exec ib st = .next (unary op .b st))
    (hop : ∀ m cc, rule m cc (op m cc).1 (op m cc).2) : UnaryFamily dir a b idx ext mk ia ib rule := by
  simp only [forall_and] at hdecode hacc
  obtain ⟨hdir, hidx, hext, ha, hb⟩ := hdecode
  obtain ⟨hexecA, hexecB⟩ := hacc
  exact ⟨encMem_of hdir hidx hext, ha, hb, memModify_of_op hmem hop, regModify_of_op hexecA hop, regModify_of_op hexecB hop⟩

/-! ### Flags written one after another -/

namespace FlagsBecome

theorem refl (cc : Byte) : FlagsBecome (flagUpdate none none none none none) cc cc := by
  intro fl
  cases fl <;> rfl

/-- One more flag written: the update says it, and is otherwise the update before. -/
theorem write {upd upd' : FlagUpdate} {cc cc' : Byte} (hf : FlagsBecome upd cc cc') {fl : Flag} {x : Bool}
    (hupd : ∀ g, upd' g = if g = fl then some x else upd g) : FlagsBecome upd' cc (setFlag fl x cc') := by
  intro g
  rw [getFlag_setFlag, hf g, hupd g]
  split
  · rfl
  · rfl

variable {h n z v c : Option Bool} {cc cc' : Byte} (hf : FlagsBecome (flagUpdate h n z v c) cc cc')

include hf

theorem setN (x : Bool) : FlagsBecome (flagUpdate h (some x) z v c) cc (setFlag .n x cc') :=
  hf.write fun g => by cases g <;> rfl

theorem setZ (x : Bool) : FlagsBecome (flagUpdate h n (some x) v c) cc (setFlag .z x cc') :=
  hf.write fun g => by cases g <;> rfl

theorem setV (x : Bool) : FlagsBecome (flagUpdate h n z (some x) c) cc (setFlag .v x cc') :=
  hf.write fun g => by cases g <;> rfl

theorem setC (x : Bool) : FlagsBecome (flagUpdate h n z v (some x)) cc (setFlag .c x cc') :=
  hf.write fun g => by cases g <;> rfl

/-- Z of a byte result, by its value. -/
theorem setZ8 (r : Byte) : FlagsBecome (flagUpdate h n (some (decide (r.toNat = 0))) v c) cc (setFlag .z (r == 0#8) cc') :=
  beq_zero8 r ▸ hf.setZ (r == 0#8)

/-- N and Z of a byte result (00_scope.md R17). -/
theorem setNz8 (r : Byte) :
    FlagsBecome (flagUpdate h (some (r.getLsbD 7)) (some (decide (r.toNat = 0))) v c) cc (nz8 r cc') :=
  msb8 r ▸ (hf.setN r.msb).setZ8 r

end FlagsBecome

/-! ### NEG and COM -/

theorem toNat_negOp (m cc : Byte) : (negOp m cc).1.toNat = (256 - m.toNat) % 256 := BitVec.toNat_sub 0#8 m

theorem flagsBecome_negOp (m cc : Byte) :
    FlagsBecome (nzvc8 (negOp m cc).1 (some (decide (m = 0x80#8))) (some (decide (m ≠ 0x00#8)))) cc (negOp m cc).2 := by
  rw [decide_not]
  exact (((FlagsBecome.refl cc).setV _).setC _).setNz8 _

theorem toNat_comOp (m cc : Byte) : (comOp m cc).1.toNat = 255 - m.toNat := by
  have h : m ^^^ 0xFF#8 = ~~~m := BitVec.xor_allOnes
  rw [comOp, h, BitVec.toNat_not]

theorem flagsBecome_comOp (m cc : Byte) : FlagsBecome (nzvc8 (comOp m cc).1 (some false) (some true)) cc (comOp m cc).2 :=
  (((FlagsBecome.refl cc).setNz8 _).setV false).setC true

/-- Settles O35: NEG is the difference from 0, COM the bitwise complement. -/
theorem negateComplement : Obligations.NegateComplement := by
  refine ⟨?_, ?_⟩
  · exact unaryFamily_of_op (fun _ => ⟨rfl, rfl, rfl, rfl, rfl⟩) (fun _ _ => rfl) (fun _ => ⟨rfl, rfl⟩)
      fun m cc => ⟨toNat_negOp m cc, flagsBecome_negOp m cc⟩
  · exact unaryFamily_of_op (fun _ => ⟨rfl, rfl, rfl, rfl, rfl⟩) (fun _ _ => rfl) (fun _ => ⟨rfl, rfl⟩)
      fun m cc => ⟨toNat_comOp m cc, flagsBecome_comOp m cc⟩

/-! ### Right shifts -/

theorem toNat_ushiftRight_one (m : Byte) : (m >>> 1).toNat = m.toNat / 2 := by
  rw [BitVec.toNat_ushiftRight, Nat.shiftRight_eq_div_pow, Nat.pow_one]

theorem toNat_lsrOp (m cc : Byte) : (lsrOp m cc).1.toNat = m.toNat / 2 := toNat_ushiftRight_one m

theorem flagsBecome_lsrOp (m cc : Byte) :
    FlagsBecome (flagUpdate none (some false) (some (decide ((lsrOp m cc).1.toNat = 0))) none (some (m.getLsbD 0)))
      cc (lsrOp m cc).2 :=
  (((FlagsBecome.refl cc).setC _).setN false).setZ8 _

theorem toNat_carryHigh (cc : Byte) : (carryHigh cc).toNat = 2 ^ 7 * (getFlag cc .c).toNat := by
  unfold carryHigh
  cases getFlag cc .c <;> rfl

/-- The carry and the half share no bit, so their OR is their sum. -/
theorem toNat_rorOp (m cc : Byte) : (rorOp m cc).1.toNat = 128 * (getFlag cc .c).toNat + m.toNat / 2 := by
  have hhalf : m.toNat / 2 < 2 ^ 7 := by omega
  rw [rorOp, BitVec.toNat_or, toNat_carryHigh, toNat_ushiftRight_one, ← Nat.two_pow_add_eq_or_of_lt hhalf]

theorem flagsBecome_rorOp (m cc : Byte) : FlagsBecome (nzvc8 (rorOp m cc).1 none (some (m.getLsbD 0))) cc (rorOp m cc).2 :=
  ((FlagsBecome.refl cc).setC _).setNz8 _

/-- Keeping bit 7 over a right shift is the arithmetic shift. -/
theorem or_ushiftRight_eq_sshiftRight (m : Byte) : (m &&& 0x80#8) ||| (m >>> 1) = m.sshiftRight 1 := by
  have hmask : ∀ i < 7, (0x80#8).getLsbD i = false := by decide
  refine BitVec.eq_of_getLsbD_eq fun i hi => ?_
  rw [BitVec.getLsbD_or, BitVec.getLsbD_and, BitVec.getLsbD_ushiftRight, BitVec.getLsbD_sshiftRight,
    decide_eq_false (Nat.not_le.2 hi), Bool.not_false, Bool.true_and]
  rcases Nat.lt_succ_iff_lt_or_eq.1 hi with h | rfl
  · rw [hmask i h, Bool.and_false, Bool.false_or, if_pos (by omega)]
  · simp [msb8]

theorem toInt_asrOp (m cc : Byte) : (asrOp m cc).1.toInt = m.toInt / 2 := by
  rw [asrOp, or_ushiftRight_eq_sshiftRight, BitVec.toInt_sshiftRight, Int.shiftRight_eq_div_pow]
  rfl

theorem flagsBecome_asrOp (m cc : Byte) : FlagsBecome (nzvc8 (asrOp m cc).1 none (some (m.getLsbD 0))) cc (asrOp m cc).2 :=
  ((FlagsBecome.refl cc).setC _).setNz8 _

/-- Settles O36: each is half the byte, with 0, the carry or the sign in bit 7. -/
theorem rightShifts : Obligations.RightShifts := by
  refine ⟨?_, ?_, ?_⟩
  · exact unaryFamily_of_op (fun _ => ⟨rfl, rfl, rfl, rfl, rfl⟩) (fun _ _ => rfl) (fun _ => ⟨rfl, rfl⟩)
      fun m cc => ⟨toNat_lsrOp m cc, flagsBecome_lsrOp m cc⟩
  · exact unaryFamily_of_op (fun _ => ⟨rfl, rfl, rfl, rfl, rfl⟩) (fun _ _ => rfl) (fun _ => ⟨rfl, rfl⟩)
      fun m cc => ⟨toNat_rorOp m cc, flagsBecome_rorOp m cc⟩
  · exact unaryFamily_of_op (fun _ => ⟨rfl, rfl, rfl, rfl, rfl⟩) (fun _ _ => rfl) (fun _ => ⟨rfl, rfl⟩)
      fun m cc => ⟨toInt_asrOp m cc, flagsBecome_asrOp m cc⟩

/-! ### Left shifts -/

theorem toNat_shiftLeft_one (m : Byte) : (m <<< 1).toNat = (2 * m.toNat) % 256 := by
  rw [BitVec.toNat_shiftLeft, Nat.shiftLeft_eq, Nat.pow_one, Nat.mul_comm]

theorem toNat_aslOp (m cc : Byte) : (aslOp m cc).1.toNat = (2 * m.toNat) % 256 := toNat_shiftLeft_one m

theorem flagsBecome_aslOp (m cc : Byte) :
    FlagsBecome (nzvc8 (aslOp m cc).1 (some (m.getLsbD 7 != m.getLsbD 6)) (some (m.getLsbD 7))) cc (aslOp m cc).2 :=
  (((FlagsBecome.refl cc).setC _).setV _).setNz8 _

theorem toNat_carryLow (cc : Byte) : (carryLow cc).toNat = (getFlag cc .c).toNat := by
  unfold carryLow
  cases getFlag cc .c <;> rfl

/-- The double is even and the carry is bit 0, so their OR is their sum. -/
theorem toNat_rolOp (m cc : Byte) : (rolOp m cc).1.toNat = (2 * m.toNat + (getFlag cc .c).toNat) % 256 := by
  have hc : (getFlag cc .c).toNat < 2 ^ 1 := Bool.toNat_lt _
  have heven : 2 * m.toNat % 256 = 2 ^ 1 * (m.toNat % 128) := by omega
  rw [rolOp, BitVec.toNat_or, toNat_carryLow, toNat_shiftLeft_one, heven, ← Nat.two_pow_add_eq_or_of_lt hc]
  omega

theorem flagsBecome_rolOp (m cc : Byte) :
    FlagsBecome (nzvc8 (rolOp m cc).1 (some (m.getLsbD 7 != m.getLsbD 6)) (some (m.getLsbD 7))) cc (rolOp m cc).2 :=
  (((FlagsBecome.refl cc).setC _).setV _).setNz8 _

/-- Settles O37: each is twice the byte, with 0 or the carry in bit 0. -/
theorem leftShifts : Obligations.LeftShifts := by
  refine ⟨?_, ?_⟩
  · exact unaryFamily_of_op (fun _ => ⟨rfl, rfl, rfl, rfl, rfl⟩) (fun _ _ => rfl) (fun _ => ⟨rfl, rfl⟩)
      fun m cc => ⟨toNat_aslOp m cc, flagsBecome_aslOp m cc⟩
  · exact unaryFamily_of_op (fun _ => ⟨rfl, rfl, rfl, rfl, rfl⟩) (fun _ _ => rfl) (fun _ => ⟨rfl, rfl⟩)
      fun m cc => ⟨toNat_rolOp m cc, flagsBecome_rolOp m cc⟩

/-! ### DEC and INC -/

theorem toNat_decOp (m cc : Byte) : (decOp m cc).1.toNat = (m.toNat + 255) % 256 := by
  rw [decOp, BitVec.toNat_sub, Nat.add_comm]
  rfl

theorem flagsBecome_decOp (m cc : Byte) :
    FlagsBecome (nzvc8 (decOp m cc).1 (some (decide (m = 0x80#8))) none) cc (decOp m cc).2 :=
  ((FlagsBecome.refl cc).setV _).setNz8 _

theorem toNat_incOp (m cc : Byte) : (incOp m cc).1.toNat = (m.toNat + 1) % 256 := BitVec.toNat_add m 1#8

theorem flagsBecome_incOp (m cc : Byte) :
    FlagsBecome (nzvc8 (incOp m cc).1 (some (decide (m = 0x7F#8))) none) cc (incOp m cc).2 :=
  ((FlagsBecome.refl cc).setV _).setNz8 _

/-- Settles O38: the difference from 1 and the sum with 1, whose flags leave C out. -/
theorem decrementIncrement : Obligations.DecrementIncrement := by
  refine ⟨?_, ?_⟩
  · exact unaryFamily_of_op (fun _ => ⟨rfl, rfl, rfl, rfl, rfl⟩) (fun _ _ => rfl) (fun _ => ⟨rfl, rfl⟩)
      fun m cc => ⟨toNat_decOp m cc, flagsBecome_decOp m cc⟩
  · exact unaryFamily_of_op (fun _ => ⟨rfl, rfl, rfl, rfl, rfl⟩) (fun _ _ => rfl) (fun _ => ⟨rfl, rfl⟩)
      fun m cc => ⟨toNat_incOp m cc, flagsBecome_incOp m cc⟩

/-! ### TST and CLR -/

/-- TST of memory is its operand's read, then the flags. -/
theorem exec_tst (m : Mem) (st : State) :
    exec (.tst m) st = .next (setReg8 .cc (nz8v0 (operand8 (.mem m) st).1 st.regs.cc) (operand8 (.mem m) st).2) := by
  rw [← operand8_cc (.mem m) st]
  rfl

theorem setReg8_getReg8 (r : Reg8) (st : State) : setReg8 r (getReg8 r st) st = st := by
  cases r <;> rfl

/-- TST of a register writes back what it read, so CC alone. -/
theorem unary_tstOp (r : Reg8) (st : State) : unary tstOp r st = setReg8 .cc (nz8v0 (getReg8 r st) st.regs.cc) st := by
  simp only [unary, tstOp, setReg8_getReg8, setCc_eq, getReg8_cc]

theorem flagsBecome_clrOp (m cc : Byte) :
    FlagsBecome (flagUpdate none (some false) (some true) (some false) (some false)) cc (clrOp m cc).2 :=
  ((((FlagsBecome.refl cc).setN false).setZ true).setV false).setC false

/-- Settles O39: TST is a read and the flags of the byte; CLR, which reads memory (`Params.clrReadsMemory`), is the
read-modify-write whose result is 0 whatever it reads. -/
theorem testClear : Obligations.TestClear := by
  refine ⟨encMem_of (fun _ => rfl) (fun _ => rfl) (fun _ => rfl), fun _ => rfl, fun _ => rfl, fun m st => ?_, fun st => ?_,
    fun st => ?_, ?_⟩
  · exact ⟨_, exec_tst m st, flagsBecome_nz8v0 _ _, sameButReads_operand8 (.mem m) st⟩
  · exact ⟨_, congrArg Host.Outcome.next (unary_tstOp .a st), flagsBecome_nz8v0 _ _⟩
  · exact ⟨_, congrArg Host.Outcome.next (unary_tstOp .b st), flagsBecome_nz8v0 _ _⟩
  · exact unaryFamily_of_op (fun _ => ⟨rfl, rfl, rfl, rfl, rfl⟩) (fun _ _ => rfl) (fun _ => ⟨rfl, rfl⟩)
      fun m cc => ⟨rfl, flagsBecome_clrOp m cc⟩

end Sys2Proof.Machine
end

section
/-! The statements of spec/44_branch_jump.md: a branch is a condition on CC and a target, PC plus the displacement; the conditions
come in opposite pairs, five of which compare A with the operand after CMPA; a call pushes PC and takes its target, a return
pulls PC. -/

namespace Sys2Proof.Machine

/-! ### Branches -/

theorem isSum_target8 (rr : Byte) (st : State) : IsSum (target8 rr st) st.regs.pc rr.toInt :=
  isSum_add _ _ _ (sext8_mod rr)

theorem isSum_target16 (rr : Word) (st : State) : IsSum (target16 rr st) st.regs.pc rr.toInt :=
  isSum_add _ _ _ (int16_mod rr)

/-- A branch writes PC alone (44_branch_jump.md R280). -/
theorem branchIf_eq (k : Cond) (target : Word) (st : State) :
    branchIf k target st = { st with regs.pc := if k.holds st.regs.cc then target else st.regs.pc } := by
  rw [branchIf, getReg8_cc]
  split
  · rfl
  · rfl

/-- The shape of a branch, from its condition and its target. -/
theorem branches_of_branchIf {w : Nat} {mk : BitVec w → Instr} {k : Cond} {cond : Byte → Bool}
    {target : BitVec w → State → Word} (htarget : ∀ rr st, IsSum (target rr st) st.regs.pc rr.toInt)
    (he : ∀ rr st, exec (mk rr) st = .next (branchIf k (target rr st) st)) (hcond : ∀ cc, k.holds cc = cond cc) :
    Branches mk cond := by
  intro rr st
  refine ⟨_, (he rr st).trans (congrArg Host.Outcome.next (branchIf_eq k _ st)), rfl, ?_⟩
  rw [← hcond]
  dsimp only
  split
  · exact htarget rr st
  · rfl

/-- Settles O40: each is a branch on R280's condition to PC plus the sign-extended byte. -/
theorem shortBranches : Obligations.ShortBranches := by
  refine ⟨?_, ?_, ?_, ?_, ?_, ?_, ?_, ?_, ?_, ?_, ?_, ?_, ?_, ?_, ?_, ?_, ?_, ?_, ?_, ?_, ?_, ?_, ?_, ?_⟩
  iterate 12 exact fun _ _ => rfl
  iterate 12 exact branches_of_branchIf isSum_target8 (fun _ _ => rfl) fun _ => rfl

/-- Settles O41: each is a branch on R280's condition to PC plus the word. -/
theorem longBranches : Obligations.LongBranches := by
  refine ⟨?_, ?_, ?_, ?_, ?_, ?_, ?_, ?_, ?_, ?_, ?_, ?_, ?_, ?_, ?_, ?_, ?_, ?_, ?_, ?_, ?_, ?_, ?_, ?_⟩
  iterate 12 exact fun _ _ _ => rfl
  iterate 12 exact branches_of_branchIf isSum_target16 (fun _ _ => rfl) fun _ => rfl

/-! ### Signed conditions -/

theorem Cond.holds_ge (cc : Byte) : Cond.ge.holds cc = decide (getFlag cc .n = getFlag cc .v) := rfl

theorem Cond.holds_lt (cc : Byte) : Cond.lt.holds cc = decide (getFlag cc .n ≠ getFlag cc .v) := (decide_not).symm

theorem Cond.holds_gt (cc : Byte) : Cond.gt.holds cc = (!getFlag cc .z && decide (getFlag cc .n = getFlag cc .v)) := rfl

theorem Cond.holds_le (cc : Byte) : Cond.le.holds cc = (getFlag cc .z || decide (getFlag cc .n ≠ getFlag cc .v)) :=
  congrArg (getFlag cc .z || ·) (Cond.holds_lt cc)

/-- Settles O42: the four conditions that compare N with V, short and long. -/
theorem signedBranches : Obligations.SignedBranches := by
  refine ⟨?_, ?_, ?_, ?_, ?_, ?_, ?_, ?_, ?_, ?_, ?_, ?_, ?_, ?_, ?_, ?_⟩
  iterate 4 exact fun _ _ => rfl
  iterate 4 exact fun _ _ _ => rfl
  · exact branches_of_branchIf isSum_target8 (fun _ _ => rfl) Cond.holds_ge
  · exact branches_of_branchIf isSum_target8 (fun _ _ => rfl) Cond.holds_lt
  · exact branches_of_branchIf isSum_target8 (fun _ _ => rfl) Cond.holds_gt
  · exact branches_of_branchIf isSum_target8 (fun _ _ => rfl) Cond.holds_le
  · exact branches_of_branchIf isSum_target16 (fun _ _ => rfl) Cond.holds_ge
  · exact branches_of_branchIf isSum_target16 (fun _ _ => rfl) Cond.holds_lt
  · exact branches_of_branchIf isSum_target16 (fun _ _ => rfl) Cond.holds_gt
  · exact branches_of_branchIf isSum_target16 (fun _ _ => rfl) Cond.holds_le

/-! ### Comparisons -/

/-- The other condition of a pair (44_branch_jump.md R280). -/
def Cond.opposite : Cond → Cond
  | .ra => .rn
  | .rn => .ra
  | .hi => .ls
  | .ls => .hi
  | .cc => .cs
  | .cs => .cc
  | .ne => .eq
  | .eq => .ne
  | .vc => .vs
  | .vs => .vc
  | .pl => .mi
  | .mi => .pl
  | .ge => .lt
  | .lt => .ge
  | .gt => .le
  | .le => .gt

theorem Cond.holds_opposite (k : Cond) (cc : Byte) : k.opposite.holds cc = !k.holds cc := by
  cases k <;> simp [Cond.opposite, Cond.holds, bne]

/-- A condition that decides a proposition has an opposite that decides its negation. -/
theorem Cond.holds_opposite_of {k : Cond} {cc : Byte} {p q : Prop} [Decidable p] [Decidable q]
    (h : k.holds cc = decide p) (hq : ¬ p ↔ q) : k.opposite.holds cc = decide q := by
  rw [Cond.holds_opposite, h, ← decide_not]
  exact decide_eq_decide.2 hq

theorem getLsbD_seven (b : Byte) : b.getLsbD 7 = decide (128 ≤ b.toNat) := by
  rw [← msb8, BitVec.msb_eq_decide]

/-- A byte whose bit 7 is set stands for 256 less. -/
theorem toInt_eq_ite (b : Byte) : b.toInt = if 128 ≤ b.toNat then (b.toNat : Int) - 256 else b.toNat := by
  rw [BitVec.toInt_eq_toNat_cond]
  split <;> split <;> omega

namespace Sub8Rule

variable {a m cc r cc' : Byte} (h : Sub8Rule a m false cc r cc')

include h

/-- C is the borrow of the unsigned difference. -/
theorem holds_cs : Cond.cs.holds cc' = decide (a.toNat < m.toNat) := by
  obtain ⟨-, hflags⟩ := h
  have hc : getFlag cc' .c = _ := hflags .c
  rw [Cond.holds, hc, nzvc8, flagUpdate, Option.getD_some, decide_eq_decide, Bool.toNat_false]
  omega

/-- The difference modulo 256 is 0 for equal bytes alone. -/
theorem holds_eq : Cond.eq.holds cc' = decide (a = m) := by
  obtain ⟨hr, hflags⟩ := h
  have hz : getFlag cc' .z = _ := hflags .z
  rw [Bool.toNat_false] at hr
  rw [Cond.holds, hz, nzvc8, flagUpdate, Option.getD_some, decide_eq_decide, ← BitVec.toNat_inj]
  omega

/-- N, corrected by V, is the sign of the exact difference. -/
theorem holds_lt : Cond.lt.holds cc' = decide (a.toInt < m.toInt) := by
  obtain ⟨hr, hflags⟩ := h
  have hn : getFlag cc' .n = _ := hflags .n
  have hv : getFlag cc' .v = _ := hflags .v
  rw [Bool.toNat_false] at hr
  rw [Cond.holds_lt, hn, hv, decide_eq_decide, toInt_eq_ite a, toInt_eq_ite m]
  simp only [nzvc8, flagUpdate, Option.getD_some, getLsbD_seven, ne_eq, decide_eq_decide]
  split <;> split <;> omega

theorem holds_ls : Cond.ls.holds cc' = decide (a.toNat ≤ m.toNat) := by
  have hor : Cond.ls.holds cc' = (Cond.cs.holds cc' || Cond.eq.holds cc') := rfl
  rw [hor, h.holds_cs, h.holds_eq, ← Bool.decide_or, decide_eq_decide, Nat.le_iff_lt_or_eq, BitVec.toNat_inj]

theorem holds_le : Cond.le.holds cc' = decide (a.toInt ≤ m.toInt) := by
  have hor : Cond.le.holds cc' = (Cond.eq.holds cc' || Cond.lt.holds cc') := rfl
  rw [hor, h.holds_eq, h.holds_lt, ← Bool.decide_or, decide_eq_decide, Int.le_iff_eq_or_lt, BitVec.toInt_inj]

end Sub8Rule

/-- Settles O43: CMPA's flags decide five comparisons of A with the operand, and the opposite conditions their negations. -/
theorem compareThenBranch : Obligations.CompareThenBranch := by
  refine ⟨fun cc => ⟨Cond.ra.holds_opposite cc, Cond.hi.holds_opposite cc, Cond.cc.holds_opposite cc,
    Cond.ne.holds_opposite cc, Cond.vc.holds_opposite cc, Cond.pl.holds_opposite cc, Cond.ge.holds_opposite cc,
    Cond.gt.holds_opposite cc⟩, fun m st => ?_⟩
  have hcmpa : ByteAlu false .a .cmpa _ := byteAlu_of_op (.inl rfl) (fun _ _ => rfl) subOp_rule
  obtain ⟨res, cc', he, h, -⟩ := hcmpa m st
  refine ⟨_, he, ?_, ?_, ?_, ?_, ?_, ?_, ?_, ?_, ?_, ?_⟩
  · exact Cond.holds_opposite_of h.holds_ls Nat.not_le
  · exact h.holds_ls
  · exact Cond.holds_opposite_of h.holds_cs Nat.not_lt
  · exact h.holds_cs
  · exact Cond.holds_opposite_of h.holds_eq Iff.rfl
  · exact h.holds_eq
  · exact Cond.holds_opposite_of h.holds_lt Int.not_lt
  · exact h.holds_lt
  · exact Cond.holds_opposite_of h.holds_le Int.not_le
  · exact h.holds_le

/-! ### Subroutine calls -/

/-- What is said of stored bytes does not speak of registers. -/
theorem Stored.setReg16 {a : Word} {bs : List Byte} {st t : State} (h : Stored a bs st t) (r : Reg16) (v : Word) :
    Stored a bs st (setReg16 r v t) where
  bytes k hk := (peek_congr (setReg16_board r v t) _).trans (h.bytes k hk)
  others b hb := (peek_congr (setReg16_board r v t) b).trans (h.others b hb)
  state := by
    rw [setReg16_board]
    exact (setReg16_eq r v t).trans (same_but_regs_ram h.state _ t.board.ram)

/-- Other registers over states that differ in these alone. -/
theorem with_regs_of_image {s t : State} (h : t = { s with regs := t.regs }) (r : Regs) :
    ({ t with regs := r } : State) = { s with regs := r } := by
  rw [h]

/-- A call pushes its PC and takes its target. -/
theorem calls_call (target : Word) (st : State) : Calls target st st (call target st) := by
  have hp := pushed_pushReg16 st
  refine ⟨?_, ?_, ?_, ?_, ?_, fun hw hplain => ?_⟩
  · rw [call, setPc_eq, setReg16_pc_regs, hp.regs]
    rfl
  · rw [call, setPc_eq, setReg16_counters, hp.counters]
  · rw [call, setPc_eq, setReg16_fault, hp.fault]
  · exact (setReg16_eq .pc target _).trans (with_regs_of_image hp.image _)
  · exact hp.frame.of_board (setReg16_board .pc target _)
  · exact (hp.stored hw (by decide : 2 ≤ 0x10000) hplain).setReg16 .pc target

/-- A call after an address computation, which moves no PC and stores nothing. -/
theorem Calls.of_ea {m : Mem} {st t : State} {target : Word} (h : Calls target (ea m st).2 (ea m st).2 t) :
    Calls target st (ea m st).2 t := by
  obtain ⟨hregs, hcounters, hfault, himage, hframe, hstored⟩ := h
  have hea := sameButReads_ea m st
  have hpc : (ea m st).2.regs.pc = st.regs.pc := by rw [ea_regs, autoStep_pc]
  rw [hpc] at himage hstored
  refine ⟨hregs, ?_, ?_, himage, hframe.of_reads (autoStep_board m st) hea, hstored⟩
  · rw [hcounters, hea.counters, autoStep_counters]
  · rw [hfault, hea.fault, autoStep_fault]

/-- Settles O44: each is a call; JSR's starts from the state its address computation leaves. -/
theorem subroutineCalls : Obligations.SubroutineCalls := by
  refine ⟨fun _ _ => rfl, fun _ _ _ => rfl, encMem_of (fun _ => rfl) (fun _ => rfl) (fun _ => rfl), fun rr st => ?_,
    fun rr st => ?_, fun m st => ?_⟩
  · exact ⟨_, _, rfl, isSum_target8 rr st, calls_call _ st⟩
  · exact ⟨_, _, rfl, isSum_target16 rr st, calls_call _ st⟩
  · exact ⟨_, rfl, sameButReads_ea m st, (calls_call _ _).of_ea⟩

/-! ### Return -/

/-- PULS PC (41_load_store_transfer.md R192) is the pull of RTS. -/
theorem pullList_pc (sp : StackReg) (other : Reg16) (st : State) : pullList sp other 0x80#8 st = pullReg16 sp .pc st := rfl

/-- A word pulled from S: the two bytes read upward from it. -/
theorem pullReg16_pc_eq (st : State) :
    pullReg16 .s .pc st = { readAll st.regs.s 2 st with
      regs := { st.regs with pc := wordOf (readByte st st.regs.s) 0, s := st.regs.s + 2#16 } } := by
  obtain ⟨hread, hregs⟩ := (Reading.start .s st).pullReg16 .pc (by decide) (by decide)
  rw [hread.state, hregs]
  rfl

/-- The first two bytes read upward are a word read. -/
theorem wordOf_readByte_zero (st : State) (a : Word) :
    wordOf (readByte st a) 0 = join (peek st a) (peek (readEffect a st) (a + 1#16)) := by
  rw [wordOf, readByte_zero, readByte, readAll, readAll, BitVec.add_zero]

/-- Settles O45: JMP takes its address as PC, RTS pulls the two bytes at S, NOP is the state itself. -/
theorem jumpReturnNop : Obligations.JumpReturnNop := by
  refine ⟨encMem_of (fun _ => rfl) (fun _ => rfl) (fun _ => rfl), fun _ => rfl, fun _ => rfl,
    fun m st => ⟨rfl, sameButReads_ea m st⟩, fun st => ⟨_, rfl, ?_, pullReg16_pc_eq st, ?_, ?_, fun hio => ?_⟩, fun _ => rfl⟩
  · exact congrArg Host.Outcome.next (pullList_pc .s .u st)
  · exact PullsOnly.pullReg16 .s .pc st
  · rw [pullReg16_pc_eq, wordOf_readByte_zero]
  · have hfirst : isIo st.regs.s = false := by simpa using hio 0 (by decide)
    rw [pullReg16_pc_eq, readAll_of_noIo hio, wordOf_readByte_zero, readEffect_of_not_io hfirst, wordAt]

end Sys2Proof.Machine
end

section
/-! The statements of spec/45_system.md: ANDCC and ORCC are bit operations on CC, a software interrupt is an exception that stacks
the entire frame, RTI reads a frame upward from S, and SYNC and CWAI start a wait, which a CPU step leaves as it is until it
ends. -/

namespace Sys2Proof.Machine

/-! ### ANDCC and ORCC -/

theorem getFlag_and (a b : Byte) (fl : Flag) : getFlag (a &&& b) fl = (getFlag a fl && getFlag b fl) := BitVec.getLsbD_and

theorem getFlag_or (a b : Byte) (fl : Flag) : getFlag (a ||| b) fl = (getFlag a fl || getFlag b fl) := BitVec.getLsbD_or

/-- Settles O18: the two bit operations, flag by flag. -/
theorem conditionCodeInstructions : Obligations.ConditionCodeInstructions :=
  ⟨fun _ _ => rfl, fun _ _ => rfl, fun ii st => ⟨_, rfl, getFlag_and st.regs.cc ii⟩,
    fun ii st => ⟨_, rfl, getFlag_or st.regs.cc ii⟩⟩

/-! ### Software interrupts -/

/-- The shape of SWI, SWI2 and SWI3. -/
theorem traps_of_takeException {i : Instr} (maskF maskI : Bool) {v : Word} {o : Nat} (h1 : 0x8000 + o = v.toNat)
    (h2 : v.toNat < 0xFFFF) (he : ∀ st, exec i st = .next (takeException .entire maskF maskI v st)) :
    Traps i (maskUpdate maskF) (maskUpdate maskI) o := fun st =>
  ⟨_, he st, entered_entire maskF maskI h1 h2 st, (closedCounters st.counters).takeException .entire maskF maskI v rfl,
    takeException_entire_latches maskF maskI h1 h2⟩

/-- Settles O15: each takes an exception with the entire frame, its own masks and its own vector. -/
theorem softwareInterrupts : Obligations.SoftwareInterrupts :=
  ⟨fun _ => rfl, fun _ => rfl, fun _ => rfl,
    traps_of_takeException true true (v := 0xFFFA#16) (by decide) (by decide) fun _ => rfl,
    traps_of_takeException false false (v := 0xFFF4#16) (by decide) (by decide) fun _ => rfl,
    traps_of_takeException false false (v := 0xFFF2#16) (by decide) (by decide) fun _ => rfl⟩

/-! ### Return from interrupt -/

/-- RTI's registers are made of the twelve bytes of an entire frame. -/
theorem entireRegs_congr {byte byte' : Nat → Byte} (h : ∀ k, k < 12 → byte k = byte' k) (r : Regs) :
    entireRegs byte r = entireRegs byte' r := by
  simp [entireRegs, wordOf, h]

/-- RTI's registers are made of the three bytes of a fast frame. -/
theorem fastRegs_congr {byte byte' : Nat → Byte} (h : ∀ k, k < 3 → byte k = byte' k) (r : Regs) :
    fastRegs byte r = fastRegs byte' r := by
  simp [fastRegs, wordOf, h]

/-- `n` bytes read upward from S, and registers made of them by `toRegs`: nothing else changes but by the side effects of the
reads, of which there are none outside the I/O window. -/
theorem Reading.returns {n : Nat} {toRegs : (Nat → Byte) → Regs → Regs}
    (hcongr : ∀ {byte byte' : Nat → Byte}, (∀ k, k < n → byte k = byte' k) → ∀ r, toRegs byte r = toRegs byte' r)
    {st t : State} (h : Reading .s n st t) (hregs : t.regs = toRegs (readByte st st.regs.s) st.regs) :
    t = { readAll st.regs.s n st with regs := toRegs (readByte st st.regs.s) st.regs } ∧
      SameButReads { st with regs := t.regs } t ∧
      (NoIo st.regs.s n →
        t = { st with regs := toRegs (fun k => peek st (st.regs.s + BitVec.ofNat 16 k)) st.regs }) := by
  have hstate : t = { readAll st.regs.s n st with regs := t.regs } := h.state
  have hreads : SameButReads { st with regs := t.regs } { readAll st.regs.s n st with regs := t.regs } :=
    (sameButReads_readAll _ n st).with_regs _
  refine ⟨hregs ▸ hstate, hstate ▸ hreads, fun hio => ?_⟩
  rw [← hcongr (fun k hk => readByte_of_noIo hio hk st), ← hregs]
  exact hstate.trans (by rw [readAll_of_noIo hio])

/-- Settles O16: the byte at S decides how many bytes are read upward from it. -/
theorem returnFromInterrupt : Obligations.ReturnFromInterrupt := by
  refine ⟨fun _ => rfl, fun st => ⟨fun he => ?_, fun he => ?_⟩⟩
  · obtain ⟨hread, hregs⟩ := reading_entire he
    exact ⟨_, rfl, hread.returns entireRegs_congr hregs⟩
  · obtain ⟨hread, hregs⟩ := reading_fast he
    exact ⟨_, rfl, hread.returns fastRegs_congr hregs⟩

/-! ### A step on an instruction -/

/-- A fetch at PC of an instruction's bytes answers it, with PC past them. -/
theorem fetchInstr_of_code {st : State} {bs : List Byte} {i : Instr} (hd : decode bs = .ok i [])
    (hc : st.CodeAt st.regs.pc bs) :
    fetchInstr st = .ok i (setReg16 .pc (st.regs.pc + BitVec.ofNat 16 bs.length) st) := by
  obtain ⟨used, hbs, hpos, hlen, -, -, hmore⟩ := decodeReadsOneInstruction.1 bs [] i hd
  rw [List.append_nil] at hbs
  subst hbs
  rw [fetchInstr_code hc hlen (List.length_pos_iff.1 hpos) (by rw [hd]; nofun) hmore, hd]
  rfl

/-- SYNC or CWAI run by `runInstr` ends in a waiting step (60_exceptions.md R394). -/
theorem runInstr_of_startsWait {n : Nat} {st t : State} {bs : List Byte} {i : Instr} (hd : decode bs = .ok i [])
    (hc : st.CodeAt st.regs.pc bs) (hw : startsWait i = true)
    (he : exec i (setReg16 .pc (st.regs.pc + BitVec.ofNat 16 bs.length) st) = .next t) :
    runInstr n st = .wait (countTicks (n + Params.cycles i) t) (n + Params.cycles i) := by
  simp only [runInstr, fetchInstr_of_code hd hc, he, hw, if_true]

/-! ### Waiting -/

/-- A waiting step takes its tick and changes nothing else. -/
theorem cpuStep_of_staysWaiting {st : State} (hf : st.fault = none) (hw : staysWaiting st = true) :
    cpuStep st = .wait (countTicks Params.waitTicks st) Params.waitTicks := by
  simp [cpuStep, hf, hw]

/-- Where no class is selected and the CPU does not stay waiting, the step runs the instruction at PC. -/
theorem cpuStep_of_unselected {st : State} (hf : st.fault = none) (hw : staysWaiting st = false) (hs : select st = none) :
    cpuStep st = runInstr 0 (wake st) := by
  simp [cpuStep, hf, hw, hs]

theorem staysWaiting_of_sync {st : State} (h : st.latches.wait = .sync) : staysWaiting st = !anyPending st := by
  simp only [staysWaiting, h]

theorem staysWaiting_of_cwai {st : State} (h : st.latches.wait = .cwai) : staysWaiting st = (select st).isNone := by
  simp only [staysWaiting, h]

theorem wake_of_sync {st : State} (h : st.latches.wait = .sync) : wake st = { st with latches.wait := .none } := by
  simp only [wake, h]

/-- SYNC's wait ends with a latch: the step goes on as without a wait. -/
theorem cpuStep_of_sync_pending {st : State} (hf : st.fault = none) (hw : st.latches.wait = .sync)
    (hp : anyPending st = true) : cpuStep st = cpuStep { st with latches.wait := .none } := by
  have hstays : staysWaiting st = false := by rw [staysWaiting_of_sync hw, hp]; rfl
  cases hs : select st with
  | none =>
    rw [cpuStep_of_unselected hf hstays hs, wake_of_sync hw]
    exact (cpuStep_of_unselected (st := { st with latches.wait := .none }) hf rfl hs).symm
  | some c =>
    rw [cpuStep_of_selected hf hs, wake_of_sync hw]
    exact (cpuStep_of_selected (st := { st with latches.wait := .none }) hf hs).symm

/-! ### CWAI -/

/-- CC as CWAI stacks it (R335). -/
def cwaiCc (ii cc : Byte) : Byte := setFlag .e true (cc &&& ii)

theorem getFlag_cwaiCc (ii cc : Byte) (fl : Flag) :
    getFlag (cwaiCc ii cc) fl = (decide (fl = .e) || (getFlag cc fl && getFlag ii fl)) := by
  rw [cwaiCc, getFlag_setFlag, getFlag_and]
  by_cases h : fl = .e <;> simp [h]

theorem stackFrame_cwai (ii : Byte) (st : State) :
    stackFrame .entire (setCc (getReg8 .cc st &&& ii) st) = pushEntire (setReg8 .cc (cwaiCc ii st.regs.cc) st) :=
  congrArg pushEntire rfl

/-- CWAI is the entire frame pushed with the new CC, and the wait. -/
theorem exec_cwai (ii : Byte) (st : State) :
    exec (.cwai ii) st = .next { pushEntire (setReg8 .cc (cwaiCc ii st.regs.cc) st) with latches.wait := .cwai } := by
  rw [← stackFrame_cwai]
  rfl

/-- Bytes pushed on S after CC was written, told from the state before that. -/
theorem Pushed.since_setCc {bs : List Byte} {cc : Byte} {st t : State} (h : Pushed .s bs (setReg8 .cc cc st) t) :
    let p := st.regs.s - BitVec.ofNat 16 bs.length
    t.regs = { st.regs with cc := cc, s := p } ∧ t.counters = st.counters ∧ t.fault = st.fault ∧
      t = { storeImage p bs st with regs := t.regs } ∧ StoreFrame p bs.length st t ∧
      (st.board.ram.wf = true → bs.length ≤ 0x10000 → st.PlainBytes p bs.length → Stored p bs st t) := by
  refine ⟨h.regs, h.counters, h.fault, h.image.trans ?_, .of_reads (setReg8_board .cc cc st) (.refl _) h.frame,
    fun hw hlen hplain => ?_⟩
  · exact congrArg (fun s : State => { s with regs := t.regs }) (storeImage_with_regs _ bs { st.regs with cc := cc } st)
  · obtain ⟨hbytes, hothers, hstate⟩ := h.stored hw hlen hplain
    exact ⟨hbytes, hothers, hstate⟩

/-- Settles O17: SYNC changes the wait state alone, CWAI also pushes the entire frame; a step stays waiting by `staysWaiting`. -/
theorem syncAndCwai : Obligations.SyncAndCwai := by
  refine ⟨fun _ => rfl, fun _ _ => rfl, fun _ => rfl, fun ii st => ?_, fun st t bs i hr hd hc hi he => ?_,
    fun st hf hw hp => ?_, fun st hf hw hp => cpuStep_of_sync_pending hf hw hp, fun st hf hw hs => ?_⟩
  · rw [exec_cwai]
    have hpushed := pushed_pushEntire (setReg8 .cc (cwaiCc ii st.regs.cc) st)
    generalize pushEntire (setReg8 .cc (cwaiCc ii st.regs.cc) st) = s at hpushed
    obtain ⟨hregs, hcounters, hfault, himage, hframe, hstored⟩ := hpushed.since_setCc
    refine ⟨_, _, rfl, getFlag_cwaiCc ii _, hregs, rfl, hcounters, hfault, ?_, hframe.of_board rfl, fun hw hplain => ?_⟩
    · exact congrArg (fun s : State => { s with latches.wait := .cwai }) himage
    · obtain ⟨hbytes, -, hstate⟩ := hstored hw (by decide : 12 ≤ 0x10000) hplain
      exact ⟨hbytes, congrArg State.board hstate,
        congrArg (fun s : State => { s.latches with wait := .cwai }) hstate⟩
  · have hw : startsWait i = true := by rcases hi with rfl | ⟨ii, rfl⟩ <;> rfl
    rw [cpuStep_of_runnable hr, runInstr_of_startsWait hd hc hw he, Nat.zero_add]
  · exact cpuStep_of_staysWaiting hf (by rw [staysWaiting_of_sync hw, hp]; rfl)
  · exact cpuStep_of_staysWaiting hf (by rw [staysWaiting_of_cwai hw, hs]; rfl)

end Sys2Proof.Machine
end

section
/-! The statements of spec/60_exceptions.md about a CPU step: one that does not stay waiting is `runInstr` from `atInstruction`,
one that faults has fetched at most three bytes and done nothing else, and its counters show the class it serviced. -/

namespace Sys2Proof.Machine

/-! ### A step on a decoded instruction -/

/-- An instruction at PC is run, and the step waits exactly where it starts a wait (60_exceptions.md R394). -/
theorem runInstr_of_code {n : Nat} {st t : State} {bs : List Byte} {i : Instr} (hd : decode bs = .ok i [])
    (hc : st.CodeAt st.regs.pc bs)
    (he : exec i (setReg16 .pc (st.regs.pc + BitVec.ofNat 16 bs.length) st) = .next t) :
    runInstr n st =
      if startsWait i then .wait (countTicks (n + Params.cycles i) t) (n + Params.cycles i)
      else .next (countTicks (n + Params.cycles i) t) (n + Params.cycles i) := by
  simp only [runInstr, fetchInstr_of_code hd hc, he]

/-- What the decoder answers is well-formed. -/
theorem wf_of_decode {bs rest : List Byte} {i : Instr} (hd : decode bs = .ok i rest) : i.wf = true :=
  have ⟨_, _, _, hwf, _, _⟩ := reads_decode.ok bs rest i hd
  hwf

/-- Settles O7: a waiting step is a next state of the board like any other. -/
theorem stepRunsDecodedInstruction : Obligations.StepRunsDecodedInstruction := by
  intro st bs i hr hd hc
  obtain ⟨t, he⟩ := exec_of_wf (wf_of_decode hd) (setReg16 .pc (st.regs.pc + BitVec.ofNat 16 bs.length) st)
  refine ⟨t, he, ?_⟩
  rw [step, boardStep, cpuStep_of_runnable hr, runInstr_of_code hd hc he, Nat.zero_add]
  cases startsWait i <;> rfl

/-! ### A step that does not stay waiting -/

/-- The ticks of the entry a step makes, none where no class is selected. -/
def entryTicks (st : State) : Nat :=
  match select st with
  | none => 0
  | some c => Params.intEntryTicks c

theorem cpuStep_of_fault {st : State} {f : Fault} (h : st.fault = some f) : cpuStep st = .fault f st := by
  simp only [cpuStep, h]

/-- After the wake-up and any entry the step runs one instruction. -/
theorem cpuStep_of_awake {st : State} (hf : st.fault = none) (hw : staysWaiting st = false) :
    cpuStep st = runInstr (entryTicks st) (atInstruction st) := by
  cases hs : select st with
  | none => simp only [cpuStep_of_unselected hf hw hs, entryTicks, atInstruction, hs]
  | some c => simp only [cpuStep_of_selected hf hs, entryTicks, atInstruction, hs]

/-- A fault in a live session is one of the instruction the step runs. -/
theorem runInstr_of_cpuStep_fault {st t : State} {f : Fault} (hf : st.fault = none) (h : cpuStep st = .fault f t) :
    runInstr (entryTicks st) (atInstruction st) = .fault f t := by
  cases hw : staysWaiting st with
  | true => rw [cpuStep_of_staysWaiting hf hw] at h; cases h
  | false => rwa [cpuStep_of_awake hf hw] at h

/-- A selected class has its latch set. -/
theorem anyPending_of_select {st : State} {c : IntClass} (h : select st = some c) : anyPending st = true := by
  unfold select at h
  unfold anyPending
  split at h
  · next hn => simp [hn]
  · split at h
    · next hf => simp [(Bool.and_eq_true_iff.1 hf).2]
    · split at h
      · next hi => simp [(Bool.and_eq_true_iff.1 hi).2]
      · cases h

/-- A CPU that stays waiting has no class to service. -/
theorem select_of_staysWaiting {st : State} (h : staysWaiting st = true) : select st = none := by
  cases hw : st.latches.wait with
  | none => simp [staysWaiting, hw] at h
  | sync =>
    rw [staysWaiting_of_sync hw] at h
    cases hs : select st with
    | none => rfl
    | some c => rw [anyPending_of_select hs] at h; cases h
  | cwai =>
    rw [staysWaiting_of_cwai hw] at h
    exact Option.isNone_iff_eq_none.1 h

/-! ### Faults stay -/

theorem cpuStep_fault_recorded {st t : State} {f : Fault} (h : cpuStep st = .fault f t) : t.fault = some f := by
  cases hf : st.fault with
  | none => exact runInstr_fault (runInstr_of_cpuStep_fault hf h)
  | some g =>
    rw [cpuStep_of_fault hf] at h
    cases h
    exact hf

theorem drive_of_fault {st : State} {f : Fault} (h : st.fault = some f) (after : Nat → State → State) (budget : Nat) :
    drive after budget st = .fault f st := by
  simp only [drive, h]

@[simp] theorem setSwitch_fault (id : Nat) (closed : Bool) (st : State) : (setSwitch id closed st).fault = st.fault := by
  unfold setSwitch
  split <;> rfl

@[simp] theorem toggleSwitch_fault (id : Nat) (st : State) : (toggleSwitch id st).fault = st.fault := by
  unfold toggleSwitch
  split <;> rfl

/-- No host call touches the fault state, `reset()` included. -/
@[simp] theorem hostInput_fault (input : HostInput) (st : State) : (hostInput input st).fault = st.fault := by
  cases input with
  | setSwitch id closed => exact setSwitch_fault id closed st
  | setInput id => exact toggleSwitch_fault id st
  | _ => rfl

/-- Settles O9: every call looks at the recorded fault first, and no host call touches it. -/
theorem faultIsSticky : Obligations.FaultIsSticky := by
  refine ⟨fun _ _ _ => cpuStep_fault_recorded, fun st f h => ⟨cpuStep_of_fault h, ?_, fun budget => ?_, fun input => ?_⟩⟩
  · rw [step, boardStep, cpuStep_of_fault h]
  · exact ⟨drive_of_fault h _ budget, drive_of_fault h _ budget⟩
  · rw [hostInput_fault, h]

/-! ### Where the decoder rejects -/

/-- The decoder's answer is one of the three fatal encodings. -/
def IsRejected (d : Decoded) : Prop :=
  match d with
  | .ok _ _ => False
  | .more => False
  | .undefinedOpcode => True
  | .illegalPostbyte _ => True
  | .illegalRegisterCode _ => True

/-- A reader that rejects on its first `n` bytes or not at all. -/
def RejectsWithin (f : List Byte → Decoded) (n : Nat) : Prop :=
  ∀ bs : List Byte, IsRejected (f bs) → ∀ m, n ≤ m → IsRejected (f (bs.take m))

namespace RejectsWithin

theorem mono {f : List Byte → Decoded} {m n : Nat} (h : RejectsWithin f m) (hmn : m ≤ n) : RejectsWithin f n :=
  fun bs hb k hk => h bs hb k (Nat.le_trans hmn hk)

theorem never {f : List Byte → Decoded} (h : ∀ bs, ¬ IsRejected (f bs)) : RejectsWithin f 0 :=
  fun bs hb => absurd hb (h bs)

theorem always {f : List Byte → Decoded} (h : ∀ bs, IsRejected (f bs)) : RejectsWithin f 0 := fun _ _ _ _ => h _

/-- One byte, then a reader that may depend on it. -/
theorem cons {f : List Byte → Decoded} {n : Nat} (h0 : f [] = .more)
    (h : ∀ b, RejectsWithin (fun bs => f (b :: bs)) n) : RejectsWithin f (n + 1) := by
  intro bs hb m hm
  cases bs with
  | nil => rw [h0] at hb; exact hb.elim
  | cons b rest =>
    obtain ⟨k, rfl⟩ : ∃ k, m = k + 1 := ⟨m - 1, by omega⟩
    exact h b rest hb k (by omega)

theorem take8 (k : Byte → Instr) : RejectsWithin (Sys2Proof.take8 · k) 0 :=
  never fun bs => by cases bs <;> exact id

theorem take16 (k : Word → Instr) : RejectsWithin (Sys2Proof.take16 · k) 0 :=
  never fun bs => by rcases bs with _ | ⟨_, _ | _⟩ <;> exact id

/-- The postbyte alone decides (30_encoding.md R129). -/
theorem takeIndexed (k : Indexed → Instr) : RejectsWithin (Sys2Proof.takeIndexed · k) 1 := by
  refine cons rfl fun pb => ?_
  simp only [Sys2Proof.takeIndexed]
  split
  · exact always fun _ => trivial
  · exact never fun _ => id
  · exact take8 _
  · exact take16 _

/-- The pair byte decides. -/
theorem takePair (k : TfrReg → TfrReg → Instr) : RejectsWithin (Sys2Proof.takePair · k) 1 := by
  refine cons rfl fun pb => ?_
  by_cases hi : IllegalPair pb
  · refine always fun bs => ?_
    rw [(takePair_illegal_iff pb bs k).2 hi]
    trivial
  · refine never fun bs => ?_
    obtain ⟨h, -⟩ | ⟨-, r1, r2, -, h⟩ := takePair_cases pb bs k
    · exact absurd h hi
    · rw [h]
      exact id

theorem operands (o : Option Template) : RejectsWithin (Sys2Proof.operands o) 1 := by
  rcases o with _ | t
  · exact mono (m := 0) (always fun _ => trivial) (by decide)
  cases t with
  | inh i => exact mono (m := 0) (never fun _ => id) (by decide)
  | imm8 k | dir k | rel8 k | list k => exact (take8 _).mono (by decide)
  | imm16 k | rel16 k => exact (take16 k).mono (by decide)
  | ext k => exact (take16 fun a => k (.ext a)).mono (by decide)
  | idx k | lea k => exact takeIndexed _
  | pair k => exact takePair k

theorem decodePage (page : List (Nat × Template)) : RejectsWithin (Machine.decodePage page) 2 :=
  cons rfl fun _ => operands _

/-- A page byte, an opcode and a postbyte: the fault points of R351 lie in the first three bytes. -/
theorem decode : RejectsWithin Sys2Proof.decode 3 := by
  refine cons rfl fun b => ?_
  by_cases h2 : b = 0x10#8
  · simpa only [h2, decode_page2] using decodePage page2
  by_cases h3 : b = 0x11#8
  · simpa only [h3, decode_page3] using decodePage page3
  simpa only [decode_page1 h2 h3] using (operands _).mono (n := 2) (by decide)

end RejectsWithin

/-- The byte the decoder rejects at is one of the first three. -/
theorem Unfinished.length_lt_of_rejected {bs : List Byte} {b : Byte} (h : Unfinished bs)
    (hb : IsRejected (decode (bs ++ [b]))) : bs.length < 3 := by
  refine Nat.lt_of_not_le fun hlen => ?_
  have hr := RejectsWithin.decode _ hb bs.length hlen
  rw [List.take_left, ← List.take_length (l := bs), h _ (Nat.le_refl _)] at hr
  exact hr

/-! ### A fetch that faults -/

/-- `st` after a fetch has read `n` bytes: their read effects, and PC past them. -/
def afterFetch (n : Nat) (st : State) : State :=
  setReg16 .pc (st.regs.pc + BitVec.ofNat 16 n) (readAll st.regs.pc n st)

theorem readAll_setReg16 (a : Word) (n : Nat) (r : Reg16) (v : Word) (st : State) :
    readAll a n (setReg16 r v st) = setReg16 r v (readAll a n st) := by
  induction n with
  | zero => rfl
  | succ n ih => rw [readAll, ih, readEffect_setReg16, readAll]

theorem afterFetch_one (st : State) : afterFetch 1 st = (fetch8 st).2 := by
  rw [fetch8_eq, afterFetch, readAll, readAll, show BitVec.ofNat 16 0 = 0#16 from rfl, BitVec.add_zero]

/-- The first byte, then the others. -/
theorem afterFetch_fetch8 (n : Nat) (st : State) : afterFetch n (fetch8 st).2 = afterFetch (n + 1) st := by
  have hpc : st.regs.pc + 1#16 + BitVec.ofNat 16 n = st.regs.pc + BitVec.ofNat 16 (n + 1) := by
    rw [BitVec.add_assoc, Nat.add_comm n 1, BitVec.ofNat_add]
  simp only [fetch8_eq, afterFetch, setReg16_pc_regs, hpc, readAll_setReg16, readAll_succ_left]
  rfl

theorem sameButReads_afterFetch (n : Nat) (st : State) :
    SameButReads { st with regs.pc := st.regs.pc + BitVec.ofNat 16 n } (afterFetch n st) :=
  (sameButReads_readAll st.regs.pc n st).setReg16 .pc _

/-- A fetch that faults after the bytes `bs` reads from one byte up to the third of the instruction, and does nothing else. -/
theorem fetchFrom_bad {address : Word} {fuel : Nat} {bs : List Byte} {st t : State} {f : Fault} (hu : Unfinished bs)
    (hfuel : bs.length + fuel = 5) (h : fetchFrom address fuel bs st = .bad f t) :
    ∃ n, 1 ≤ n ∧ bs.length + n ≤ 3 ∧ t = afterFetch n st := by
  induction fuel generalizing bs st with
  | zero =>
    have hmore := hu bs.length (Nat.le_refl _)
    rw [List.take_length] at hmore
    exact absurd hmore (reads_decode.enough bs (by omega))
  | succ fuel ih =>
    have hrejected (hr : IsRejected (decode (bs ++ [(fetch8 st).1]))) (ht : (fetch8 st).2 = t) :
        ∃ n, 1 ≤ n ∧ bs.length + n ≤ 3 ∧ t = afterFetch n st :=
      ⟨1, Nat.le_refl 1, hu.length_lt_of_rejected hr, by rw [afterFetch_one, ht]⟩
    simp only [fetchFrom] at h
    split at h
    · cases h
    · next hd => exact hrejected (by rw [hd]; trivial) (Fetched.bad.inj h).2
    · next hd => exact hrejected (by rw [hd]; trivial) (Fetched.bad.inj h).2
    · next hd => exact hrejected (by rw [hd]; trivial) (Fetched.bad.inj h).2
    · next hd =>
      have hlen : (bs ++ [(fetch8 st).1]).length = bs.length + 1 := List.length_append
      obtain ⟨n, h1, h3, ht⟩ := ih (hu.snoc hd) (by omega) h
      exact ⟨n + 1, by omega, by omega, by rw [ht, afterFetch_fetch8]⟩

/-- A fetch answers well-formed instructions. -/
theorem fetchFrom_ok_wf {address : Word} {fuel : Nat} {bs : List Byte} {st t : State} {i : Instr}
    (h : fetchFrom address fuel bs st = .ok i t) : i.wf = true := by
  induction fuel generalizing bs st with
  | zero => cases h
  | succ fuel ih =>
    simp only [fetchFrom] at h
    split at h
    · next hd =>
      cases h
      exact wf_of_decode hd
    · cases h
    · cases h
    · cases h
    · exact ih h

/-- An instruction that was fetched does not fault, so a fault is the fetch's (R351). -/
theorem runInstr_fault_cases {k : Nat} {st t : State} {f : Fault} (h : runInstr k st = .fault f t) :
    ∃ n, 1 ≤ n ∧ n ≤ 3 ∧ t = setFault f (afterFetch n st) := by
  unfold runInstr at h
  split at h
  · next s hs =>
    cases h
    obtain ⟨n, h1, h3, rfl⟩ := fetchFrom_bad unfinished_nil rfl hs
    exact ⟨n, h1, by simpa using h3, rfl⟩
  · next i s hs =>
    split at h
    · next he => exact absurd he (exec_ne_fault (fetchFrom_ok_wf hs))
    · cases h
    · dsimp only at h
      split at h <;> cases h

/-! ### The counters of a step -/

/-- The counters with one more service of a class. -/
def Counters.served (c : IntClass) (k : Counters) : Counters :=
  match c with
  | .nmi => { k with nmiCount := k.nmiCount + 1 }
  | .firq => { k with firqCount := k.firqCount + 1 }
  | .irq => { k with irqCount := k.irqCount + 1 }

theorem enter_counters_eq (c : IntClass) (st : State) : (enter c st).counters = st.counters.served c := by
  obtain ⟨hirq, hfirq, hnmi⟩ := enter_counters st
  cases c with
  | nmi => exact hnmi
  | firq => exact hfirq
  | irq => exact hirq

/-- What the instruction of a step finds in the counters: the selected class counted. -/
theorem atInstruction_counters (st : State) :
    (atInstruction st).counters = (select st).elim st.counters fun c => st.counters.served c := by
  obtain ⟨hwake, -⟩ := wake_keeps st
  unfold atInstruction
  cases select st with
  | none => exact hwake
  | some c => exact (enter_counters_eq c _).trans (by rw [hwake]; rfl)

theorem atInstruction_tickCount (st : State) : (atInstruction st).counters.tickCount = st.counters.tickCount := by
  rw [atInstruction_counters]
  cases select st with
  | none => rfl
  | some c => cases c <;> rfl

/-- Settles O10: the fault is the fetch's, from the state the instruction of the step starts in. -/
theorem faultingStepPartialEffects : Obligations.FaultingStepPartialEffects := by
  intro st t f hf h
  obtain ⟨n, h1, h3, ht⟩ := runInstr_fault_cases (runInstr_of_cpuStep_fault hf h)
  have hreads := sameButReads_afterFetch n (atInstruction st)
  have hsame : SameButReads { atInstruction st with
      regs.pc := (atInstruction st).regs.pc + BitVec.ofNat 16 n
      fault := some f } t := by
    rw [ht]
    exact congrArg (setFault f) hreads
  refine ⟨n, h1, h3, ?_, hsame, ?_⟩
  · rw [ht, setFault, afterFetch, setReg16_eq, setReg16_pc_regs, (sameButReads_readAll _ n _).regs]
  · rw [hsame.counters]
    exact atInstruction_tickCount st

/-- Running an instruction counts ticks and nothing else. -/
theorem runInstr_leaves_counters {n : Nat} {st t : State} (h : (runInstr n st).Leaves t) :
    t.counters = { st.counters with tickCount := t.counters.tickCount } := by
  unfold runInstr at h
  split at h
  · next s hs =>
    obtain ⟨_, h⟩ | ⟨_, h⟩ | ⟨_, h⟩ := h <;> cases h
    rw [setFault, fetchFrom_bad_counters hs]
  · next i s hs =>
    split at h
    · next he => exact absurd he (exec_ne_fault (fetchFrom_ok_wf hs))
    · obtain ⟨_, h⟩ | ⟨_, h⟩ | ⟨_, h⟩ := h <;> cases h
    · next u he =>
      have hu : u.counters = st.counters :=
        (closedCounters s.counters).exec rfl he |>.trans (fetchFrom_ok_counters hs)
      have ht : t = countTicks (n + Params.cycles i) u := by
        dsimp only at h
        split at h
        · obtain ⟨_, h⟩ | ⟨_, h⟩ | ⟨_, h⟩ := h <;> cases h
          rfl
        · obtain ⟨_, h⟩ | ⟨_, h⟩ | ⟨_, h⟩ := h <;> cases h
          rfl
      rw [ht, countTicks, hu]

/-! ### Selection -/

/-- The three conditions of R361: a class is selected where its latch is set and unmasked, and none before it is. -/
theorem select_iffs (st : State) :
    (select st = some .nmi ↔ st.latches.nmiPending = true) ∧
    (select st = some .firq ↔
      st.latches.nmiPending = false ∧ st.latches.firqPending = true ∧ getFlag st.regs.cc .f = false) ∧
    (select st = some .irq ↔
      st.latches.nmiPending = false ∧ ¬ (st.latches.firqPending = true ∧ getFlag st.regs.cc .f = false) ∧
        st.latches.irqPending = true ∧ getFlag st.regs.cc .i = false) := by
  have hunmasked (latch mask : Bool) : (!mask && latch) = decide (latch = true ∧ mask = false) := by
    cases mask <;> simp
  simp only [select, getReg8_cc, hunmasked, decide_eq_true_eq]
  by_cases hn : st.latches.nmiPending = true
  · simp [hn]
  by_cases hf : st.latches.firqPending = true ∧ getFlag st.regs.cc .f = false
  · simp [hn, hf]
  by_cases hi : st.latches.irqPending = true ∧ getFlag st.regs.cc .i = false
  · simp [hn, hf, hi]
  · simp [hn, hf, hi]

/-- Leaving a step means leaving its waiting tick or its instruction. -/
theorem cpuStep_leaves_counters {st t : State} (hf : st.fault = none) (h : (cpuStep st).Leaves t) :
    t.counters = { (atInstruction st).counters with tickCount := t.counters.tickCount } := by
  cases hw : staysWaiting st with
  | false =>
    rw [cpuStep_of_awake hf hw] at h
    exact runInstr_leaves_counters h
  | true =>
    rw [cpuStep_of_staysWaiting hf hw] at h
    obtain ⟨_, h⟩ | ⟨_, h⟩ | ⟨_, h⟩ := h <;> cases h
    rw [atInstruction_counters, select_of_staysWaiting hw]
    rfl

/-- Settles O11: the conditions of `select`, and the counters the step's instruction finds, which only its ticks change. -/
theorem interruptSelection : Obligations.InterruptSelection := by
  refine ⟨select_iffs, fun st t hf h => ?_⟩
  rw [cpuStep_leaves_counters hf h, atInstruction_counters]
  rcases select st with _ | c
  · simp
  · cases c <;> simp [Counters.served]

end Sys2Proof.Machine
end

section
/-! The statements of spec/60_exceptions.md about interrupts, the host's calls, the timers and the driving loops: an entry is
taking an exception, the step that makes it runs the handler's first instruction, and a driving call is the relation
`Drives`, because every CPU step takes a tick. -/

namespace Sys2Proof.Machine

/-! ### Requests -/

@[simp] theorem requestIrqIf_false (st : State) : requestIrqIf false st = st := by
  simp [requestIrqIf]

/-- `irq()` sets its latch and counts a missed call while I is set (60_exceptions.md R360). -/
@[simp] theorem requestIrqIf_true (st : State) : requestIrqIf true st =
    { st with
      latches.irqPending := true
      counters.missedIrqCount := st.counters.missedIrqCount + (getFlag st.regs.cc .i).toNat } := by
  unfold requestIrqIf
  rw [getReg8_cc]
  cases getFlag st.regs.cc .i <;> simp

/-! ### The host's calls -/

theorem switchAt_id (c r : Fin 8) : switchAt (10 * (c.val + 1) + (r.val + 1)) = some (c, r) := by
  revert c r
  decide

theorem switchAt_eq_none {id : Nat} (h : ∀ c r : Fin 8, id ≠ 10 * (c.val + 1) + (r.val + 1)) : switchAt id = none := by
  refine dif_neg fun hid => h ⟨id / 10 - 1, by omega⟩ ⟨id % 10 - 1, by omega⟩ ?_
  dsimp only
  omega

/-- One cell of the switch matrix is set. -/
theorem getElem_putSwitch (sw : Vector (Vector Bool 8) 8) (c r c' r' : Fin 8) (closed : Bool) :
    (putSwitch sw c r closed)[c'][r'] = if c' = c ∧ r' = r then closed else sw[c'][r'] := by
  simp only [putSwitch, Fin.getElem_fin, Vector.getElem_set, Fin.ext_iff, eq_comm (a := c'.val), eq_comm (a := r'.val)]
  by_cases hc : c.val = c'.val
  · simp [hc, Vector.getElem_set]
  · simp [hc]

/-- Settles O12: each call by its own definition; a switch id is a column and a row or nothing. -/
theorem hostInputs : Obligations.HostInputs := by
  refine ⟨requestIrqIf_true, fun _ => rfl, fun _ => rfl, fun _ _ => rfl, fun _ _ => rfl, fun st c r closed => ?_,
    fun st c r => ?_, fun st id closed h => ?_, fun st => ⟨rfl, rfl, ?_, rfl, rfl, rfl⟩⟩
  · refine ⟨putSwitch st.board.switches c r closed, ?_, fun c' r' => getElem_putSwitch _ c r c' r' closed⟩
    simp only [hostInput, setSwitch, switchAt_id]
  · simp only [hostInput, setSwitch, toggleSwitch, switchAt_id]
    rfl
  · simp only [hostInput, setSwitch, toggleSwitch, switchAt_eq_none h, and_self]
  · exact congrArg Prod.fst (memRead16_rom 0xFFFE#16 0x7FFE (by decide) (by decide) st)

/-! ### Entry -/

theorem entryFrame_of_cwai {st : State} (h : st.latches.wait = .cwai) (frame : Frame) : entryFrame st frame = .stacked := by
  simp only [entryFrame, h]

/-- An exception whose frame is stacked already sets masks and loads PC (60_exceptions.md R366). -/
theorem takeException_stacked {f i : Bool} {v : Word} {o : Nat} (h1 : 0x8000 + o = v.toNat) (h2 : v.toNat < 0xFFFF)
    {st : State} {cc : Byte} (hcc : FlagsBecome (entryUpdate none (maskUpdate f) (maskUpdate i)) st.regs.cc cc) :
    takeException .stacked f i v st = { st with regs.cc := cc, regs.pc := romWord st.board o } := by
  obtain ⟨cc', hcc', hm⟩ := setMasks_eq f i st
  obtain rfl := hcc'.unique hcc
  rw [takeException, stackFrame, hm, memRead16_rom v o h1 h2]
  rfl

/-- Settles O13: outside CWAI `Entered` and the counter of the class; after CWAI the exception without a frame. -/
theorem interruptEntry : Obligations.InterruptEntry := by
  refine ⟨fun st hw => ?_, fun st hw => ?_⟩
  · obtain ⟨hirq, hfirq, hnmi⟩ := enter_counters st
    refine ⟨⟨entered_enter_irq hw, hirq, rfl, fun hp => ?_⟩, ⟨entered_enter_firq hw, hfirq, rfl, fun hp => ?_⟩,
      ⟨entered_enter_nmi hw, hnmi, rfl, rfl, fun hp => ?_⟩⟩
    · simp only [enter, enterIrq, entryFrame_of_not_cwai hw,
        takeException_entire_latches false true (v := 0xFFF8#16) (o := 0x7FF8) (by decide) (by decide) hp]
      rfl
    · simp only [enter, enterFirq, entryFrame_of_not_cwai hw,
        takeException_fast_latches true true (v := 0xFFF6#16) (o := 0x7FF6) (by decide) (by decide) hp]
      rfl
    · simp only [enter, enterNmi, entryFrame_of_not_cwai hw,
        takeException_entire_latches true true (v := 0xFFFC#16) (o := 0x7FFC) (by decide) (by decide) hp]
  · have hI : FlagsBecome (entryUpdate none none (some true)) st.regs.cc (setFlag .i true st.regs.cc) := fun fl => by
      cases fl <;> simp [entryUpdate]
    have hF : FlagsBecome (entryUpdate none (some true) (some true)) st.regs.cc
        (setFlag .f true (setFlag .i true st.regs.cc)) := fun fl => by cases fl <;> simp [entryUpdate]
    refine ⟨_, _, hI, hF, ?_, ?_, ?_⟩
    · simp only [enter, enterIrq, entryFrame_of_cwai hw,
        takeException_stacked (f := false) (i := true) (v := 0xFFF8#16) (o := 0x7FF8) (by decide) (by decide) hI]
      rfl
    · simp only [enter, enterFirq, entryFrame_of_cwai hw,
        takeException_stacked (f := true) (i := true) (v := 0xFFF6#16) (o := 0x7FF6) (by decide) (by decide) hF]
      rfl
    · simp only [enter, enterNmi, entryFrame_of_cwai hw,
        takeException_stacked (f := true) (i := true) (v := 0xFFFC#16) (o := 0x7FFC) (by decide) (by decide) hF]

/-! ### Entry and instruction in one step -/

theorem startsWait_eq_false {i : Instr} (hs : i ≠ .sync) (hc : ∀ ii, i ≠ .cwai ii) : startsWait i = false := by
  unfold startsWait
  split
  · exact absurd rfl hs
  · exact absurd rfl (hc _)
  · rfl

theorem atInstruction_of_selected {st : State} {c : IntClass} (h : select st = some c) :
    atInstruction st = enter c (wake st) := by
  simp only [atInstruction, h]

/-- The entry of a class and an instruction that starts no wait, with the ticks of both (60_exceptions.md R368). -/
theorem cpuStep_of_service {st t : State} {c : IntClass} {bs : List Byte} {i : Instr} (hf : st.fault = none)
    (hs : select st = some c) (hd : decode bs = .ok i []) (hc : (atInstruction st).CodeAt (atInstruction st).regs.pc bs)
    (hi : startsWait i = false)
    (he : exec i (setReg16 .pc ((atInstruction st).regs.pc + BitVec.ofNat 16 bs.length) (atInstruction st)) = .next t) :
    cpuStep st = .next (countTicks (Params.intEntryTicks c + Params.cycles i) t)
      (Params.intEntryTicks c + Params.cycles i) := by
  rw [cpuStep_of_selected hf hs, ← atInstruction_of_selected hs, runInstr_of_code hd hc he, hi]
  rfl

/-- The flags an IRQ entry leaves of CC = 0x00, as the UI shows them. -/
theorem flagString_enter_irq {st : State} (hw : st.latches.wait ≠ .cwai) (hcc : st.regs.cc = 0x00#8) :
    flagString (enter .irq st).regs.cc = ['E', 'f', 'h', 'I', 'n', 'z', 'v', 'c'] := by
  obtain ⟨ccS, cc', hS, hI, hregs, -⟩ := (entered_enter_irq hw).registers
  have hflag (fl : Flag) : getFlag (enter .irq st).regs.cc fl = decide (fl = .e ∨ fl = .i) := by
    rw [hregs, hI fl, hS fl, hcc]
    cases fl <;> rfl
  simp only [flagString, hflag]
  rfl

/-- Settles O19: a selected class is entered and the instruction at its vector run; the IRQ entry sets E and I. -/
theorem serviceAndExecuteInOneStep : Obligations.ServiceAndExecuteInOneStep := by
  refine ⟨fun st t c bs i hf hs hd hc hsync hcwai he => ?_, fun st t n hf hw hcc hs hc h => ?_, fun st hcc hn => ?_⟩
  · exact cpuStep_of_service hf hs hd hc (startsWait_eq_false hsync hcwai) he
  · have hwake : wake st = st := by simp only [wake, hw]
    rw [cpuStep_of_service hf hs (rfl : decode [0x12#8] = .ok .nop []) hc rfl rfl] at h
    injection h with ht
    have hregs : t.regs.cc = (enter .irq st).regs.cc := by
      rw [← ht, atInstruction_of_selected hs, hwake]
      rfl
    rw [hregs]
    exact flagString_enter_irq (by simp [hw]) hcc
  · have hflag (fl : Flag) : getFlag (0xFF#8) fl = true := by cases fl <;> rfl
    simp [select, hcc, hn, hflag]

/-! ### Timers -/

/-- Settles O52: each accumulator below its threshold and at it. -/
theorem timers : Obligations.Timers := by
  refine ⟨Nat.succ_pos _, Nat.succ_pos _, fun n st => ⟨fun h => ?_, fun h => ?_, fun h => ?_, fun h hp => ?_,
    fun h hp => ?_⟩⟩
  · simp [asicExecuteCycle, Nat.not_le.2 h]
  · simp [asicExecuteCycle, h]
  · simp [periodicIrq, Nat.not_le.2 h]
  · simp [periodicIrq, h, hp]
  · simp [periodicIrq, h, hp]

/-! ### Driving loops -/

/-- The loop with enough fuel for the ticks still to be spent runs to its end: every pass spends a tick (60_exceptions.md
R393). -/
theorem drives_driveFrom (after : Nat → State → State) {budget fuel used : Nat} (h : budget ≤ used + fuel) (st : State) :
    Drives after budget used st (driveFrom after budget fuel used st) := by
  induction fuel generalizing used st with
  | zero => exact .done h
  | succ fuel ih =>
    unfold driveFrom
    split
    · next hlt =>
      obtain ⟨hrefused, hnext, hwait⟩ := cpuStep_progress (st := st)
      split
      · next t n ht =>
        have := hnext t n ht
        exact .next hlt ht (ih (by omega) _)
      · next t n ht =>
        have := hwait t n ht
        exact .wait hlt ht (ih (by omega) _)
      · next ht => exact .fault hlt ht
      · next ht => exact absurd ht (hrefused _)
    · next hge => exact .done (Nat.not_lt.1 hge)

theorem drive_of_live {st : State} (h : st.fault = none) (after : Nat → State → State) (budget : Nat) :
    drive after budget st = driveFrom after budget budget 0 st := by
  simp only [drive, h]

/-- A driving call in a live session. -/
theorem drives_drive {st : State} (h : st.fault = none) (after : Nat → State → State) (budget : Nat) :
    Drives after budget 0 st (drive after budget st) := by
  rw [drive_of_live h]
  exact drives_driveFrom after (by omega) st

/-- The loop ends without a fault only when the budget is spent. -/
theorem Drives.budget_le {after : Nat → State → State} {budget used : Nat} {st : State} {r : CycleResult}
    (h : Drives after budget used st r) {total : Nat} {t : State} (hr : r = .done total t) : budget ≤ total := by
  induction h with
  | done hle => cases hr; exact hle
  | next _ _ _ ih => exact ih hr
  | wait _ _ _ ih => exact ih hr
  | fault => cases hr

theorem budget_le_of_drive_done {after : Nat → State → State} {budget used : Nat} {st t : State}
    (h : drive after budget st = .done used t) : budget ≤ used := by
  cases hf : st.fault with
  | none => exact (drives_drive hf after budget).budget_le h
  | some f => rw [drive_of_fault hf] at h; cases h

/-- Settles O53: both calls are `drive`. -/
theorem executeCycle : Obligations.ExecuteCycle := by
  intro budget st
  refine ⟨fun hf => ⟨drives_drive hf _ budget, drives_drive hf _ budget, drive_of_live hf _ 0, drive_of_live hf _ 0⟩,
    fun f hf => ⟨drive_of_fault hf _ budget, drive_of_fault hf _ budget⟩, fun _ _ => budget_le_of_drive_done,
    fun _ _ => budget_le_of_drive_done⟩

end Sys2Proof.Machine
end

section
/-! The statements of spec/60_exceptions.md about the ASIC registers: a write to one is `asicWrite` at its address, which computes,
and what is left are the small functions of the registers. -/

namespace Sys2Proof.Machine

/-! ### Which registers read their backing byte -/

/-- The registers whose read returns the backing byte (60_exceptions.md R370). -/
def AsicReg.readsBacking (r : AsicReg) : Bool :=
  match r with
  | .solGen | .solHighPower | .solFlash1 | .solLowPower | .lampRow | .lampCol | .giTriac | .swCol | .leds | .ramLock
  | .ramLockSize | .unlisted => true
  | _ => false

theorem asicValue_of_readsBacking {a : Word} (h : (asicReg a).readsBacking = true) (bd : Board) :
    asicValue a bd = bd.ram.read a.toNat := by
  unfold asicValue
  generalize asicReg a = r at h
  cases r with
  | jumper | cabinet | swRow | shiftAddrH | shiftAddrL | shiftBit | shiftBit2 | firqClear | rtcHours | rtcMinutes | romBank
  | zeroCross => exact Bool.noConfusion h
  | _ => rfl

/-- Such a register gives back the byte written. -/
theorem peek_memWrite_backing {a : Word} (hio : isIo a = true) (h : (asicReg a).readsBacking = true) (v : Byte) {st : State}
    (hw : st.board.ram.wf = true) : peek (memWrite a v st) a = v :=
  peek_memWrite_io hio v st hw (asicValue_of_readsBacking h)

/-- The solenoid, lamp, GI and switch-column registers. -/
theorem readsBacking_outputs {a : Word} (hlow : 0x3FE0 ≤ a.toNat) (h : a.toNat ≤ 0x3FE6 ∨ a.toNat = 0x3FEA) :
    isIo a = true ∧ (asicReg a).readsBacking = true := by
  have hio : isIo a = true := (isIo_iff a).2 (by omega)
  have key : ∀ k : Fin 32, (BitVec.ofNat 16 (0x3FE0 + k.val)).toNat ≤ 0x3FE6 ∨
      (BitVec.ofNat 16 (0x3FE0 + k.val)).toNat = 0x3FEA →
      (asicReg (BitVec.ofNat 16 (0x3FE0 + k.val))).readsBacking = true := by decide
  obtain ⟨k, rfl⟩ := isIo_offset hio
  exact ⟨hio, key k h⟩

/-- The unlisted addresses (60_exceptions.md R389). -/
theorem asicReg_unlisted {a : Word} (h : (0x3FEB ≤ a.toNat ∧ a.toNat ≤ 0x3FF1) ∨ a.toNat = 0x3FF3 ∨ a.toNat = 0x3FF9) :
    isIo a = true ∧ asicReg a = .unlisted := by
  have hio : isIo a = true := (isIo_iff a).2 (by omega)
  have key : ∀ k : Fin 32,
      (0x3FEB ≤ (BitVec.ofNat 16 (0x3FE0 + k.val)).toNat ∧ (BitVec.ofNat 16 (0x3FE0 + k.val)).toNat ≤ 0x3FF1) ∨
        (BitVec.ofNat 16 (0x3FE0 + k.val)).toNat = 0x3FF3 ∨ (BitVec.ofNat 16 (0x3FE0 + k.val)).toNat = 0x3FF9 →
      asicReg (BitVec.ofNat 16 (0x3FE0 + k.val)) = .unlisted := by decide
  obtain ⟨k, rfl⟩ := isIo_offset hio
  exact ⟨hio, key k h⟩

/-! ### Outputs -/

/-- A write to a solenoid register stores the byte and sets its bank (60_exceptions.md R371). -/
theorem memWrite_solenoid (k : Fin 4) (v : Byte) (st : State) :
    memWrite (0x3FE0#16 + BitVec.ofNat 16 k.val) v st =
      { st with
        board.ram := st.board.ram.write (0x3FE0 + k.val) v
        board.sol := st.board.sol.set k.val v } := by
  match k with
  | 0 => exact memWrite_of_io (by decide) v st
  | 1 => exact memWrite_of_io (by decide) v st
  | 2 => exact memWrite_of_io (by decide) v st
  | 3 => exact memWrite_of_io (by decide) v st

/-- A strobe commits the row to the cells of the selected columns (R373). -/
theorem getElem_commitLamps (lamps : Vector Byte 64) (row v : Byte) {c r : Fin 8} {k : Fin 64}
    (hk : k.val = 8 * c.val + r.val) :
    (commitLamps lamps row v)[k] =
      if v.getLsbD c.val then (if row.getLsbD r.val then Params.lampLit else 0x00#8) else lamps[k] := by
  have hc : k.val / 8 = c.val := by omega
  have hr : k.val % 8 = r.val := by omega
  simp only [commitLamps, Fin.getElem_fin, Vector.getElem_ofFn, hc, hr]

/-- Settles O48: each register's write by computation, and the read of its backing byte. -/
theorem asicOutputs : Obligations.AsicOutputs := by
  refine fun st v => ⟨fun k => ⟨_, memWrite_solenoid k v st, fun j => ?_⟩, memWrite_of_io (by decide) v st,
    ⟨_, memWrite_of_io (by decide) v st, fun c r k => getElem_commitLamps _ _ v⟩, lampLit_ne_zero,
    memWrite_of_io (by decide) v st, memWrite_of_io (by decide) v st, fun hw a hlow h => ?_⟩
  · simp only [Fin.getElem_fin, Vector.getElem_set, Fin.ext_iff, eq_comm]
  · obtain ⟨hio, hr⟩ := readsBacking_outputs hlow h
    exact peek_memWrite_backing hio hr v hw

/-! ### Inputs -/

/-- The byte of eight bits has these bits. -/
theorem getLsbD_byteOfBits (f : Fin 8 → Bool) (r : Fin 8) : (byteOfBits f).getLsbD r.val = f r := by
  have hle (k : Fin 8) : (f k).toNat ≤ 1 := Bool.toNat_le _
  have h0 := hle 0; have h1 := hle 1; have h2 := hle 2; have h3 := hle 3
  have h4 := hle 4; have h5 := hle 5; have h6 := hle 6; have h7 := hle 7
  have hbit (k : Fin 8) (n : Nat) (h : n / 2 ^ k.val % 2 = (f k).toNat) : (BitVec.ofNat 8 n).getLsbD k.val = f k := by
    rw [BitVec.getLsbD_ofNat, decide_eq_true k.isLt, Bool.true_and, Nat.testBit_eq_decide_div_mod_eq, h]
    cases f k <;> rfl
  unfold byteOfBits
  match r with
  | 0 => exact hbit 0 _ (by show _ / 1 % 2 = _; omega)
  | 1 => exact hbit 1 _ (by show _ / 2 % 2 = _; omega)
  | 2 => exact hbit 2 _ (by show _ / 4 % 2 = _; omega)
  | 3 => exact hbit 3 _ (by show _ / 8 % 2 = _; omega)
  | 4 => exact hbit 4 _ (by show _ / 16 % 2 = _; omega)
  | 5 => exact hbit 5 _ (by show _ / 32 % 2 = _; omega)
  | 6 => exact hbit 6 _ (by show _ / 64 % 2 = _; omega)
  | 7 => exact hbit 7 _ (by show _ / 128 % 2 = _; omega)

theorem getLsbD_closedRows (bd : Board) (r : Fin 8) : (closedRows bd).getLsbD r.val =
    decide (∃ c : Fin 8, bd.swCol.getLsbD c.val = true ∧ bd.switches[c][r] = true) := by
  rw [closedRows, getLsbD_byteOfBits, Bool.eq_iff_iff]
  simp

/-- With no column selected no row reads as closed (R376). -/
theorem closedRows_of_no_column {bd : Board} (h : bd.swCol = 0x00#8) : closedRows bd = 0x00#8 := by
  have hnone : closedRows bd = byteOfBits fun _ => false := congrArg byteOfBits (funext fun r => by simp [h])
  rw [hnone]
  rfl

/-- Settles O49: each read by computation; a write to an input only stores. -/
theorem asicInputs : Obligations.AsicInputs := by
  have hrows (st : State) : peek st 0x3FE9#16 = closedRows st.board := peek_of_io (by decide) st
  refine ⟨fun st r => ?_, fun st h => ?_,
    fun st => ⟨peek_of_io (by decide) st, peek_of_io (by decide) st, peek_of_io (by decide) st⟩, fun st v a ha => ?_,
    fun st v => memWrite_of_io (by decide) v st⟩
  · rw [hrows, getLsbD_closedRows]
  · rw [hrows, closedRows_of_no_column h]
  · rcases ha with rfl | rfl | rfl
    · exact memWrite_of_io (by decide) v st
    · exact memWrite_of_io (by decide) v st
    · exact memWrite_of_io (by decide) v st

/-! ### Bank, lock, LED -/

/-- The two system pages are selected as they are, any other value is masked (60_exceptions.md R380). -/
theorem selectBank_of_system {v : Byte} (h : v = 62#8 ∨ v = 63#8) (size : RomSize) : selectBank size v = v := if_pos h

theorem selectBank_of_page {v : Byte} (h : ¬ (v = 62#8 ∨ v = 63#8)) (size : RomSize) :
    (selectBank size v).toNat = v.toNat % size.pageCount := by
  rw [selectBank, if_neg h, and_pageMask_toNat]

/-- No write turns the protection off (R382). -/
theorem memWrite_protMask_isSome (a : Word) (v : Byte) {st : State} (h : st.board.protMask.isSome = true) :
    (memWrite a v st).board.protMask.isSome = true := by
  unfold memWrite
  split
  · unfold asicWrite
    generalize asicReg a = r
    cases r with
    | ramLockSize =>
      dsimp only
      split
      · rfl
      · exact h
    | _ => exact h
  · split <;> exact h

/-- A write to the LED register counts a change (R383). -/
theorem memWrite_leds (v : Byte) (st : State) : memWrite 0x3FF2#16 v st =
    { st with
      board.ram := st.board.ram.write 0x3FF2 v
      board.ledToggleCount := st.board.ledToggleCount + (if v ≠ st.board.ram.read 0x3FF2 then 1 else 0) } := by
  have h : memWrite 0x3FF2#16 v st =
      { st with
        board.ram := st.board.ram.write 0x3FF2 v
        board.ledToggleCount :=
          if v = st.board.ram.read 0x3FF2 then st.board.ledToggleCount else st.board.ledToggleCount + 1 } :=
    memWrite_of_io (by decide) v st
  rw [h]
  by_cases hv : v = st.board.ram.read 0x3FF2 <;> simp [hv]

/-- Settles O50: each write by computation, the bank by the page mask. -/
theorem bankLockLed : Obligations.BankLockLed := by
  refine ⟨fun st v => ⟨selectBank st.board.romSize v, memWrite_of_io (by decide) v st, fun h => selectBank_of_system h _,
    fun h => selectBank_of_page h _, fun hs hv => ?_⟩, fun st => ?_, fun st v => ⟨memWrite_of_io (by decide) v st,
    memWrite_of_io (by decide) v st, fun a => memWrite_protMask_isSome a v, memWrite_leds v st, fun hw a ha => ?_⟩⟩
  · rw [hs, hv]
    decide
  · have h : peek st 0x3FFC#16 = st.board.romBank &&& st.board.romSize.pageMask := peek_of_io (by decide) st
    rw [h, and_pageMask_toNat]
  · rcases ha with rfl | rfl | rfl
    · exact peek_memWrite_backing (by decide) (by decide) v hw
    · exact peek_memWrite_backing (by decide) (by decide) v hw
    · exact peek_memWrite_backing (by decide) (by decide) v hw

/-! ### Zero-cross, shift registers, clock, unlisted addresses -/

/-- A zero-cross write acknowledges the IRQ on bit 7 and toggles its source on bit 4 (60_exceptions.md R384). -/
theorem memWrite_zeroCross (v : Byte) (st : State) : memWrite 0x3FFF#16 v st =
    { st with
      board.ram := st.board.ram.write 0x3FFF v
      latches.irqPending := st.latches.irqPending && !v.getLsbD 7
      board.periodicIrqEnabled := (st.board.periodicIrqEnabled != v.getLsbD 4) } := by
  have h : memWrite 0x3FFF#16 v st =
      { st with
        board.ram := st.board.ram.write 0x3FFF v
        latches.irqPending := if v.getLsbD 7 then false else st.latches.irqPending
        board.periodicIrqEnabled := zcBit4 (v.getLsbD 4) st.board.periodicIrqEnabled } :=
    memWrite_of_io (by decide) v st
  have hirq : (if v.getLsbD 7 then false else st.latches.irqPending) = (st.latches.irqPending && !v.getLsbD 7) := by
    cases v.getLsbD 7 <;> simp
  have henabled : zcBit4 (v.getLsbD 4) st.board.periodicIrqEnabled = (st.board.periodicIrqEnabled != v.getLsbD 4) := by
    cases v.getLsbD 4 <;> cases st.board.periodicIrqEnabled <;> rfl
  rw [h, hirq, henabled]

/-- What a zero-cross read returns (R385). -/
theorem peek_zeroCross (st : State) : peek st 0x3FFF#16 =
    (if st.board.zcFlag then 0x80#8 else 0x00#8) ||| (st.board.ram.read 0x3FFF &&& 0x7F#8) := peek_of_io (by decide) st

theorem zeroCrossByte_toNat : ∀ (flag : Bool) (v : Byte),
    ((if flag then 0x80#8 else 0x00#8) ||| (v &&& 0x7F#8)).toNat = 128 * flag.toNat + v.toNat % 128 := by decide

/-- A zero-cross read clears the flag it has shown (R385). -/
theorem readEffect_zeroCross (st : State) : readEffect 0x3FFF#16 st = { st with board.zcFlag := false } :=
  readEffect_of_io (by decide) st

/-- The shift address reads: the base address and what the bit count carries into it (R386). -/
theorem peek_shiftAddr (st : State) :
    (peek st 0x3FF5#16).toNat = shiftSum st.board % 256 ∧
      (peek st 0x3FF4#16).toNat = ((st.board.ram.read 0x3FF4).toNat + shiftSum st.board / 256) % 256 := by
  have hl : peek st 0x3FF5#16 = BitVec.ofNat 8 (shiftSum st.board) := peek_of_io (by decide) st
  have hh : peek st 0x3FF4#16 = BitVec.ofNat 8 ((st.board.ram.read 0x3FF4).toNat + shiftSum st.board / 256) :=
    peek_of_io (by decide) st
  rw [hl, hh]
  exact ⟨BitVec.toNat_ofNat _ _, BitVec.toNat_ofNat _ _⟩

/-- The shift bit reads (R387). -/
theorem peek_shiftBit (st : State) :
    peek st 0x3FF6#16 = oneHot (st.board.ram.read 0x3FF6) ∧ peek st 0x3FF7#16 = oneHot (st.board.ram.read 0x3FF7) :=
  ⟨peek_of_io (by decide) st, peek_of_io (by decide) st⟩

theorem rtcHour_lt (n : Nat) : (Params.rtcHour n).toNat < 24 := by
  have := (Config.rtcHour n).isLt
  rw [Params.rtcHour, BitVec.toNat_ofNat]
  omega

theorem rtcMinute_lt (n : Nat) : (Params.rtcMinute n).toNat < 60 := by
  have := (Config.rtcMinute n).isLt
  rw [Params.rtcMinute, BitVec.toNat_ofNat]
  omega

/-- The clock reads are draws (R388). -/
theorem peek_rtc (st : State) : peek st 0x3FFA#16 = Params.rtcHour st.board.rtcDraws ∧
    peek st 0x3FFB#16 = Params.rtcMinute st.board.rtcDraws :=
  ⟨peek_of_io (by decide) st, peek_of_io (by decide) st⟩

/-- An unlisted address is plain storage (R389). -/
theorem unlisted_storage {a : Word} (hio : isIo a = true) (h : asicReg a = .unlisted) (v : Byte) (st : State) :
    memWrite a v st = { st with board.ram := st.board.ram.write a.toNat v } ∧
    peek st a = st.board.ram.read a.toNat ∧ readEffect a st = st := by
  refine ⟨?_, ?_, ?_⟩
  · rw [memWrite_of_io hio, asicWrite, h]
  · rw [peek_of_io hio, asicValue_of_readsBacking (by rw [h]; rfl)]
  · rw [readEffect_of_io hio, asicReadEffect_of_passive (by rw [h]; rfl)]

/-- Settles O51: each register by its own lemma. -/
theorem zeroCrossShiftClock : Obligations.ZeroCrossShiftClock := by
  refine ⟨fun st v => memWrite_zeroCross v st, fun st => ⟨?_, readEffect_zeroCross st, ?_⟩, fun st => ⟨?_, ?_, ?_, ?_⟩,
    fun st => ⟨?_, ?_, readEffect_of_io (by decide) st, readEffect_of_io (by decide) st⟩, fun st v a ha => ?_,
    fun st v a ha => ?_⟩
  · rw [peek_zeroCross, zeroCrossByte_toNat]
  · rw [readEffect_zeroCross, peek_zeroCross]
    simp
  · exact (peek_shiftAddr st).1
  · exact (peek_shiftAddr st).2
  · rw [(peek_shiftBit st).1, oneHot_toNat]
  · rw [(peek_shiftBit st).2, oneHot_toNat]
  · rw [(peek_rtc st).1]
    exact rtcHour_lt _
  · rw [(peek_rtc st).2]
    exact rtcMinute_lt _
  · rcases ha with rfl | rfl | rfl | rfl | rfl | rfl
    iterate 6 exact memWrite_of_io (by decide) v st
  · obtain ⟨hio, h⟩ := asicReg_unlisted ha
    exact unlisted_storage hio h v st

end Sys2Proof.Machine
end

section
/-! The statements of spec/70_reset_and_hazards.md: `reset()` reads its vector from the system ROM; a session started over buffers
in order meets the invariant; bring-up either names a wrong input or was given every input in its right size. -/

namespace Sys2Proof.Machine

/-! ### Reset -/

/-- The word at 0xFFFE is read from the system ROM (20_memory.md R85). -/
theorem resetCpu_eq (st : State) :
    resetCpu st = { st with regs := .afterReset (romWord st.board 0x7FFE), latches := .afterReset } := by
  rw [resetCpu, memRead16_rom 0xFFFE#16 0x7FFE (by decide) (by decide)]

/-- After reset both interrupt masks are set and no other flag is (R420). -/
theorem getFlag_afterReset (vector : Word) (fl : Flag) :
    getFlag (Regs.afterReset vector).cc fl = decide (fl = .f ∨ fl = .i) := by
  show getFlag 0x50#8 fl = _
  cases fl <;> decide

/-- Settles O54: the vector lies in the system ROM, where a read has no side effect. -/
theorem resetEffect : Obligations.ResetEffect := by
  intro st
  rw [resetCpu_eq]
  exact ⟨rfl, getFlag_afterReset _⟩

/-! ### The state at session start -/

/-- Page 0 is selected, every lamp is off and no violation is counted at session start (R421). -/
theorem State.start_inv {ram systemRom gameRom : Memory} {size : RomSize} (hram : ram.Ok 0x4000)
    (hsystemRom : systemRom.Ok 0x8000) (hgameRom : gameRom.Ok (size.pageCount * Params.pageSize)) :
    (State.start ram systemRom gameRom size).Inv where
  ram := hram
  systemRom := hsystemRom
  gameRom := hgameRom
  bank := .inl (show 0 < size.pageCount by cases size <;> decide)
  lamps k := .inl (show (Vector.replicate 64 0#8)[k] = 0#8 by simp)
  violations _ := rfl

/-- Settles O57: the state of reset is a session start over empty buffers. -/
theorem invariantAtReset : Obligations.InvariantAtReset :=
  State.start_inv ⟨rfl, rfl⟩ ⟨rfl, rfl⟩ ⟨rfl, rfl⟩

/-! ### Bring-up -/

@[simp] theorem romSizeOf_pageCount (size : RomSize) : romSizeOf size.pageCount = some size := by
  cases size <;> rfl

theorem pageCount_of_romSizeOf {pages : Nat} {size : RomSize} (h : romSizeOf pages = some size) :
    size.pageCount = pages := by
  unfold romSizeOf at h
  split at h <;> cases h <;> rfl

/-- The page counts of the size classes (R422). -/
theorem exists_pageCount_iff (pages : Nat) :
    (∃ size : RomSize, size.pageCount = pages) ↔ pages = 8 ∨ pages = 16 ∨ pages = 32 ∨ pages = 64 := by
  constructor
  · rintro ⟨size, rfl⟩
    cases size <;> decide
  · rintro (rfl | rfl | rfl | rfl)
    · exact ⟨.pages8, rfl⟩
    · exact ⟨.pages16, rfl⟩
    · exact ⟨.pages32, rfl⟩
    · exact ⟨.pages64, rfl⟩

/-- The caller's buffers have the sizes of the class (R422). -/
structure BuffersFit (systemRom gameRom ram : List Byte) (size : RomSize) : Prop where
  systemRom : systemRom.length = systemRomLength
  gameRom : gameRom.length = size.pageCount * Params.pageSize
  ram : ramLength ≤ ram.length

/-- Every input of bring-up is there and of the right size (R422). -/
structure BringUp.Complete (cfg : BringUp) (systemRom gameRom ram : List Byte) (size : RomSize) : Prop where
  hasSystemRom : cfg.systemRom = some systemRom
  hasGameRom : cfg.gameRom = some gameRom
  hasRam : cfg.ram = some ram
  clearIrqFlag : cfg.hasClearIrqFlag = true
  clearFirqFlag : cfg.hasClearFirqFlag = true
  pages : size.pageCount = cfg.pages
  fit : BuffersFit systemRom gameRom ram size

/-- The session over the caller's buffers. -/
def sessionOver (systemRom gameRom ram : List Byte) (size : RomSize) : State :=
  .start (.ofBytes (ram.take ramLength)) (.ofBytes systemRom) (.ofBytes gameRom) size

theorem bringUpSized_of_fit {systemRom gameRom ram : List Byte} {size : RomSize}
    (h : BuffersFit systemRom gameRom ram size) :
    bringUpSized systemRom gameRom ram size.pageCount = .next (sessionOver systemRom gameRom ram size) := by
  simp only [bringUpSized, romSizeOf_pageCount]
  rw [if_neg (not_not_intro h.systemRom), if_neg (not_not_intro h.gameRom), if_neg (Nat.not_lt.2 h.ram)]
  rfl

theorem bringUp_of_complete {cfg : BringUp} {systemRom gameRom ram : List Byte} {size : RomSize}
    (h : cfg.Complete systemRom gameRom ram size) :
    bringUp cfg = .next (sessionOver systemRom gameRom ram size) := by
  simp only [bringUp, h.hasSystemRom, h.hasGameRom, h.hasRam, h.clearIrqFlag, h.clearFirqFlag, ← h.pages]
  exact bringUpSized_of_fit h.fit

theorem bringUpSized_cases (systemRom gameRom ram : List Byte) (pages : Nat) :
    (∃ what, bringUpSized systemRom gameRom ram pages = .fault (.configRejected what)) ∨
    ∃ size : RomSize, size.pageCount = pages ∧ BuffersFit systemRom gameRom ram size := by
  unfold bringUpSized
  split
  · exact .inl ⟨_, rfl⟩
  rename_i hsystemRom
  split
  · exact .inl ⟨_, rfl⟩
  rename_i size hsize
  split
  · exact .inl ⟨_, rfl⟩
  rename_i hgameRom
  split
  · exact .inl ⟨_, rfl⟩
  rename_i hram
  exact .inr ⟨size, pageCount_of_romSizeOf hsize, Decidable.not_not.1 hsystemRom, Decidable.not_not.1 hgameRom,
    Nat.not_lt.1 hram⟩

/-- What bring-up can do: it names a wrong input, or every input is there and of the right size. -/
theorem bringUp_cases (cfg : BringUp) :
    (∃ what, bringUp cfg = .fault (.configRejected what)) ∨
    ∃ systemRom gameRom ram size, cfg.Complete systemRom gameRom ram size := by
  unfold bringUp
  split
  · exact .inl ⟨_, rfl⟩
  · exact .inl ⟨_, rfl⟩
  · exact .inl ⟨_, rfl⟩
  next systemRom gameRom ram hsystemRom hgameRom hram =>
    split
    · exact .inl ⟨_, rfl⟩
    split
    · exact .inl ⟨_, rfl⟩
    rename_i hirq hfirq
    refine (bringUpSized_cases systemRom gameRom ram cfg.pages).imp_right ?_
    rintro ⟨size, hpages, hfit⟩
    exact ⟨systemRom, gameRom, ram, size, hsystemRom, hgameRom, hram, by simpa using hirq, by simpa using hfirq,
      hpages, hfit⟩

/-! ### The session over the caller's buffers -/

theorem sessionOver_inv {systemRom gameRom ram : List Byte} {size : RomSize}
    (h : BuffersFit systemRom gameRom ram size) : (sessionOver systemRom gameRom ram size).Inv :=
  State.start_inv (Memory.ofBytes_ok _ _ (List.length_take_le _ _)) (Memory.ofBytes_ok _ _ h.systemRom.le)
    (Memory.ofBytes_ok _ _ h.gameRom.le)

/-- RAM holds the caller's buffer, of which bytes past 0x3FFF are not used (10_state.md R50). -/
theorem read_ofBytes_take (ram : List Byte) {k : Nat} (h : k < ramLength) :
    (Memory.ofBytes (ram.take ramLength)).read k = ram.getD k 0x00#8 := by
  rw [Memory.read_ofBytes, List.getD_eq_getElem?_getD, List.getElem?_take_of_lt h, ← List.getD_eq_getElem?_getD,
    unlisted]

/-- PC is the last word of the system ROM (R420). -/
theorem sessionOver_regs (systemRom gameRom ram : List Byte) (size : RomSize) :
    (sessionOver systemRom gameRom ram size).regs =
      .afterReset (join (systemRom.getD 0x7FFE 0x00#8) (systemRom.getD 0x7FFF 0x00#8)) := by
  show Regs.afterReset (join ((Memory.ofBytes systemRom).read 0x7FFE) ((Memory.ofBytes systemRom).read 0x7FFF)) = _
  rw [Memory.read_ofBytes, Memory.read_ofBytes, unlisted]

/-- Settles O55: complete inputs start the session over their buffers; an input that is missing or of a wrong size leaves bring-up
its other case, the rejection. -/
theorem sessionBringUp : Obligations.SessionBringUp := by
  constructor
  · intro cfg sys game ram hsys hgame hram hirq hfirq hsysLen hpages hgameLen hramLen
    obtain ⟨size, hsize⟩ := (exists_pageCount_iff cfg.pages).2 hpages
    have hfit : BuffersFit sys game ram size := ⟨hsysLen, hsize ▸ hgameLen, hramLen⟩
    refine ⟨sessionOver sys game ram size, size, bringUp_of_complete ⟨hsys, hgame, hram, hirq, hfirq, hsize, hfit⟩,
      hsize, sessionOver_inv hfit, rfl, fun k hk => read_ofBytes_take ram hk, fun k _ => Memory.read_ofBytes sys k,
      fun k _ => Memory.read_ofBytes game k, sessionOver_regs sys game ram size, rfl, rfl, rfl⟩
  · intro cfg hwrong
    refine (bringUp_cases cfg).resolve_right ?_
    rintro ⟨sys, game, ram, size, h⟩
    have hpages := (exists_pageCount_iff cfg.pages).1 ⟨size, h.pages⟩
    have hgameLen : game.length = cfg.pages * 0x4000 := h.pages ▸ h.fit.gameRom
    rcases hwrong with hno | hno | hno | hno | hno | ⟨sys', hsys, hlen⟩ | hno | ⟨game', hgame, hlen⟩ | ⟨ram', hram, hlen⟩
    · exact Option.some_ne_none _ (h.hasSystemRom.symm.trans hno)
    · exact Option.some_ne_none _ (h.hasGameRom.symm.trans hno)
    · exact Option.some_ne_none _ (h.hasRam.symm.trans hno)
    · exact Bool.noConfusion (h.clearIrqFlag.symm.trans hno)
    · exact Bool.noConfusion (h.clearFirqFlag.symm.trans hno)
    · obtain rfl := Option.some.inj (h.hasSystemRom.symm.trans hsys)
      exact hlen h.fit.systemRom
    · omega
    · obtain rfl := Option.some.inj (h.hasGameRom.symm.trans hgame)
      exact hlen hgameLen
    · obtain rfl := Option.some.inj (h.hasRam.symm.trans hram)
      exact Nat.not_lt.2 h.fit.ram hlen

end Sys2Proof.Machine
end

section
/-! The round trip of spec/30_encoding.md: where the decoder reads an addressing shape, it gives back every operand the encoder
writes in that shape; each instruction is encoded in one of them. -/

namespace Sys2Proof.Machine

/-! ### Each shape gives back the encoder's operand -/

theorem EncWord.decode_hi_lo {p : List Byte} {op : Byte} {k : Word → Instr} (h : EncWord p op k) (v : Word)
    (rest : List Byte) : decode (p ++ op :: hi v :: lo v :: rest) = .ok (k v) rest := by
  rw [h, join_hi_lo]

theorem EncMem.decode_encodeMem {p : List Byte} {d x e : Byte} {k : Mem → Instr} (h : EncMem p d x e k) (m : Mem)
    (rest : List Byte) : decode (encodeMem p d x e m ++ rest) = .ok (k m) rest := by
  obtain ⟨hdir, ⟨hidx, -⟩, hext⟩ := h
  cases m with
  | dir dd => simpa [encodeMem] using hdir dd rest
  | idx ix => simpa [encodeMem] using hidx ix rest
  | ext a => simpa [encodeMem] using hext (hi a) (lo a) rest

theorem EncSrc8.decode_encodeSrc8 {i d x e : Byte} {k : Src8 → Instr} (h : EncSrc8 i d x e k) (m : Src8)
    (rest : List Byte) : decode (encodeSrc8 i d x e m ++ rest) = .ok (k m) rest := by
  obtain ⟨himm, hmem⟩ := h
  cases m with
  | imm v => exact himm v rest
  | mem m => exact hmem.decode_encodeMem m rest

theorem EncSrc16.decode_encodeSrc16 {p : List Byte} {i d x e : Byte} {k : Src16 → Instr} (h : EncSrc16 p i d x e k)
    (m : Src16) (rest : List Byte) : decode (encodeSrc16 p i d x e m ++ rest) = .ok (k m) rest := by
  obtain ⟨himm, hmem⟩ := h
  cases m with
  | imm v => simpa [encodeSrc16] using himm.decode_hi_lo v rest
  | mem m => exact hmem.decode_encodeMem m rest

/-! ### The instructions by shape -/

/-- Settles O1: the instructions by the shape of their encoding (30_encoding.md R112); each reader gives back what the encoder
wrote. Only the register pairs need well-formedness. -/
theorem decodeEncodeRoundTrip : Obligations.DecodeEncodeRoundTrip := by
  intro i rest hwf
  cases i with
  -- byte operands: IMM8 or memory
  | lda m | ldb m | adda m | addb m | adca m | adcb m | suba m | subb m | sbca m | sbcb m | cmpa m | cmpb m | anda m | andb m
  | ora m | orb m | eora m | eorb m | bita m | bitb m =>
    exact EncSrc8.decode_encodeSrc8 (encSrc8_of (fun _ => rfl) (fun _ => rfl) (fun _ => rfl) fun _ => rfl) m rest
  -- word operands: IMM16 or memory
  | ldd m | ldx m | ldy m | ldu m | lds m | addd m | subd m | cmpd m | cmpx m | cmpy m | cmpu m | cmps m =>
    exact EncSrc16.decode_encodeSrc16 (encSrc16_of (fun _ => rfl) (fun _ => rfl) (fun _ => rfl) fun _ => rfl) m rest
  -- memory operands
  | sta m | stb m | std m | stx m | sty m | stu m | sts m | neg m | com m | lsr m | ror m | asr m | asl m | rol m | dec m
  | inc m | tst m | clr m | jmp m | jsr m =>
    exact EncMem.decode_encodeMem (encMem_of (fun _ => rfl) (fun _ => rfl) fun _ => rfl) m rest
  -- indexed operands
  | leax ix | leay ix | leas ix | leau ix => exact takeIndexed_encodeIndexed ix rest _
  -- register pairs
  | tfr r1 r2 | exg r1 r2 => exact takePair_encodePair r1 r2 rest _ hwf
  -- one byte: register lists, short displacements, masks
  | pshs v | pshu v | puls v | pulu v | bra v | brn v | bhi v | bls v | bcc v | bcs v | bne v | beq v | bvc v | bvs v | bpl v
  | bmi v | bge v | blt v | bgt v | ble v | bsr v | cwai v | andcc v | orcc v => rfl
  -- long displacements, on page 1 and on page 2
  | lbra v | lbsr v => exact EncWord.decode_hi_lo (p := []) (fun _ _ _ => rfl) v rest
  | lbrn v | lbhi v | lbls v | lbcc v | lbcs v | lbne v | lbeq v | lbvc v | lbvs v | lbpl v | lbmi v | lbge v | lblt v
  | lbgt v | lble v => exact EncWord.decode_hi_lo (p := [prefix2]) (fun _ _ _ => rfl) v rest
  -- opcode bytes alone
  | mul | daa | sex | abx | nega | negb | coma | comb | lsra | lsrb | rora | rorb | asra | asrb | asla | aslb | rola | rolb
  | deca | decb | inca | incb | tsta | tstb | clra | clrb | rts | nop | swi | swi2 | swi3 | rti | sync => rfl

/-- Settles O6: the decoder evaluated on each word; the last two are laid out as bytes first (log 11). -/
theorem opcodeWordsDecode : Obligations.OpcodeWordsDecode :=
  ⟨rfl, rfl, rfl, rfl, rfl, rfl, rfl, rfl, rfl, rfl, rfl⟩

end Sys2Proof.Machine
end
